-- ==== Sys2Proof/Word.lean ====
section
/-! DEFINITION. The word widths of the core (spec 00_scope.md R8, R12). -/

namespace Sys2Proof

/-- A 36-bit machine word, the smallest addressable unit of memory (R8, R85). -/
abbrev Word36 := BitVec 36

/-- A 24-bit physical address (R8, R81). -/
abbrev Word24 := BitVec 24

/-- An 18-bit computed address or half word (R8). -/
abbrev Word18 := BitVec 18

/-- A 15-bit segment number (R8). -/
abbrev Segno := BitVec 15

/-- A 3-bit ring number, a lower number more privileged (R8, R379). -/
abbrev Ring := BitVec 3

/-- A 6-bit modifier tag, `Tm` in [5:4] and `Td` in [3:0] (R8, R121). -/
abbrev Tag := BitVec 6

/-- A 4-bit designator `Td` (R8, R121). -/
abbrev Designator := BitVec 4

end Sys2Proof
end

