-- ==== Sys2Proof/Config.lean ====
section
/-! DEFINITION. The implementation parameters of spec 00_scope.md R9. They are arguments of the model: `State` carries
one `Config`, no step changes it, and every statement about all states holds for every value of it (log entry 3). -/

namespace Sys2Proof

/-- What an IT tag met inside an IR chain does: the parameter `IR_IT_POLICY` (R9, R185). -/
inductive IrItPolicy where
  /-- Raise `IllegalModifier(ITInIRChain)`: the spec's default. -/
  | fault
  /-- Perform the IT modification and discard the held designator. -/
  | performIt
deriving DecidableEq, Repr

/-- The parameters of R9 that one processor sees. `N_PROCESSORS` is not among them: the model is one processor
(log entry 9). The AM sizes and `USE_MAX` are fixed by the source and stand in the types. -/
structure Config where
  /-- `MEM_SIZE`, OPEN: the number of physical words that exist (R9, R81). -/
  memSize : Nat
  /-- log2 of `PAGE_SIZE` (R9: a power of two dividing 2^18). -/
  pageShift : Nat
  /-- `MAX_INDIRECT_DEPTH`; `none` is the spec's infinity (R9, R163). -/
  maxIndirectDepth : Option Nat
  /-- `ITS_ESCALATION_STICKY` (R9, R262, R263). -/
  itsEscalationSticky : Bool
  /-- `IR_IT_POLICY` (R9, R185). -/
  irItPolicy : IrItPolicy
  /-- `PTW_WRITEBACK`, OPEN (R9, R300). -/
  ptwWriteback : Bool
deriving DecidableEq, Repr

/-- `PAGE_SIZE` in words (R9). -/
def Config.pageSize (c : Config) : Nat := 2 ^ c.pageShift

/-- The values R9 gives, with the two OPEN ones (`MEM_SIZE`, `PTW_WRITEBACK`) at the values the spec's test vectors fix for
themselves. DESIGN CHOICE (log entry 3): no statement about all states rests on them. -/
def Config.default : Config where
  memSize := 2 ^ 24
  pageShift := 10
  maxIndirectDepth := none
  itsEscalationSticky := false
  irItPolicy := .fault
  ptwWriteback := false

end Sys2Proof
end

