-- ==== Sys2Proof/Syntax.lean ====
section
/-! DEFINITION. The syntax: one constructor per row of spec/opcode_table.json (spec 30_encoding.md R126, R131, R132). The 64
tag rows have no operand field: the tag names the register or the tally variant, and the address it modifies is TPR.CA.
The two pointer-pair rows carry the fields of their even word. -/

namespace Sys2Proof

/-- The current instruction fields the core reads of an instruction word (R37, R120); the opcode is the external
decoder's and is not among them. -/
structure InstrFields where
  /-- `Y`, the raw address field. -/
  address : Word18
  /-- `TAG`. -/
  tag : Tag
  /-- The A bit, `indirectViaPointerRegister`. -/
  a : Bool
  /-- The I bit, `interruptInhibit`: carried, without meaning to the core (R375). -/
  i : Bool
deriving DecidableEq, Repr

/-- Where a word's tag is met: in tag position (an instruction's tag, a pair's MOD, a continuation tag, R126) or as the
low six bits of a word that RI or IR modification fetched as an indirect word (R128, R133). -/
inductive Position where
  | tag
  | indirectWord
deriving DecidableEq, Repr

/-- The instructions of the core: the 64 modifier tags of R126 and the two pointer-pair indirect words of R131 and R132. -/
inductive Instr where
  /-- `n`: tag 0o00, Tm R (R165, R170). -/
  | n
  /-- `au`: tag 0o01, Tm R (R165, R171). -/
  | au
  /-- `qu`: tag 0o02, Tm R (R165, R171). -/
  | qu
  /-- `du`: tag 0o03, Tm R (R165, R172). -/
  | du
  /-- `ic`: tag 0o04, Tm R (R165, R173). -/
  | ic
  /-- `al`: tag 0o05, Tm R (R165, R171). -/
  | al
  /-- `ql`: tag 0o06, Tm R (R165, R171). -/
  | ql
  /-- `dl`: tag 0o07, Tm R (R165, R172). -/
  | dl
  /-- `x0`: tag 0o10, Tm R (R165, R174). -/
  | x0
  /-- `x1`: tag 0o11, Tm R (R165, R174). -/
  | x1
  /-- `x2`: tag 0o12, Tm R (R165, R174). -/
  | x2
  /-- `x3`: tag 0o13, Tm R (R165, R174). -/
  | x3
  /-- `x4`: tag 0o14, Tm R (R165, R174). -/
  | x4
  /-- `x5`: tag 0o15, Tm R (R165, R174). -/
  | x5
  /-- `x6`: tag 0o16, Tm R (R165, R174). -/
  | x6
  /-- `x7`: tag 0o17, Tm R (R165, R174). -/
  | x7
  /-- `n*`: tag 0o20, Tm RI (R175, R170). -/
  | nStar
  /-- `au*`: tag 0o21, Tm RI (R175, R171). -/
  | auStar
  /-- `qu*`: tag 0o22, Tm RI (R175, R171). -/
  | quStar
  /-- `du*`: tag 0o23, Tm RI (R176, R172). -/
  | duStar
  /-- `ic*`: tag 0o24, Tm RI (R175, R173). -/
  | icStar
  /-- `al*`: tag 0o25, Tm RI (R175, R171). -/
  | alStar
  /-- `ql*`: tag 0o26, Tm RI (R175, R171). -/
  | qlStar
  /-- `dl*`: tag 0o27, Tm RI (R176, R172). -/
  | dlStar
  /-- `x0*`: tag 0o30, Tm RI (R175, R174). -/
  | x0Star
  /-- `x1*`: tag 0o31, Tm RI (R175, R174). -/
  | x1Star
  /-- `x2*`: tag 0o32, Tm RI (R175, R174). -/
  | x2Star
  /-- `x3*`: tag 0o33, Tm RI (R175, R174). -/
  | x3Star
  /-- `x4*`: tag 0o34, Tm RI (R175, R174). -/
  | x4Star
  /-- `x5*`: tag 0o35, Tm RI (R175, R174). -/
  | x5Star
  /-- `x6*`: tag 0o36, Tm RI (R175, R174). -/
  | x6Star
  /-- `x7*`: tag 0o37, Tm RI (R175, R174). -/
  | x7Star
  /-- `f1`: tag 0o40, Tm IT (R237). -/
  | f1
  /-- `itp`: tag 0o41, Tm IT (R240). -/
  | itp
  /-- `it_reserved_42`: tag 0o42, Tm IT (R240). -/
  | itReserved42
  /-- `its`: tag 0o43, Tm IT (R240). -/
  | its
  /-- `sd`: tag 0o44, Tm IT (R231). -/
  | sd
  /-- `scr`: tag 0o45, Tm IT (R229). -/
  | scr
  /-- `f2`: tag 0o46, Tm IT (R238). -/
  | f2
  /-- `f3`: tag 0o47, Tm IT (R239). -/
  | f3
  /-- `ci`: tag 0o50, Tm IT (R227). -/
  | ci
  /-- `i`: tag 0o51, Tm IT (R235). -/
  | i
  /-- `sc`: tag 0o52, Tm IT (R228). -/
  | sc
  /-- `ad`: tag 0o53, Tm IT (R230). -/
  | ad
  /-- `di`: tag 0o54, Tm IT (R232). -/
  | di
  /-- `dic`: tag 0o55, Tm IT (R236). -/
  | dic
  /-- `id`: tag 0o56, Tm IT (R233). -/
  | id
  /-- `idc`: tag 0o57, Tm IT (R234). -/
  | idc
  /-- `*n`: tag 0o60, Tm IR (R180, R170). -/
  | starN
  /-- `*au`: tag 0o61, Tm IR (R180, R171). -/
  | starAu
  /-- `*qu`: tag 0o62, Tm IR (R180, R171). -/
  | starQu
  /-- `*du`: tag 0o63, Tm IR (R180, R172). -/
  | starDu
  /-- `*ic`: tag 0o64, Tm IR (R180, R173). -/
  | starIc
  /-- `*al`: tag 0o65, Tm IR (R180, R171). -/
  | starAl
  /-- `*ql`: tag 0o66, Tm IR (R180, R171). -/
  | starQl
  /-- `*dl`: tag 0o67, Tm IR (R180, R172). -/
  | starDl
  /-- `*x0`: tag 0o70, Tm IR (R180, R174). -/
  | starX0
  /-- `*x1`: tag 0o71, Tm IR (R180, R174). -/
  | starX1
  /-- `*x2`: tag 0o72, Tm IR (R180, R174). -/
  | starX2
  /-- `*x3`: tag 0o73, Tm IR (R180, R174). -/
  | starX3
  /-- `*x4`: tag 0o74, Tm IR (R180, R174). -/
  | starX4
  /-- `*x5`: tag 0o75, Tm IR (R180, R174). -/
  | starX5
  /-- `*x6`: tag 0o76, Tm IR (R180, R174). -/
  | starX6
  /-- `*x7`: tag 0o77, Tm IR (R180, R174). -/
  | starX7
  /-- `its_pair`: the even word of an ITS pair, tag 0o43, with SEGNO and RN (R131, R258). -/
  | itsPair (segno : Segno) (rn : Ring)
  /-- `itp_pair`: the even word of an ITP pair, tag 0o41, with PRNUM (R132, R259). -/
  | itpPair (prnum : BitVec 3)
deriving DecidableEq, Repr

end Sys2Proof
end

