-- ==== Sys2Proof/WellFormed.lean ====
section
/-! DEFINITION. When a term of the syntax can be met, and when a configuration is one the spec allows. -/

namespace Sys2Proof

/-- In tag position every instruction but a pointer pair can stand, since a pair is recognised only in a fetched indirect
word (R133). In a fetched indirect word the tags 0o41 and 0o43 always start a pair, so `itp` and `its` cannot be met
there as dispatched tags (R133, R240). -/
def Instr.wellFormed : Position → Instr → Bool
  | .tag, .itsPair _ _ => false
  | .tag, .itpPair _ => false
  | .indirectWord, .its => false
  | .indirectWord, .itp => false
  | _, _ => true

/-- `1 ≤ MEM_SIZE ≤ 2^24`, and `PAGE_SIZE` a power of two dividing 2^18 (R9). -/
def Config.wellFormed (c : Config) : Bool :=
  decide (1 ≤ c.memSize) && decide (c.memSize ≤ 2 ^ 24) && decide (c.pageShift ≤ 18)

end Sys2Proof
end

