-- ==== Sys2Proof/Decode.lean ====
section
/-! DEFINITION. Decoding and encoding (spec 30_encoding.md). Every one of the 64 tag values has a meaning (R126, R139), so the
tag decoder is total and refuses nothing; `decodeTableWord` alone refuses, and only what is no 36-bit word. -/

namespace Sys2Proof

/-! ### Tags (R121, R122, R126) -/

/-- `Tm`, the modification type: bits [5:4] of a tag (R121). -/
def tagTm (t : Tag) : BitVec 2 := t.extractLsb' 4 2

/-- `Td`, the designator: bits [3:0] of a tag (R121). -/
def tagTd (t : Tag) : Designator := t.extractLsb' 0 4

/-- A tag from its two parts, `Tm ∥ Td` (R121). -/
def tagOfParts (tm : BitVec 2) (td : Designator) : Tag := tm ++ td

/-- Tm = 0, register modification: tags 0o00 to 0o17 (R122, R123, R126). -/
def decodeRegisterTag (td : Designator) : Instr :=
  match td.toNat with
  | 0 => .n
  | 1 => .au
  | 2 => .qu
  | 3 => .du
  | 4 => .ic
  | 5 => .al
  | 6 => .ql
  | 7 => .dl
  | 8 => .x0
  | 9 => .x1
  | 10 => .x2
  | 11 => .x3
  | 12 => .x4
  | 13 => .x5
  | 14 => .x6
  | _ => .x7

/-- Tm = 1, register-then-indirect: tags 0o20 to 0o37 (R122, R126). -/
def decodeRegisterIndirectTag (td : Designator) : Instr :=
  match td.toNat with
  | 0 => .nStar
  | 1 => .auStar
  | 2 => .quStar
  | 3 => .duStar
  | 4 => .icStar
  | 5 => .alStar
  | 6 => .qlStar
  | 7 => .dlStar
  | 8 => .x0Star
  | 9 => .x1Star
  | 10 => .x2Star
  | 11 => .x3Star
  | 12 => .x4Star
  | 13 => .x5Star
  | 14 => .x6Star
  | _ => .x7Star

/-- Tm = 2, indirect-tally: tags 0o40 to 0o57 (R122, R124, R126). -/
def decodeIndirectTallyTag (td : Designator) : Instr :=
  match td.toNat with
  | 0 => .f1
  | 1 => .itp
  | 2 => .itReserved42
  | 3 => .its
  | 4 => .sd
  | 5 => .scr
  | 6 => .f2
  | 7 => .f3
  | 8 => .ci
  | 9 => .i
  | 10 => .sc
  | 11 => .ad
  | 12 => .di
  | 13 => .dic
  | 14 => .id
  | _ => .idc

/-- Tm = 3, indirect-then-register: tags 0o60 to 0o77 (R122, R126). -/
def decodeIndirectRegisterTag (td : Designator) : Instr :=
  match td.toNat with
  | 0 => .starN
  | 1 => .starAu
  | 2 => .starQu
  | 3 => .starDu
  | 4 => .starIc
  | 5 => .starAl
  | 6 => .starQl
  | 7 => .starDl
  | 8 => .starX0
  | 9 => .starX1
  | 10 => .starX2
  | 11 => .starX3
  | 12 => .starX4
  | 13 => .starX5
  | 14 => .starX6
  | _ => .starX7

/-- The instruction of a tag in tag position: dispatch on Tm, then on Td (R122, R126, R162, R220). -/
def decodeTag (t : Tag) : Instr :=
  match (tagTm t).toNat with
  | 0 => decodeRegisterTag (tagTd t)
  | 1 => decodeRegisterIndirectTag (tagTd t)
  | 2 => decodeIndirectTallyTag (tagTd t)
  | _ => decodeIndirectRegisterTag (tagTd t)

/-- The tag of an instruction (R126); a pointer pair has its even word's tag (R131, R132). -/
def tagOf : Instr → Tag
  | .n => 0o00
  | .au => 0o01
  | .qu => 0o02
  | .du => 0o03
  | .ic => 0o04
  | .al => 0o05
  | .ql => 0o06
  | .dl => 0o07
  | .x0 => 0o10
  | .x1 => 0o11
  | .x2 => 0o12
  | .x3 => 0o13
  | .x4 => 0o14
  | .x5 => 0o15
  | .x6 => 0o16
  | .x7 => 0o17
  | .nStar => 0o20
  | .auStar => 0o21
  | .quStar => 0o22
  | .duStar => 0o23
  | .icStar => 0o24
  | .alStar => 0o25
  | .qlStar => 0o26
  | .dlStar => 0o27
  | .x0Star => 0o30
  | .x1Star => 0o31
  | .x2Star => 0o32
  | .x3Star => 0o33
  | .x4Star => 0o34
  | .x5Star => 0o35
  | .x6Star => 0o36
  | .x7Star => 0o37
  | .f1 => 0o40
  | .itp => 0o41
  | .itReserved42 => 0o42
  | .its => 0o43
  | .sd => 0o44
  | .scr => 0o45
  | .f2 => 0o46
  | .f3 => 0o47
  | .ci => 0o50
  | .i => 0o51
  | .sc => 0o52
  | .ad => 0o53
  | .di => 0o54
  | .dic => 0o55
  | .id => 0o56
  | .idc => 0o57
  | .starN => 0o60
  | .starAu => 0o61
  | .starQu => 0o62
  | .starDu => 0o63
  | .starIc => 0o64
  | .starAl => 0o65
  | .starQl => 0o66
  | .starDl => 0o67
  | .starX0 => 0o70
  | .starX1 => 0o71
  | .starX2 => 0o72
  | .starX3 => 0o73
  | .starX4 => 0o74
  | .starX5 => 0o75
  | .starX6 => 0o76
  | .starX7 => 0o77
  | .itsPair _ _ => 0o43
  | .itpPair _ => 0o41

/-! ### Words -/

/-- The tag of a 36-bit word: bits [5:0] of an instruction word, an indirect word or a pair's word (R121, R128, R131). -/
def wordTag (w : Word36) : Tag := w.extractLsb' 0 6

/-- A fetched indirect word is a pointer pair's even word exactly when its tag is 0o41 or 0o43 (R133). -/
def isPointerPair (w : Word36) : Bool := wordTag w == 0o41#6 || wordTag w == 0o43#6

/-- The even word of a pointer pair: tag 0o43 is ITS with SEGNO [32:18] and RN [17:15] (R131); tag 0o41 is ITP with PRNUM
[35:33] (R132). -/
def decodePointerPair (w : Word36) : Instr :=
  if wordTag w == 0o43#6 then .itsPair (w.extractLsb' 18 15) (w.extractLsb' 15 3) else .itpPair (w.extractLsb' 33 3)

/-- A word fetched as an indirect word by RI or IR: a pointer pair, or a plain indirect word whose tag is dispatched
(R128, R133). -/
def decodeIndirectWord (w : Word36) : Instr :=
  if isPointerPair w then decodePointerPair w else decodeTag (wordTag w)

/-- The instruction an instruction word asks of the core: its tag's (R120, R121). -/
def decodeInstrWord (w : Word36) : Instr := decodeTag (wordTag w)

/-- Decoding by the position in which the word stands (R126, R133). -/
def decode : Position → Word36 → Instr
  | .tag, w => decodeInstrWord w
  | .indirectWord, w => decodeIndirectWord w

/-- The four fields the core reads of an instruction word: Y [35:18], I [7], A [6], TAG [5:0] (R121). -/
def decodeFields (w : Word36) : InstrFields where
  address := w.extractLsb' 18 18
  tag := wordTag w
  a := w.getLsbD 6
  i := w.getLsbD 7

/-- The instruction the decoder reads from an instruction word given as the number `w` of at most `nbits` bits; bits above
`nbits` are zero. A number that is no single 36-bit word is refused. The tag rows and the pointer-pair rows of the opcode
table share the words 0o41 and 0o43; an instruction word is in tag position, so it is `itp` or `its` (R126, R240). -/
def decodeTableWord (nbits w : Nat) : Option Instr :=
  if w < 2 ^ nbits ∧ w < 2 ^ 36 then some (decodeInstrWord (BitVec.ofNat 36 w)) else none

/-! ### The encoder -/

/-- The word of an instruction, every ignored bit zero: a tag in [5:0] of a word (R121, R128), or a pointer pair's even word
(R131, R132). -/
def encode : Instr → Word36
  | .itsPair segno rn => 0#3 ++ segno ++ rn ++ 0#9 ++ 0o43#6
  | .itpPair prnum => prnum ++ 0#27 ++ 0o41#6
  | instr => 0#30 ++ tagOf instr

/-- An instruction word from the core's four fields and the external decoder's opcode [17:9] and extension [8] (R121). -/
def encodeFields (f : InstrFields) (opcode : BitVec 9) (ext : Bool) : Word36 :=
  f.address ++ opcode ++ BitVec.ofBool ext ++ BitVec.ofBool f.i ++ BitVec.ofBool f.a ++ f.tag

end Sys2Proof
end

