-- ==== Sys2Proof/Machine/State.lean ====
section
/-! DEFINITION. The state of one processor's core (spec 10_state.md), plain data, with the reasons a step can stop, the fault
values the core raises, and the state after reset. -/

namespace Sys2Proof.Machine

/-! ### Faults and refusals (60_exceptions.md) -/

/-- The causes of `IllegalModifier` (R362). -/
inductive IllegalCause where
  /-- du or dl in RI position (R176, R183). -/
  | directAfterRi
  /-- A `Write` resolution that ends in a direct operand (R166). -/
  | directStore
  /-- A character position beyond the size's maximum (R225). -/
  | charPosition
  /-- Tm = IT with Td 1, 2 or 3 dispatched (R240). -/
  | reservedIt
  /-- A pointer pair's even word at an odd address (R256). -/
  | pointerPairOdd
  /-- A pointer pair in BAR mode (R264). -/
  | pointerPairInBar
  /-- An IT tag in an IR chain under `IR_IT_POLICY = Fault` (R185). -/
  | itInIrChain
deriving DecidableEq, Repr

/-- The three fault tags (R363). -/
inductive FaultTag where
  | f1
  | f2
  | f3
deriving DecidableEq, Repr

/-- The access-violation sub-codes in the order of their numbers 0 to 15 (R364). The core raises `iro` to `wOff` and `oosb`;
the others belong to the excluded transfer, call and associative-memory logic (R372). -/
inductive AcvCode where
  | iro | oeb | eOff | orb | rOff | owb | wOff | noGa | ocb | ocall | boc | inret | crt | ralr | ame | oosb
deriving DecidableEq, Repr

/-- The sub-code of `StoreFault` (R367). -/
inductive StoreCause where
  | outOfBounds
deriving DecidableEq, Repr

/-- The fault values of the core, the closed set of R362 to R368 (R361). Every one is TAKEN: the resolution or access ends and
the fault value stands in `State.reply` of a NEXT state, since the spec gives the state after a fault (R360, R371). No step
answers `Host.Outcome.fault` (log entry 4), so none of them stops the machine. -/
inductive Fault where
  /-- Raised by the address modifier on a disallowed tag, position or store (R362). Safe: taken as the spec says. -/
  | illegalModifier (cause : IllegalCause)
  /-- Raised by tags f1, f2, f3 (R363). Safe: taken as the spec says. -/
  | faultTag (n : FaultTag)
  /-- Raised by the appending unit with every failing check, in sub-code order (R364). Safe: taken as the spec says. -/
  | accessViolation (codes : List AcvCode)
  /-- Raised by the appending unit on a descriptor with DF = 0 (R365). Safe: taken as the spec says. -/
  | directedFault (fc : BitVec 2)
  /-- Raised by every physical access at or above MEM_SIZE (R366). Safe: taken as the spec says. -/
  | nonexistentMemory (pa : Word24)
  /-- Raised by BAR relocation (R367). Safe: taken as the spec says. -/
  | storeFault (cause : StoreCause)
  /-- Raised when a finite MAX_INDIRECT_DEPTH is passed (R368). Safe: model-only and present only under that parameter. -/
  | indirectChainLimit
deriving DecidableEq, Repr

/-- Why a step has no next state: the model-only outcomes of R369, which are not hardware behaviour. -/
inductive Refusal where
  /-- An arm of `exec` without a meaning. No arm answers it. Safe: the machine stops. -/
  | notModelled (mnemonic : String)
  /-- Raised by the initial TPR formation: an instruction with the A bit set outside APPENDING mode (R161, R369). Safe: the
  machine stops. -/
  | pointerRegisterOutsideAppending
  /-- Raised by a physical read of an existing word that nothing has written (R369, R401). Safe: the machine stops. -/
  | unwritten (pa : Word24)
deriving DecidableEq, Repr

/-! ### Registers -/

/-- Procedure Pointer Register (R34). -/
structure Ppr where
  prr : Ring
  psr : Segno
  p : Bool
  ic : Word18
deriving DecidableEq, Repr

/-- Temporary Pointer Register (R35). -/
structure Tpr where
  trr : Ring
  tsr : Segno
  tbr : BitVec 6
  ca : Word18
deriving DecidableEq, Repr

/-- Base Address Register (R42). -/
structure Bar where
  base : BitVec 9
  bound : BitVec 9
deriving DecidableEq, Repr

/-- Descriptor Segment Base Register; `u` set means unpaged (R43). -/
structure Dsbr where
  addr : Word24
  bnd : BitVec 14
  u : Bool
  stack : BitVec 12
deriving DecidableEq, Repr

/-- A pointer register (R44). -/
structure PtrReg where
  snr : Segno
  rnr : Ring
  wordno : Word18
  bitno : BitVec 6
deriving DecidableEq, Repr

/-- The processor addressing mode (R40). -/
inductive AddrMode where
  | absolute
  | appending
  | bar
deriving DecidableEq, Repr

/-! ### The associative memories (R45, R46) -/

/-- The SDW fields of an SDWAM entry; `pointer` is the key (R45). -/
structure Sdw where
  pointer : Segno
  addr : Word24
  r1 : Ring
  r2 : Ring
  r3 : Ring
  bound : BitVec 14
  r : Bool
  e : Bool
  w : Bool
  p : Bool
  u : Bool
  g : Bool
  c : Bool
  eb : BitVec 14
deriving DecidableEq, Repr

/-- The PTW fields of a PTWAM entry; the key is `(pointer, pageno)` (R46). PAGENO has 18 - log2 PAGE_SIZE bits, held in 18. -/
structure Ptw where
  pointer : Segno
  pageno : Word18
  addr : Word18
  m : Bool
deriving DecidableEq, Repr

/-- An entry of an associative memory: the full/empty flag F, the usage counter USE and the descriptor (R45, R46). -/
structure AmEntry (α : Type) where
  full : Bool
  use : BitVec 6
  body : α
deriving DecidableEq, Repr

/-- An associative memory of 64 entries (R9, R45, R46). -/
abbrev Am (α : Type) := Vector (AmEntry α) 64

/-! ### Memory (20_memory.md) -/

/-- Physical memory: the words that have been written, by address, strictly rising (R80, R81). An address that is not
listed holds no value: reading it is the outcome `unwritten` (R401, log entry 2). -/
abbrev Memory := List (Nat × Word36)

/-- The access types that reach `translate` (R14, R280). -/
inductive Access where
  | instructionFetch
  | operandRead
  | operandWrite
  | indirectRead
  | indirectWrite
deriving DecidableEq, Repr

/-- The access types that tag an event: the five translated ones and the two descriptor types (R14, R302). -/
inductive AccessType where
  | logical (acc : Access)
  | descriptorRead
  | descriptorWrite
deriving DecidableEq, Repr

/-- A memory event of the core (R83, R84, R104). -/
inductive Event where
  | read (pa : Word24) (w : Word36) (acc : AccessType)
  | write (pa : Word24) (w : Word36) (acc : AccessType)
deriving DecidableEq, Repr

/-! ### The interface to the external collaborators -/

/-- The operation of a resolution (R15). -/
inductive Operation where
  | read
  | write (v : Word36)
  | prepareOnly
deriving DecidableEq, Repr

/-- The two character sizes (R225). -/
inductive CharSize where
  | six
  | nine
deriving DecidableEq, Repr

/-- `Result.kind` (R160). -/
inductive OperandKind where
  | word
  | char (size : CharSize) (cf : BitVec 3)
  | direct
deriving DecidableEq, Repr

/-- The `Result` of a resolution (R160). -/
structure Result where
  ea : Word18
  kind : OperandKind
  operand : Option Word36
deriving DecidableEq, Repr

/-- What the core last handed back to its caller. The model's own field (log entry 5). -/
inductive Reply where
  /-- Nothing yet, or an operation that returns nothing. -/
  | none
  /-- The result of a resolution (R160). -/
  | result (r : Result)
  /-- The words of a `MemRead`, `readPair`, `readN` or instruction fetch (R88, R92, R93, R94). -/
  | words (ws : List Word36)
  /-- A fault value in place of a result (R360). -/
  | fault (f : Fault)
deriving DecidableEq, Repr

/-- An access the executor may ask of the MemoryAccessor. -/
inductive AccessRequest where
  /-- The instruction fetch alone (R92). -/
  | fetch
  /-- `MemRead` (R88). -/
  | memRead (ca : Word18) (acc : Access)
  /-- `MemWrite` (R89). -/
  | memWrite (ca : Word18) (w : Word36) (acc : Access)
  /-- `readPair` (R93). -/
  | readPair (ca : Word18) (acc : Access)
  /-- `readN` (R94). -/
  | readN (ca : Word18) (n : Nat) (acc : Access)
deriving DecidableEq, Repr

/-- A register write by an external collaborator: the last column of R48. -/
inductive RegisterWrite where
  | x (n : BitVec 3) (v : Word18)
  | a (v : Word36)
  | q (v : Word36)
  | ppr (v : Ppr)
  | tpr (v : Tpr)
  | instr (v : InstrFields)
  | tro (v : Bool)
  | addrMode (v : AddrMode)
  | bar (v : Bar)
  | dsbr (v : Dsbr)
  | pr (n : BitVec 3) (v : PtrReg)
deriving DecidableEq, Repr

/-- What an external collaborator may ask of the core, or write, between resolutions (R48, R49). The model's own form of the
core's interface (log entry 5). -/
inductive Request where
  /-- `resolve(op)` on the current instruction fields (R160). -/
  | resolve (op : Operation)
  /-- Fetch the instruction word at PPR.IC, take its fields, and `resolve(op)` (R3, R37, R92, R160). -/
  | execute (op : Operation)
  /-- An access (R88, R89, R92 to R94). -/
  | access (r : AccessRequest)
  /-- A register write (R48). -/
  | register (r : RegisterWrite)
  /-- A collaborator's own write of a physical word, no event of the core (R48, R104). -/
  | loadWord (pa : Word24) (w : Word36)
  /-- `InvalidateSDWAM` (R340). -/
  | invalidateSdwam
  /-- `InvalidatePTWAM` (R340). -/
  | invalidatePtwam
  /-- The reset event (R400). -/
  | reset
deriving DecidableEq, Repr

/-- Where the address modifier stands between two steps (40_address_modifier.md). The model's own field (log entry 6). -/
inductive Phase where
  /-- No resolution is in progress. -/
  | idle
  /-- At `DISPATCH(t)`, or at `IR_LOOP`'s case analysis of `t` when `State.inIr` is set (R162, R181). -/
  | dispatch (t : Tag)
  /-- At `PointerPair(w)`: the even word `w` has been fetched (R255). -/
  | pair (w : Word36)
deriving DecidableEq, Repr

/-! ### The state -/

/-- One processor's core with the shared physical memory (R50, R80), and after them the fields of the model. -/
structure State where
  /-- X0 to X7 (R31). -/
  x : Vector Word18 8
  /-- Accumulator (R32). -/
  a : Word36
  /-- Quotient register (R32). -/
  q : Word36
  ppr : Ppr
  tpr : Tpr
  /-- Current instruction fields (R37). -/
  instr : InstrFields
  /-- CT_HOLD (R38). -/
  ctHold : Designator
  /-- Tally runout indicator (R39). -/
  tro : Bool
  addrMode : AddrMode
  /-- Escalation record (R41). -/
  escSaved : Option AddrMode
  bar : Bar
  dsbr : Dsbr
  /-- PR0 to PR7 (R44). -/
  pr : Vector PtrReg 8
  sdwam : Am Sdw
  ptwam : Am Ptw
  /-- Indirection depth counter (R47). -/
  depth : Nat
  mem : Memory
  /-- The parameters of R9; no step changes them. -/
  config : Config
  /-- The operation of the resolution in progress (R15). -/
  op : Operation
  phase : Phase
  /-- The tag being dispatched was met in an IR chain (R181). -/
  inIr : Bool
  /-- R1 of the SDW that translated the pending pair's even word, 0 where none did (R261, R281). -/
  ringTerm : Ring
  reply : Reply
  /-- The core's memory events, oldest first (R104). -/
  events : List Event
  /-- The collaborators' requests, the next first. -/
  requests : List Request
deriving DecidableEq, Repr

/-! ### Reset (R50, R400, R401) -/

/-- The contents of an associative memory after reset: F = 0 and USE = i in entry i; the body is never read while F = 0
(R45, R46, R400). -/
def amReset {α : Type} (body : α) : Am α := Vector.ofFn fun i => ⟨false, BitVec.ofNat 6 i.val, body⟩

/-- The unspecified fields of an SDWAM entry after reset. DESIGN CHOICE zero (log entry 1). -/
def sdwZero : Sdw := ⟨0, 0, 0, 0, 0, 0, false, false, false, false, false, false, false, 0⟩

/-- The unspecified fields of a PTWAM entry after reset. DESIGN CHOICE zero (log entry 1). -/
def ptwZero : Ptw := ⟨0, 0, 0, false⟩

/-- The machine right after reset: ABSOLUTE mode, no escalation, empty AMs with USE[i] = i, depth 0 (R400), no memory word
holding a value (R401), and every register whose reset value is unspecified at zero (DESIGN CHOICE, log entry 1). -/
def State.reset : State where
  x := Vector.ofFn fun _ => 0
  a := 0
  q := 0
  ppr := ⟨0, 0, false, 0⟩
  tpr := ⟨0, 0, 0, 0⟩
  instr := ⟨0, 0, false, false⟩
  ctHold := 0
  tro := false
  addrMode := .absolute
  escSaved := none
  bar := ⟨0, 0⟩
  dsbr := ⟨0, 0, false, 0⟩
  pr := Vector.ofFn fun _ => ⟨0, 0, 0, 0⟩
  sdwam := amReset sdwZero
  ptwam := amReset ptwZero
  depth := 0
  mem := []
  config := Config.default
  op := .prepareOnly
  phase := .idle
  inIr := false
  ringTerm := 0
  reply := .none
  events := []
  requests := []

end Sys2Proof.Machine
end

