-- ==== Sys2Proof/Machine/Caches.lean ====
section
/-! DEFINITION. The SDW and PTW associative memories: lookup, promotion, replacement and invalidation (spec
43_descriptor_caches.md). -/

namespace Sys2Proof.Machine

/-- `USE_MAX` (R9, R321). -/
def useMax : BitVec 6 := 63#6

/-- The lowest index whose entry satisfies `p`. -/
def amFind {α : Type} (m : Am α) (p : AmEntry α → Bool) : Option (Fin 64) :=
  (List.finRange 64).find? fun i => p (m.get i)

/-- `Promote(AM, i)`: every other counter above entry i's falls by one, and entry i's becomes USE_MAX (R321). -/
def amPromote {α : Type} (m : Am α) (i : Fin 64) : Am α :=
  Vector.ofFn fun k =>
    if k = i then { m.get k with use := useMax }
    else if (m.get i).use < (m.get k).use then { m.get k with use := (m.get k).use - 1#6 }
    else m.get k

/-- `Victim(AM)`: the lowest-index empty entry, otherwise the entry with USE = 0 (R324). Some entry has USE = 0 whenever the
counters are a permutation (R323), so the index 0 for the remaining case is never taken from a reachable state. -/
def amVictim {α : Type} (m : Am α) : Fin 64 :=
  match amFind m fun e => !e.full with
  | some i => i
  | none => (amFind m fun e => e.use == 0#6).getD 0

/-- The victim entry takes the new descriptor with F = 1, and is promoted (R325, R331). -/
def amFill {α : Type} (m : Am α) (body : α) : Fin 64 × Am α :=
  let i := amVictim m
  (i, amPromote (Vector.ofFn fun k => if k = i then ⟨true, (m.get k).use, body⟩ else m.get k) i)

/-- The body of one entry replaced, its F and USE kept. -/
def amModify {α : Type} (m : Am α) (i : Fin 64) (f : α → α) : Am α :=
  Vector.ofFn fun k => if k = i then { m.get k with body := f (m.get k).body } else m.get k

/-- Invalidation: F becomes 0 in every entry, and nothing else changes (R340). -/
def amInvalidate {α : Type} (m : Am α) : Am α := Vector.ofFn fun k => { m.get k with full := false }

/-- An entry describes segment `tsr` (R320). -/
def sdwMatches (tsr : Segno) (e : AmEntry Sdw) : Bool := e.full && e.body.pointer == tsr

/-- An entry describes page `page` of segment `tsr` (R330). -/
def ptwMatches (tsr : Segno) (page : Word18) (e : AmEntry Ptw) : Bool :=
  e.full && e.body.pointer == tsr && e.body.pageno == page

/-- `SDWAMLookup(tsr)` (R320). -/
def sdwamLookup (m : Am Sdw) (tsr : Segno) : Option (Fin 64) := amFind m (sdwMatches tsr)

/-- `PTWAMLookup(tsr, p)` (R330). -/
def ptwamLookup (m : Am Ptw) (tsr : Segno) (page : Word18) : Option (Fin 64) := amFind m (ptwMatches tsr page)

end Sys2Proof.Machine
end

