-- ==== Sys2Proof/Machine/Fields.lean ====
section
/-! DEFINITION. The word formats of spec 30_encoding.md: indirect words, tally words, pointer pairs, descriptors. Slices are
LSB-0 (R11). Ignored bits are not read, and are kept where the core rewrites a word (R139). -/

namespace Sys2Proof.Machine

/-! ### Half words -/

/-- The more significant half of a word, [35:18] (R32, R171). -/
def upperHalf (w : Word36) : Word18 := w.extractLsb' 18 18

/-- The less significant half of a word, [17:0] (R32, R171). -/
def lowerHalf (w : Word36) : Word18 := w.extractLsb' 0 18

/-! ### Indirect and tally words (R128, R129, R130, R222) -/

/-- `Y`, the address field of an indirect or tally word, [35:18] (R128, R129). -/
def wordY (w : Word36) : Word18 := w.extractLsb' 18 18

/-- `TALLY`, [17:6] (R129). -/
def wordTally (w : Word36) : BitVec 12 := w.extractLsb' 6 12

/-- `LOW6`, [5:0]: delta, character fields or continuation tag (R129, R130). -/
def wordLow6 (w : Word36) : BitVec 6 := w.extractLsb' 0 6

/-- `CF`, the character position, [2:0] (R130, R222). -/
def wordCf (w : Word36) : BitVec 3 := w.extractLsb' 0 3

/-- `SZ`, the 3-bit size field, [5:3] (R130, R222). -/
def wordSz (w : Word36) : BitVec 3 := w.extractLsb' 3 3

/-- The character size: `TB` = bit 5, 0 for 6-bit characters and 1 for 9-bit bytes (R130, R225). -/
def wordCharSize (w : Word36) : CharSize := if w.getLsbD 5 then .nine else .six

/-- A tally word from its three fields, `Y ∥ T ∥ L` (R129, R224). -/
def tallyWord (y : Word18) (t : BitVec 12) (l : BitVec 6) : Word36 := y ++ t ++ l

/-! ### The odd word of a pointer pair (R131, R132) -/

/-- `WORDNO`, [35:18]. -/
def pairWordno (w : Word36) : Word18 := w.extractLsb' 18 18

/-- `BITNO`, [14:9]. -/
def pairBitno (w : Word36) : BitVec 6 := w.extractLsb' 9 6

/-- `MOD`, [5:0], a tag dispatched further. -/
def pairMod (w : Word36) : Tag := w.extractLsb' 0 6

/-! ### Descriptors (R134, R135, R288) -/

/-- `DF` of an SDW's word 0 or of a PTW, bit 2: set when the descriptor is valid (R134, R135). -/
def descriptorValid (w : Word36) : Bool := w.getLsbD 2

/-- `FC`, the directed-fault number of an SDW's word 0 or of a PTW, [1:0] (R134, R135). -/
def descriptorFc (w : Word36) : BitVec 2 := w.extractLsb' 0 2

/-- The SDWAM entry of segment `tsr` from the two in-core words (R134, R288). -/
def decodeSdw (tsr : Segno) (w0 w1 : Word36) : Sdw where
  pointer := tsr
  addr := w0.extractLsb' 12 24
  r1 := w0.extractLsb' 9 3
  r2 := w0.extractLsb' 6 3
  r3 := w0.extractLsb' 3 3
  bound := w1.extractLsb' 21 14
  r := w1.getLsbD 20
  e := w1.getLsbD 19
  w := w1.getLsbD 18
  p := w1.getLsbD 17
  u := w1.getLsbD 16
  g := w1.getLsbD 15
  c := w1.getLsbD 14
  eb := w1.extractLsb' 0 14

/-- A valid in-core SDW's word 0 for the fields of an entry, with DF = 1 and FC = 0 (R134). -/
def encodeSdwWord0 (d : Sdw) : Word36 := d.addr ++ d.r1 ++ d.r2 ++ d.r3 ++ 0b100#3

/-- An in-core SDW's word 1 for the fields of an entry, the unused bit 35 zero (R134). -/
def encodeSdwWord1 (d : Sdw) : Word36 :=
  0#1 ++ d.bound ++ BitVec.ofBool d.r ++ BitVec.ofBool d.e ++ BitVec.ofBool d.w ++ BitVec.ofBool d.p ++ BitVec.ofBool d.u ++
    BitVec.ofBool d.g ++ BitVec.ofBool d.c ++ d.eb

/-- `ADDR` of a PTW, [35:18], the 18 high-order bits of the page's address (R135). -/
def ptwAddr (w : Word36) : Word18 := w.extractLsb' 18 18

/-- `U`, the used bit of a PTW, bit 9 (R135). -/
def ptwUsed (w : Word36) : Bool := w.getLsbD 9

/-- `M`, the modified bit of a PTW, bit 6 (R135). -/
def ptwModified (w : Word36) : Bool := w.getLsbD 6

/-- The PTWAM entry of page `page` of segment `tsr` from the in-core PTW (R297, R331). -/
def decodePtw (tsr : Segno) (page : Word18) (w : Word36) : Ptw := ⟨tsr, page, ptwAddr w, ptwModified w⟩

/-- A PTW with its U bit set, every other bit kept (R300). -/
def ptwSetUsed (w : Word36) : Word36 := w ||| 0o1000#36

/-- A PTW with its U and M bits set, every other bit kept (R300). -/
def ptwSetUsedModified (w : Word36) : Word36 := w ||| 0o1100#36

end Sys2Proof.Machine
end

