-- ==== Sys2Proof/Machine/Act.lean ====
section
/-! DEFINITION. The steps of the core as state transformers: an action answers a value with the state it leaves, or stops with
a fault or a refusal and the state at that moment, since the effects before a `raise` remain (spec 00_scope.md R13). -/

namespace Sys2Proof.Machine

/-- Why an action ends early: `raise F` of R12, or a model-only outcome of R369. -/
inductive Stop where
  | fault (f : Fault)
  | refused (r : Refusal)
deriving DecidableEq, Repr

/-- An operation of the core: strictly sequential over the state (R97), stopping at its first `raise` with the state
reached so far (R13, R190, R371). -/
abbrev Act (α : Type) := EStateM Stop State α

/-- `raise F` (R12, R360). -/
def raise {α : Type} (f : Fault) : Act α := fun s => .error (.fault f) s

/-- A model-only outcome (R369). -/
def refuse {α : Type} (r : Refusal) : Act α := fun s => .error (.refused r) s

/-- `if c: raise F`. -/
def raiseIf (c : Bool) (f : Fault) : Act Unit := if c then raise f else pure ()

/-- `x <- v`, an update of the state. -/
def update (f : State → State) : Act Unit := fun s => .ok () (f s)

/-- A value read from the state. -/
def read {α : Type} (f : State → α) : Act α := fun s => .ok (f s) s

end Sys2Proof.Machine
end

