-- ==== Sys2Proof/Machine/Ops.lean ====
section
/-! DEFINITION. The named operations over memory and registers, and taking a fault (spec 20_memory.md R83, R84; 60_exceptions.md
R360 to R371). -/

namespace Sys2Proof.Machine

/-! ### Memory as a list of written words -/

/-- The word at an address, `none` where nothing has been written (R401). -/
def memLookup : Memory → Nat → Option Word36
  | [], _ => none
  | (b, v) :: m, a => if a = b then some v else memLookup m a

/-- Memory with the word at an address replaced, kept in address order (R84). -/
def memStore : Memory → Nat → Word36 → Memory
  | [], a, w => [(a, w)]
  | (b, v) :: m, a, w =>
    if a < b then (a, w) :: (b, v) :: m else if a = b then (a, w) :: m else (b, v) :: memStore m a w

/-- The canonical form of memory: addresses strictly rising, so that equal memories are equal lists. An unlisted address
holds no value, so no entry can equal what it reads as. -/
abbrev Memory.wf (m : Memory) : Prop := (m.map Prod.fst).Pairwise (· < ·)

/-! ### Physical accesses (R83, R84) -/

/-- The state with an event recorded, the newest last (R104). -/
def withEvent (e : Event) (s : State) : State := { s with events := s.events ++ [e] }

/-- The state with a physical word written (R84). -/
def withWord (pa : Word24) (w : Word36) (s : State) : State := { s with mem := memStore s.mem pa.toNat w }

/-- The state with TPR.CA at an address. -/
def withCa (ca : Word18) (s : State) : State := { s with tpr := { s.tpr with ca := ca } }

/-- The state with the address modifier at a phase. -/
def withPhase (p : Phase) (s : State) : State := { s with phase := p }

/-- The state with the tally runout indicator at a value (R39). -/
def withTro (b : Bool) (s : State) : State := { s with tro := b }

/-- The state with one more indirect fetch counted (R163). -/
def counted (s : State) : State := { s with depth := s.depth + 1 }

/-- The state outside any IR chain. -/
def leaveChain (s : State) : State := { s with inIr := false }

/-- The state in an IR chain that holds a designator (R180). -/
def holdDesignator (td : Designator) (s : State) : State := { s with ctHold := td, inIr := true }

/-- Record an event (R104). -/
def recordEvent (e : Event) : Act Unit := update (withEvent e)

/-- The address does not exist: `pa ≥ MEM_SIZE` (R81). -/
def nonexistent (s : State) (pa : Word24) : Bool := decide (s.config.memSize ≤ pa.toNat)

/-- The check of every physical access: `NonexistentMemory(pa)` at or above MEM_SIZE (R83, R84, R366). -/
def checkExists (pa : Word24) : Act Unit := do
  let bad ← read fun s => nonexistent s pa
  raiseIf bad (.nonexistentMemory pa)

/-- The value of an existing word, or the outcome `unwritten` where it has none (R83, R369, R401). -/
def fetchWritten (pa : Word24) : Act Word36 := fun s =>
  match memLookup s.mem pa.toNat with
  | none => .error (.refused (.unwritten pa)) s
  | some w => .ok w s

/-- `PhysRead(pa)` (R83). -/
def physRead (pa : Word24) (acc : AccessType) : Act Word36 := do
  checkExists pa
  let w ← fetchWritten pa
  recordEvent (.read pa w acc)
  return w

/-- `PhysWrite(pa, w)` (R84). -/
def physWrite (pa : Word24) (w : Word36) (acc : AccessType) : Act Unit := do
  checkExists pa
  update (withWord pa w)
  recordEvent (.write pa w acc)

/-! ### The end of a resolution, and taking a fault -/

/-- The end of a resolution or access, with what is handed back to the caller (R168): the mode in force before an escalation
returns and the record is cleared (R263), and the core is at the dispatch boundary. -/
def endWith (r : Reply) (s : State) : State :=
  { s with addrMode := s.escSaved.getD s.addrMode, escSaved := none, reply := r, phase := .idle }

/-- Taking a fault: `raiseFault` aborts the operation in progress at once (R360, R371). Every change made before the raise
stays, the escalation is undone (R263), no Result is produced, and the fault value is what the caller gets. Saving
state, the fault vector and the return from the handler are outside the core (R376, R377); a handler that restarts the
instruction asks for `resolve` again. -/
def takeFault (f : Fault) (s : State) : State := endWith (.fault f) s

/-- What a step answers when an operation has run and `k` goes on from its state: `k`'s answer, the state after its fault is
taken, or the refusal. -/
def andThen (m : Act Unit) (k : State → Host.Outcome State Fault Refusal) (s : State) : Host.Outcome State Fault Refusal :=
  match m s with
  | .ok () t => k t
  | .error (.fault f) t => .next (takeFault f t)
  | .error (.refused r) _ => .refused r

/-- What a step answers when an operation has run: its state, the state after its fault is taken, or the refusal. -/
def complete (m : Act Unit) (s : State) : Host.Outcome State Fault Refusal := andThen m .next s

/-- A resolution's normal end with its Result (R160, R168). -/
def finish (r : Result) : Act Unit := update (endWith (.result r))

/-! ### The fault numbers (R364, R370) -/

/-- The sub-code numbers of an access violation (R364). -/
def acvNumber : AcvCode → Nat
  | .iro => 0
  | .oeb => 1
  | .eOff => 2
  | .orb => 3
  | .rOff => 4
  | .owb => 5
  | .wOff => 6
  | .noGa => 7
  | .ocb => 8
  | .ocall => 9
  | .boc => 10
  | .inret => 11
  | .crt => 12
  | .ralr => 13
  | .ame => 14
  | .oosb => 15

/-- The DPS 8/M fault number of a fault of the core; the model-only chain limit has none (R370). -/
def faultNumber : Fault → Option Nat
  | .storeFault _ => some 1
  | .nonexistentMemory _ => some 1
  | .faultTag .f1 => some 3
  | .illegalModifier _ => some 10
  | .directedFault fc => some (16 + fc.toNat)
  | .accessViolation _ => some 20
  | .faultTag .f2 => some 24
  | .faultTag .f3 => some 25
  | .indirectChainLimit => none

end Sys2Proof.Machine
end

