-- ==== Sys2Proof/Machine/Appending.lean ====
section
/-! DEFINITION. The appending unit (spec 42_appending_unit.md). -/

namespace Sys2Proof.Machine

/-! ### Acquiring the SDW (R282 to R288) -/

/-- The descriptor-segment bound check: `(2·tsr) div 16 > DSBR.BND` (R283). -/
def dsBoundBad (d : Dsbr) (tsr : Segno) : Bool := decide (d.bnd.toNat < 2 * tsr.toNat / 16)

/-- `SDWAddress(tsr)` of an unpaged descriptor segment (R284). -/
def sdwAddressUnpaged (d : Dsbr) (tsr : Segno) : Word24 := BitVec.ofNat 24 (d.addr.toNat + 2 * tsr.toNat)

/-- The address of the descriptor segment's PTW for `tsr` (R285). -/
def dsPtwAddress (c : Config) (d : Dsbr) (tsr : Segno) : Word24 :=
  BitVec.ofNat 24 (d.addr.toNat + 2 * tsr.toNat / c.pageSize)

/-- A page's frame address plus an offset within the page: `(ADDR ∥ 0^6) + off` modulo 2^24 (R285, R299). -/
def frameAddress (addr : Word18) (off : Nat) : Word24 := BitVec.ofNat 24 (addr.toNat * 64 + off)

/-- `SDWAddress(tsr)` of a paged descriptor segment: its PTW is read and not cached (R285, R286). -/
def sdwAddressPaged (tsr : Segno) : Act Word24 := do
  let c ← read (·.config)
  let d ← read (·.dsbr)
  let w ← physRead (dsPtwAddress c d tsr) .descriptorRead
  raiseIf (!descriptorValid w) (.directedFault (descriptorFc w))
  return frameAddress (ptwAddr w) (2 * tsr.toNat % c.pageSize)

/-- `SDWAddress(tsr)` (R284, R285). -/
def sdwAddress (tsr : Segno) : Act Word24 := do
  let d ← read (·.dsbr)
  if d.u then return sdwAddressUnpaged d tsr else sdwAddressPaged tsr

/-- `SDWAMFill(e)` (R325). -/
def sdwamFill (d : Sdw) : Act Unit := update fun s => { s with sdwam := (amFill s.sdwam d).2 }

/-- The two words of a segment's SDW: the bound check, the two descriptor reads and the directed fault (R283, R287,
R288). -/
def readSdw (tsr : Segno) : Act (Word36 × Word36) := do
  let d ← read (·.dsbr)
  raiseIf (dsBoundBad d tsr) (.accessViolation [.oosb])
  let sa ← sdwAddress tsr
  let w0 ← physRead sa .descriptorRead
  let w1 ← physRead (sa + 1#24) .descriptorRead
  raiseIf (!descriptorValid w0) (.directedFault (descriptorFc w0))
  return (w0, w1)

/-- The SDW of a segment that is not in the SDWAM: its words are read, and it is filled in (R282, R288, R325). -/
def fetchSdw (tsr : Segno) : Act Sdw := do
  let p ← readSdw tsr
  sdwamFill (decodeSdw tsr p.1 p.2)
  return decodeSdw tsr p.1 p.2

/-- `SDWAMPromote(i)` (R321, R322). -/
def sdwamPromote (i : Fin 64) : Act Unit := update fun s => { s with sdwam := amPromote s.sdwam i }

/-- `GetSDW(tsr)` (R282): a hit only promotes. -/
def getSdw (tsr : Segno) : Act Sdw := do
  let am ← read (·.sdwam)
  match sdwamLookup am tsr with
  | some i => do
    sdwamPromote i
    return (am.get i).body
  | none => fetchSdw tsr

/-! ### Access control (R289 to R295) -/

/-- A sub-code when its check fails. -/
def codeIf (c : Bool) (v : AcvCode) : List AcvCode := if c then [v] else []

/-- The read checks (R291). -/
def readViolations (d : Sdw) (trr : Ring) : List AcvCode :=
  codeIf (decide (d.r2 < trr)) .orb ++ codeIf (!d.r) .rOff

/-- The execute checks (R292). -/
def executeViolations (d : Sdw) (trr : Ring) : List AcvCode :=
  codeIf (decide (trr < d.r1) || decide (d.r2 < trr)) .oeb ++ codeIf (!d.e) .eOff

/-- The write checks (R293). -/
def writeViolations (d : Sdw) (trr : Ring) : List AcvCode :=
  codeIf (decide (d.r1 < trr)) .owb ++ codeIf (!d.w) .wOff

/-- The ring and permission checks of an access type (R291 to R293). -/
def permissionViolations (d : Sdw) (trr : Ring) : Access → List AcvCode
  | .instructionFetch => executeViolations d trr
  | .operandRead => readViolations d trr
  | .indirectRead => readViolations d trr
  | .operandWrite => writeViolations d trr
  | .indirectWrite => writeViolations d trr

/-- The set `V` of every failing check, in sub-code order: ring order, ring and permission, bound (R289 to R294). -/
def violations (d : Sdw) (trr : Ring) (ca : Word18) (acc : Access) : List AcvCode :=
  codeIf (!(decide (d.r1 ≤ d.r2) && decide (d.r2 ≤ d.r3))) .iro ++ permissionViolations d trr acc ++
    codeIf (decide (d.bound.toNat < ca.toNat / 16)) .oosb

/-- `CheckAccess` (R289, R295). -/
def checkAccess (d : Sdw) (trr : Ring) (ca : Word18) (acc : Access) : Act Unit :=
  raiseIf (!(violations d trr ca acc).isEmpty) (.accessViolation (violations d trr ca acc))

/-! ### Physical address formation (R296 to R300) -/

/-- An unpaged segment: `(sdw.ADDR + ca) mod 2^24` (R296). -/
def unpagedAddress (d : Sdw) (ca : Word18) : Word24 := d.addr + ca.setWidth 24

/-- The page number of an offset (R10, R297). -/
def pageNumber (c : Config) (ca : Word18) : Word18 := BitVec.ofNat 18 (ca.toNat / c.pageSize)

/-- The address of the page's PTW: `(sdw.ADDR + p) mod 2^24` (R298). -/
def ptwAddress (c : Config) (d : Sdw) (ca : Word18) : Word24 := BitVec.ofNat 24 (d.addr.toNat + ca.toNat / c.pageSize)

/-- The access types of the write class (R293, R297). -/
def isWrite : Access → Bool
  | .operandWrite => true
  | .indirectWrite => true
  | _ => false

/-- `PTWAMFill(e)` (R331), answering the entry's index. -/
def ptwamFill (p : Ptw) : Act (Fin 64) := do
  let am ← read (·.ptwam)
  update fun s => { s with ptwam := (amFill am p).2 }
  return (amFill am p).1

/-- Write the fetched PTW back with U set, under `PTW_WRITEBACK` and where U was 0 (R297, R300). -/
def writeBackUsed (pta : Word24) (w : Word36) : Act Unit := do
  let c ← read (·.config)
  if c.ptwWriteback && !ptwUsed w then physWrite pta (ptwSetUsed w) .descriptorWrite else pure ()

/-- The PTW of a page that is not in the PTWAM: one descriptor read, the directed fault, the fill, the write-back of U
(R297, R298, R331). -/
def fetchPtw (tsr : Segno) (page : Word18) (pta : Word24) : Act (Fin 64) := do
  let w ← physRead pta .descriptorRead
  raiseIf (!descriptorValid w) (.directedFault (descriptorFc w))
  let j ← ptwamFill (decodePtw tsr page w)
  writeBackUsed pta w
  return j

/-- `PTWAMPromote(j)` (R321, R330). -/
def ptwamPromote (j : Fin 64) : Act Unit := update fun s => { s with ptwam := amPromote s.ptwam j }

/-- The PTWAM entry of a page: a hit promotes it, a miss fetches it (R297, R330). -/
def getPtw (tsr : Segno) (page : Word18) (pta : Word24) : Act (Fin 64) := do
  let am ← read (·.ptwam)
  match ptwamLookup am tsr page with
  | some j => do
    ptwamPromote j
    return j
  | none => fetchPtw tsr page pta

/-- The in-core PTW at `pta` is an existing word that holds M = 1 (R300). No access of the core is made. -/
def inCoreModified (pta : Word24) (s : State) : Bool :=
  !nonexistent s pta && ((memLookup s.mem pta.toNat).map ptwModified).getD false

/-- The write-back of M: the in-core PTW is read, and written with M and U set (R300). -/
def writeBackModified (pta : Word24) : Act Unit := do
  let w ← physRead pta .descriptorRead
  physWrite pta (ptwSetUsedModified w) .descriptorWrite

/-- `MarkModified(j, pta)`: the entry's M is set; and under `PTW_WRITEBACK` the in-core PTW is written back unless its own M is 1,
whatever the entry's M was (R300). That a PTW with M = 1 costs no access, and that one that does not exist or has no value is
visited, is DEDUCED (log entry 8). -/
def markModified (j : Fin 64) (pta : Word24) : Act Unit := do
  update fun s => { s with ptwam := amModify s.ptwam j fun p => { p with m := true } }
  let s ← get
  if s.config.ptwWriteback && !inCoreModified pta s then writeBackModified pta else pure ()

/-- A write access marks its page as modified (R297, R300, R332). -/
def markIfWrite (acc : Access) (j : Fin 64) (pta : Word24) : Act Unit :=
  if isWrite acc then markModified j pta else pure ()

/-- `PagedAddress` (R297, R299). -/
def pagedAddress (d : Sdw) (tsr : Segno) (ca : Word18) (acc : Access) : Act Word24 := do
  let c ← read (·.config)
  let pta := ptwAddress c d ca
  let j ← getPtw tsr (pageNumber c ca) pta
  markIfWrite acc j pta
  let am ← read (·.ptwam)
  return frameAddress (am.get j).body.addr (ca.toNat % c.pageSize)

/-- `translate(trr, tsr, ca, at)`: the physical address and the SDW that translated it (R280, R281). -/
def translate (trr : Ring) (tsr : Segno) (ca : Word18) (acc : Access) : Act (Word24 × Sdw) := do
  let d ← getSdw tsr
  checkAccess d trr ca acc
  if d.u then return (unpagedAddress d ca, d)
  else do
    let pa ← pagedAddress d tsr ca acc
    return (pa, d)

end Sys2Proof.Machine
end

