-- ==== Sys2Proof/Machine/Accessor.lean ====
section
/-! DEFINITION. The MemoryAccessor: the three addressing modes (spec 20_memory.md R88 to R94). -/

namespace Sys2Proof.Machine

/-- The BAR bound is exceeded: `ca[17:9] ≥ BAR.BOUND` (R90). -/
def barBad (b : Bar) (ca : Word18) : Bool := decide (b.bound ≤ ca.extractLsb' 9 9)

/-- The relocated address: `zext_24((ca + (BAR.BASE ∥ 0^9)) mod 2^18)` (R90). -/
def barAddress (b : Bar) (ca : Word18) : Word24 := (ca + (b.base ++ 0#9)).setWidth 24

/-- `BarRelocate(ca)` (R90). -/
def barRelocate (ca : Word18) : Act Word24 := do
  let b ← read (·.bar)
  raiseIf (barBad b ca) (.storeFault .outOfBounds)
  return barAddress b ca

/-- The physical address of a computed address in the mode, ring and segment of the moment, and the SDW that translated it
in APPENDING mode (R88, R91, R281). -/
def formAddress (ca : Word18) (acc : Access) : Act (Word24 × Option Sdw) := do
  let s ← get
  match s.addrMode with
  | .absolute => return (ca.setWidth 24, none)
  | .appending => do
    let r ← translate s.tpr.trr s.tpr.tsr ca acc
    return (r.1, some r.2)
  | .bar => do
    let pa ← barRelocate ca
    return (pa, none)

/-- `MemRead(ca, at)`, with the SDW that translated the access (R88, R281). -/
def memRead (ca : Word18) (acc : Access) : Act (Word36 × Option Sdw) := do
  let r ← formAddress ca acc
  let w ← physRead r.1 (.logical acc)
  return (w, r.2)

/-- `MemWrite(ca, w, at)` (R89). -/
def memWrite (ca : Word18) (w : Word36) (acc : Access) : Act Unit := do
  let r ← formAddress ca acc
  physWrite r.1 w (.logical acc)

/-- `readPair(ca, at)`: the even word first (R93). -/
def readPair (ca : Word18) (acc : Access) : Act (Word36 × Word36) := do
  let even ← memRead (ca &&& ~~~1#18) acc
  let odd ← memRead (ca ||| 1#18) acc
  return (even.1, odd.1)

/-- `readN(ca, n, at)`: n words at increasing addresses modulo 2^18 (R94). -/
def readN (ca : Word18) (acc : Access) : Nat → Act (List Word36)
  | 0 => return []
  | n + 1 => do
    let w ← memRead ca acc
    let ws ← readN (ca + 1#18) acc n
    return w.1 :: ws

end Sys2Proof.Machine
end

