-- ==== Sys2Proof/Machine/Flags.lean ====
section
/-! DEFINITION. Tally arithmetic and the one indicator the core writes (spec 41_indirect_tally.md R223, 10_state.md R39). -/

namespace Sys2Proof.Machine

/-- `dec(T) = (T - 1) mod 4096` (R223). -/
def tallyDec (t : BitVec 12) : BitVec 12 := t - 1#12

/-- `inc(T) = (T + 1) mod 4096` (R223). -/
def tallyInc (t : BitVec 12) : BitVec 12 := t + 1#12

/-- The tally-runout indicator after an update to `t`: set exactly when the new tally is 0 (R223). -/
def tallyRunout (t : BitVec 12) : Bool := t == 0#12

/-- TRO in the 18-bit indicator field of the store-indicators word, mask 0o002000; the core writes no other indicator
(R39). -/
def troIndicator (tro : Bool) : Word18 := if tro then 0o002000#18 else 0#18

end Sys2Proof.Machine
end

