-- ==== Sys2Proof/Machine/Operands.lean ====
section
/-! DEFINITION. Operand forms: register designators (spec 40_address_modifier.md R169 to R174), direct operands (R137),
characters (41_indirect_tally.md R225, R226) and continuation tags (R241). -/

namespace Sys2Proof.Machine

/-- Index register X[n] (R31). -/
def getX (s : State) (n : BitVec 3) : Word18 := s.x.get n.toFin

/-- Pointer register PR[n] (R44). -/
def getPr (s : State) (n : BitVec 3) : PtrReg := s.pr.get n.toFin

/-- `RegValue(td)`: the designator's value, and whether it is a direct operand (R169 to R174). -/
def regValue (td : Designator) (s : State) : Word18 × Bool :=
  match td.toNat with
  | 0 => (0#18, false)
  | 1 => (upperHalf s.a, false)
  | 2 => (upperHalf s.q, false)
  | 3 => (0#18, true)
  | 4 => (s.ppr.ic, false)
  | 5 => (lowerHalf s.a, false)
  | 6 => (lowerHalf s.q, false)
  | 7 => (0#18, true)
  | _ => (getX s (td.extractLsb' 0 3), false)

/-- The designators du and dl (R172). -/
def isDirect (td : Designator) : Bool := td == 3#4 || td == 7#4

/-- The operand word of a direct operand: the address in the upper half for du, in the lower half for dl (R137, R166). -/
def directWord (td : Designator) (ca : Word18) : Word36 := if td == 3#4 then ca ++ 0#18 else 0#18 ++ ca

/-- `N`, how many characters of a size a word holds (R225). -/
def charCount : CharSize → Nat
  | .six => 6
  | .nine => 4

/-- The least significant bit of the character at position `k`, position 0 most significant (R85, R226). -/
def charShift : CharSize → Nat → Nat
  | .six, k => 30 - 6 * k
  | .nine, k => 27 - 9 * k

/-- The mask of a right-justified character of a size (R226). -/
def charMask : CharSize → Word36
  | .six => 0o77#36
  | .nine => 0o777#36

/-- `zext_36(charAt(w, s, k))` (R226). -/
def charAt (w : Word36) (sz : CharSize) (k : Nat) : Word36 := (w >>> charShift sz k) &&& charMask sz

/-- `w` with the character at position `k` replaced by the low bits of `v`, every other bit kept (R226). -/
def charInsert (w : Word36) (sz : CharSize) (k : Nat) (v : Word36) : Word36 :=
  (w &&& ~~~(charMask sz <<< charShift sz k)) ||| ((v &&& charMask sz) <<< charShift sz k)

/-- The position is beyond the size's maximum (R225). -/
def charPositionBad (sz : CharSize) (cf : BitVec 3) : Bool := decide (charCount sz ≤ cf.toNat)

/-- The address and position after SC's character: the next position, with a carry into the address (R228). -/
def charNext (sz : CharSize) (y : Word18) (cf : BitVec 3) : Word18 × BitVec 3 :=
  if cf.toNat + 1 = charCount sz then (y + 1#18, 0#3) else (y, cf + 1#3)

/-- The address and position of SCR's character: the position before, with a borrow from the address (R229). -/
def charPrev (sz : CharSize) (y : Word18) (cf : BitVec 3) : Word18 × BitVec 3 :=
  if cf = 0#3 then (y - 1#18, BitVec.ofNat 3 (charCount sz - 1)) else (y, cf - 1#3)

/-- `Continue(ct)`: a register designator in a DIC or IDC continuation tag is forced to none, an IT designator is kept
(R241). -/
def continueTag (ct : Tag) : Tag := if ct.extractLsb' 4 2 = 2#2 then ct else ct.extractLsb' 4 2 ++ 0#4

end Sys2Proof.Machine
end

