-- ==== Sys2Proof/Machine/Modifier.lean ====
section
/-! DEFINITION. The shared machinery of the address modifier (spec 40_address_modifier.md R160 to R168, 41_indirect_tally.md
R221 to R226). A resolution is a run of steps: an operation of this file ends it (`endWith`), or leaves in `State.phase`
the tag or pointer pair that the next step dispatches (R162, R420). -/

namespace Sys2Proof.Machine

/-! ### TPR and the next dispatch -/

/-- `TPR.CA <- ca`. -/
def setCa (ca : Word18) : Act Unit := update (withCa ca)

/-- `goto DISPATCH(t)`, or `IR_LOOP`'s case analysis of `t` in an IR chain (R162, R181). -/
def gotoDispatch (t : Tag) : Act Unit := update (withPhase (.dispatch t))

/-! ### Indirect words (R163, R164) -/

/-- The chain is deeper than MAX_INDIRECT_DEPTH (R163). -/
def depthBad (c : Config) (depth : Nat) : Bool :=
  match c.maxIndirectDepth with
  | none => false
  | some m => decide (m < depth)

/-- `CountIndirect()` (R163). -/
def countIndirect : Act Unit := do
  update counted
  let bad ← read fun s => depthBad s.config s.depth
  raiseIf bad .indirectChainLimit

/-- R1 of the SDW that translated the even word's read, 0 where none did (R261). -/
def ringTermOf (sdw : Option Sdw) : Ring :=
  match sdw with
  | none => 0#3
  | some d => d.r1

/-- What a fetched indirect word leads to: its pointer pair, or its address and tag (R133, R164). -/
def acceptIndirect (w : Word36) (sdw : Option Sdw) : Act Unit :=
  if isPointerPair w then update fun s => { withPhase (.pair w) s with ringTerm := ringTermOf sdw }
  else do
    setCa (wordY w)
    gotoDispatch (wordTag w)

/-- `IndirectFetch()` (R164). -/
def indirectFetch : Act Unit := do
  countIndirect
  let ca ← read (·.tpr.ca)
  let r ← memRead ca .indirectRead
  acceptIndirect r.1 r.2

/-! ### Tally words (R221, R224) -/

/-- `TallyFetch()`: the address of the tally word and the word (R221). -/
def tallyFetch : Act (Word18 × Word36) := do
  countIndirect
  let taddr ← read (·.tpr.ca)
  let r ← memRead taddr .indirectRead
  return (taddr, r.1)

/-- `TallyRewrite(taddr, Y', T', L')`: the word is written back, then TRO (R223, R224). -/
def tallyRewrite (taddr : Word18) (y : Word18) (t : BitVec 12) (l : BitVec 6) : Act Unit := do
  memWrite taddr (tallyWord y t l) .indirectWrite
  update (withTro (tallyRunout t))

/-! ### The terminal states (R166, R167, R226) -/

/-- `FINAL_WORD` (R167). -/
def finalWord : Act Unit := do
  let ca ← read (·.tpr.ca)
  let op ← read (·.op)
  match op with
  | .read => do
    let r ← memRead ca .operandRead
    finish ⟨ca, .word, some r.1⟩
  | .write v => do
    memWrite ca v .operandWrite
    finish ⟨ca, .word, none⟩
  | .prepareOnly => finish ⟨ca, .word, none⟩

/-- `FINAL_CHAR(size, cf)` (R226). -/
def finalChar (sz : CharSize) (cf : BitVec 3) : Act Unit := do
  let ca ← read (·.tpr.ca)
  let op ← read (·.op)
  match op with
  | .read => do
    let r ← memRead ca .operandRead
    finish ⟨ca, .char sz cf, some (charAt r.1 sz cf.toNat)⟩
  | .write v => do
    let r ← memRead ca .operandRead
    memWrite ca (charInsert r.1 sz cf.toNat v) .operandWrite
    finish ⟨ca, .char sz cf, none⟩
  | .prepareOnly => finish ⟨ca, .char sz cf, none⟩

/-- `DIRECT(td)`: no memory access; a `Write` faults (R166). -/
def directOperand (td : Designator) : Act Unit := do
  let ca ← read (·.tpr.ca)
  let op ← read (·.op)
  match op with
  | .write _ => raise (.illegalModifier .directStore)
  | _ => finish ⟨ca, .direct, some (directWord td ca)⟩

/-! ### The beginning of a resolution (R160, R161) -/

/-- TPR's ring and segment from PPR, for an instruction fetch (R92). -/
def aimAtProcedure (s : State) : State := { s with tpr := { s.tpr with trr := s.ppr.prr, tsr := s.ppr.psr } }

/-- TPR from PPR and the address field, for A = 0 (R161). -/
def tprFromPpr (s : State) : Tpr := ⟨s.ppr.prr, s.ppr.psr, 0#6, s.instr.address⟩

/-- The larger of two rings (R12, R161, R258). -/
def ringMax (r t : Ring) : Ring := if r < t then t else r

/-- TPR from the pointer register the address field names, for A = 1: `PRNUM = Y[17:15]`, `OFFSET = Y[14:0]` sign-extended
(R127, R161). -/
def tprFromPr (s : State) : Tpr :=
  let p := getPr s (s.instr.address.extractLsb' 15 3)
  ⟨ringMax p.rnr s.ppr.prr, p.snr, p.bitno, p.wordno + (s.instr.address.extractLsb' 0 15).signExtend 18⟩

/-- `FormInitialTPR()` (R161). -/
def formInitialTpr : Act Unit := do
  let s ← get
  if s.instr.a then
    if s.addrMode = .appending then update fun s => { s with tpr := tprFromPr s }
    else refuse .pointerRegisterOutsideAppending
  else update fun s => { s with tpr := tprFromPpr s }

/-- A resolution starts at depth 0, outside any IR chain (R160). -/
def enterResolution (op : Operation) (s : State) : State := { s with depth := 0, inIr := false, op := op }

/-- The entry of `resolve(op)`: depth 0, the initial TPR, and the dispatch of the instruction's tag (R160). -/
def beginResolution (op : Operation) : Act Unit := do
  update (enterResolution op)
  formInitialTpr
  let t ← read (·.instr.tag)
  gotoDispatch t

/-! ### Instruction fetch (R92) -/

/-- The executor's fetch of the instruction word: TPR's ring and segment from PPR, then `MemRead(PPR.IC)` (R92). -/
def fetchInstruction : Act Word36 := do
  update aimAtProcedure
  let ic ← read (·.ppr.ic)
  let r ← memRead ic .instructionFetch
  return r.1

/-- Fetch, decode of the four fields (R37, R121), and the entry of `resolve(op)` (R3). -/
def beginExecution (op : Operation) : Act Unit := do
  let w ← fetchInstruction
  update fun s => { s with instr := decodeFields w }
  beginResolution op

end Sys2Proof.Machine
end

