-- ==== Sys2Proof/Machine/IndirectRegister.lean ====
section
/-! DEFINITION. Indirect-then-register modification, Tm = IR, tags 0o60 to 0o77 (spec 40_address_modifier.md R180 to R184). -/

namespace Sys2Proof.Machine

/-- `IR_MOD(td)`, also inside an IR chain: CT_HOLD takes the designator, and `IR_LOOP` fetches the indirect word whose tag is
dispatched next inside the chain (R180, R181, R184). -/
def indirectRegisterTag (td : Designator) : Act Unit := do
  update (holdDesignator td)
  indirectFetch

/-- `*n`, tag 0o60 (R180, R170). -/
def execStarN (s : State) : Host.Outcome State Fault Refusal := complete (indirectRegisterTag 0#4) s

/-- `*au`, tag 0o61 (R180, R171). -/
def execStarAu (s : State) : Host.Outcome State Fault Refusal := complete (indirectRegisterTag 1#4) s

/-- `*qu`, tag 0o62 (R180, R171). -/
def execStarQu (s : State) : Host.Outcome State Fault Refusal := complete (indirectRegisterTag 2#4) s

/-- `*du`, tag 0o63 (R180, R172). -/
def execStarDu (s : State) : Host.Outcome State Fault Refusal := complete (indirectRegisterTag 3#4) s

/-- `*ic`, tag 0o64 (R180, R173). -/
def execStarIc (s : State) : Host.Outcome State Fault Refusal := complete (indirectRegisterTag 4#4) s

/-- `*al`, tag 0o65 (R180, R171). -/
def execStarAl (s : State) : Host.Outcome State Fault Refusal := complete (indirectRegisterTag 5#4) s

/-- `*ql`, tag 0o66 (R180, R171). -/
def execStarQl (s : State) : Host.Outcome State Fault Refusal := complete (indirectRegisterTag 6#4) s

/-- `*dl`, tag 0o67 (R180, R172). -/
def execStarDl (s : State) : Host.Outcome State Fault Refusal := complete (indirectRegisterTag 7#4) s

/-- `*x0`, tag 0o70 (R180, R174). -/
def execStarX0 (s : State) : Host.Outcome State Fault Refusal := complete (indirectRegisterTag 8#4) s

/-- `*x1`, tag 0o71 (R180, R174). -/
def execStarX1 (s : State) : Host.Outcome State Fault Refusal := complete (indirectRegisterTag 9#4) s

/-- `*x2`, tag 0o72 (R180, R174). -/
def execStarX2 (s : State) : Host.Outcome State Fault Refusal := complete (indirectRegisterTag 10#4) s

/-- `*x3`, tag 0o73 (R180, R174). -/
def execStarX3 (s : State) : Host.Outcome State Fault Refusal := complete (indirectRegisterTag 11#4) s

/-- `*x4`, tag 0o74 (R180, R174). -/
def execStarX4 (s : State) : Host.Outcome State Fault Refusal := complete (indirectRegisterTag 12#4) s

/-- `*x5`, tag 0o75 (R180, R174). -/
def execStarX5 (s : State) : Host.Outcome State Fault Refusal := complete (indirectRegisterTag 13#4) s

/-- `*x6`, tag 0o76 (R180, R174). -/
def execStarX6 (s : State) : Host.Outcome State Fault Refusal := complete (indirectRegisterTag 14#4) s

/-- `*x7`, tag 0o77 (R180, R174). -/
def execStarX7 (s : State) : Host.Outcome State Fault Refusal := complete (indirectRegisterTag 15#4) s

end Sys2Proof.Machine
end

