-- ==== Sys2Proof/Machine/IndirectTally.lean ====
section
/-! DEFINITION. Indirect-tally modification, Tm = IT, tags 0o40 to 0o57 (spec 41_indirect_tally.md R220 to R242). -/

namespace Sys2Proof.Machine

/-! ### Shared operations -/

/-- An IT tag dispatched: inside an IR chain `IR_IT_POLICY` decides, and performing it leaves the chain and discards
CT_HOLD; outside a chain the modification is performed (R162, R185, R220). -/
def tallyTag (body : Act Unit) : Act Unit := do
  let s ← get
  raiseIf (s.inIr && s.config.irItPolicy == .fault) (.illegalModifier .itInIrChain)
  update leaveChain
  body

/-- The update of a tally word by an address change `fy` and a tally change `ft`, its low six bits kept; answers the
word as it was read (R224, R230 to R236). -/
def tallyStep (fy : Word36 → Word18) (ft : BitVec 12 → BitVec 12) : Act Word36 := do
  let tw ← tallyFetch
  tallyRewrite tw.1 (fy tw.2) (ft (wordTally tw.2)) (wordLow6 tw.2)
  return tw.2

/-- The terminal word access at an address (R167). -/
def finalWordAt (ca : Word18) : Act Unit := do
  setCa ca
  finalWord

/-- The terminal character access at an address (R226). -/
def finalCharAt (ca : Word18) (sz : CharSize) (cf : BitVec 3) : Act Unit := do
  setCa ca
  finalChar sz cf

/-- Further modification from an address, by a tally word's continuation tag (R241). -/
def continueAt (ca : Word18) (ct : BitVec 6) : Act Unit := do
  setCa ca
  gotoDispatch (continueTag ct)

/-- `CharPosition` beyond the size's maximum, checked before any write (R225). -/
def checkCharPosition (w : Word36) : Act Unit :=
  raiseIf (charPositionBad (wordCharSize w) (wordCf w)) (.illegalModifier .charPosition)

/-- The address AD leaves in its tally word: `(Y + DELTA) mod 2^18` (R230). -/
def addDelta (w : Word36) : Word18 := wordY w + (wordLow6 w).setWidth 18

/-- The address SD leaves in its tally word: `(Y - DELTA) mod 2^18` (R231). -/
def subDelta (w : Word36) : Word18 := wordY w - (wordLow6 w).setWidth 18

/-- The address ID and IDC leave in their tally word: `(Y + 1) mod 2^18` (R233, R234). -/
def incAddress (w : Word36) : Word18 := wordY w + 1#18

/-- The address DI and DIC leave in their tally word: `(Y - 1) mod 2^18` (R232, R236). -/
def decAddress (w : Word36) : Word18 := wordY w - 1#18

/-! ### The variants -/

/-- `IT_CI`: the character the word names, no tally, no rewrite (R227). -/
def characterIndirect : Act Unit := do
  let tw ← tallyFetch
  checkCharPosition tw.2
  finalCharAt (wordY tw.2) (wordCharSize tw.2) (wordCf tw.2)

/-- `IT_SC`: the character named, after the word is advanced to the next one (R228). -/
def sequenceCharacter : Act Unit := do
  let tw ← tallyFetch
  checkCharPosition tw.2
  let next := charNext (wordCharSize tw.2) (wordY tw.2) (wordCf tw.2)
  tallyRewrite tw.1 next.1 (tallyDec (wordTally tw.2)) (wordSz tw.2 ++ next.2)
  finalCharAt (wordY tw.2) (wordCharSize tw.2) (wordCf tw.2)

/-- `IT_SCR`: the character before the one named, to which the word is moved back (R229). -/
def sequenceCharacterReverse : Act Unit := do
  let tw ← tallyFetch
  checkCharPosition tw.2
  let prev := charPrev (wordCharSize tw.2) (wordY tw.2) (wordCf tw.2)
  tallyRewrite tw.1 prev.1 (tallyInc (wordTally tw.2)) (wordSz tw.2 ++ prev.2)
  finalCharAt prev.1 (wordCharSize tw.2) prev.2

/-- `IT_AD` (R230): the delta is added after the address is used. -/
def addDeltaTally : Act Unit := do
  let w ← tallyStep addDelta tallyDec
  finalWordAt (wordY w)

/-- `IT_SD` (R231): the delta is subtracted before the address is used. -/
def subtractDeltaTally : Act Unit := do
  let w ← tallyStep subDelta tallyInc
  finalWordAt (subDelta w)

/-- `IT_DI` (R232). -/
def decrementIncrement : Act Unit := do
  let w ← tallyStep decAddress tallyInc
  finalWordAt (decAddress w)

/-- `IT_ID` (R233). -/
def incrementDecrement : Act Unit := do
  let w ← tallyStep incAddress tallyDec
  finalWordAt (wordY w)

/-- `IT_DIC` (R236): the continued modification starts at the decremented address. -/
def decrementIncrementContinue : Act Unit := do
  let w ← tallyStep decAddress tallyInc
  continueAt (decAddress w) (wordLow6 w)

/-- `IT_IDC` (R234): the continued modification starts at the address before the increment. -/
def incrementDecrementContinue : Act Unit := do
  let w ← tallyStep incAddress tallyDec
  continueAt (wordY w) (wordLow6 w)

/-- `IT_I`: the word's address, its tag not interpreted, no tally, no rewrite (R235). -/
def plainIndirect : Act Unit := do
  let tw ← tallyFetch
  finalWordAt (wordY tw.2)

/-! ### The instructions -/

/-- `f1`, tag 0o40 (R237). -/
def execF1 (s : State) : Host.Outcome State Fault Refusal := complete (tallyTag (raise (.faultTag .f1))) s

/-- `itp`, tag 0o41 dispatched as a tag: reserved (R240). -/
def execItp (s : State) : Host.Outcome State Fault Refusal := complete (tallyTag (raise (.illegalModifier .reservedIt))) s

/-- `it_reserved_42`, tag 0o42: reserved (R240). -/
def execItReserved42 (s : State) : Host.Outcome State Fault Refusal := complete (tallyTag (raise (.illegalModifier .reservedIt))) s

/-- `its`, tag 0o43 dispatched as a tag: reserved (R240). -/
def execIts (s : State) : Host.Outcome State Fault Refusal := complete (tallyTag (raise (.illegalModifier .reservedIt))) s

/-- `sd`, tag 0o44 (R231). -/
def execSd (s : State) : Host.Outcome State Fault Refusal := complete (tallyTag subtractDeltaTally) s

/-- `scr`, tag 0o45 (R229). -/
def execScr (s : State) : Host.Outcome State Fault Refusal := complete (tallyTag sequenceCharacterReverse) s

/-- `f2`, tag 0o46 (R238). -/
def execF2 (s : State) : Host.Outcome State Fault Refusal := complete (tallyTag (raise (.faultTag .f2))) s

/-- `f3`, tag 0o47 (R239). -/
def execF3 (s : State) : Host.Outcome State Fault Refusal := complete (tallyTag (raise (.faultTag .f3))) s

/-- `ci`, tag 0o50 (R227). -/
def execCi (s : State) : Host.Outcome State Fault Refusal := complete (tallyTag characterIndirect) s

/-- `i`, tag 0o51 (R235). -/
def execI (s : State) : Host.Outcome State Fault Refusal := complete (tallyTag plainIndirect) s

/-- `sc`, tag 0o52 (R228). -/
def execSc (s : State) : Host.Outcome State Fault Refusal := complete (tallyTag sequenceCharacter) s

/-- `ad`, tag 0o53 (R230). -/
def execAd (s : State) : Host.Outcome State Fault Refusal := complete (tallyTag addDeltaTally) s

/-- `di`, tag 0o54 (R232). -/
def execDi (s : State) : Host.Outcome State Fault Refusal := complete (tallyTag decrementIncrement) s

/-- `dic`, tag 0o55 (R236). -/
def execDic (s : State) : Host.Outcome State Fault Refusal := complete (tallyTag decrementIncrementContinue) s

/-- `id`, tag 0o56 (R233). -/
def execId (s : State) : Host.Outcome State Fault Refusal := complete (tallyTag incrementDecrement) s

/-- `idc`, tag 0o57 (R234). -/
def execIdc (s : State) : Host.Outcome State Fault Refusal := complete (tallyTag incrementDecrementContinue) s

end Sys2Proof.Machine
end

