-- ==== Sys2Proof/Machine/PointerPair.lean ====
section
/-! DEFINITION. Pointer pairs: ITS and ITP (spec 41_indirect_tally.md R255 to R264). -/

namespace Sys2Proof.Machine

/-- `Escalate()`: in ABSOLUTE mode the mode becomes APPENDING, and the mode before is recorded unless the escalation is
sticky or a record stands (R262). -/
def escalate (s : State) : State :=
  { s with
    addrMode := if s.addrMode = .absolute then .appending else s.addrMode
    escSaved :=
      if s.addrMode = .absolute ∧ s.config.itsEscalationSticky = false ∧ s.escSaved = none then some .absolute
      else s.escSaved }

/-- TPR after an ITS pair (R258). -/
def itsTpr (segno : Segno) (rn r1 : Ring) (odd : Word36) (t : Tpr) : Tpr where
  tsr := segno
  trr := ringMax (ringMax rn r1) t.trr
  tbr := pairBitno odd
  ca := pairWordno odd

/-- TPR after an ITP pair (R259). -/
def itpTpr (p : PtrReg) (r1 : Ring) (odd : Word36) (t : Tpr) : Tpr where
  tsr := p.snr
  trr := ringMax (ringMax p.rnr r1) t.trr
  tbr := pairBitno odd
  ca := p.wordno + pairWordno odd

/-- The odd word of the pair at TPR.CA: the BAR check, the alignment check, and the read before TPR is changed (R255 to R257,
R264). -/
def pairOddWord : Act Word36 := do
  let s ← get
  raiseIf (s.addrMode == .bar) (.illegalModifier .pointerPairInBar)
  raiseIf (s.tpr.ca.getLsbD 0) (.illegalModifier .pointerPairOdd)
  let r ← memRead (s.tpr.ca + 1#18) .indirectRead
  return r.1

/-- `PointerPair`: the odd word, the new TPR, the escalation, and the dispatch of MOD in the context in which the pair was
met (R255, R260). -/
def pointerPair (newTpr : Word36 → State → Tpr) : Act Unit := do
  let odd ← pairOddWord
  update fun s => escalate { s with tpr := newTpr odd s }
  gotoDispatch (pairMod odd)

/-- `its_pair`: even-word tag 0o43 (R131, R255, R258). -/
def execItsPair (segno : Segno) (rn : Ring) (s : State) : Host.Outcome State Fault Refusal :=
  complete (pointerPair fun odd t => itsTpr segno rn t.ringTerm odd t.tpr) s

/-- `itp_pair`: even-word tag 0o41 (R132, R255, R259). -/
def execItpPair (prnum : BitVec 3) (s : State) : Host.Outcome State Fault Refusal :=
  complete (pointerPair fun odd t => itpTpr (getPr t prnum) t.ringTerm odd t.tpr) s

end Sys2Proof.Machine
end

