-- ==== Sys2Proof/Machine/Register.lean ====
section
/-! DEFINITION. Register modification, Tm = R, tags 0o00 to 0o17 (spec 40_address_modifier.md R165, R166, R182, R186). -/

namespace Sys2Proof.Machine

/-- `R_MOD(td)` at a designator: a direct operand short-circuits memory, any other is added to TPR.CA and ends the
resolution in the word there (R165, R166). -/
def registerMod (td : Designator) : Act Unit := do
  let v ← read (regValue td)
  if v.2 then directOperand td
  else do
    let ca ← read (·.tpr.ca)
    setCa (ca + v.1)
    finalWord

/-- The designator an R tag applies: its own, or CT_HOLD where the tag ends an IR chain (R165, R182). -/
def appliedDesignator (td : Designator) (s : State) : Designator := if s.inIr then s.ctHold else td

/-- An R tag dispatched, in or outside an IR chain (R165, R182, R186). -/
def registerTag (td : Designator) : Act Unit := do
  let d ← read (appliedDesignator td)
  registerMod d

/-- `n`, tag 0o00 (R165, R170). -/
def execN (s : State) : Host.Outcome State Fault Refusal := complete (registerTag 0#4) s

/-- `au`, tag 0o01 (R165, R171). -/
def execAu (s : State) : Host.Outcome State Fault Refusal := complete (registerTag 1#4) s

/-- `qu`, tag 0o02 (R165, R171). -/
def execQu (s : State) : Host.Outcome State Fault Refusal := complete (registerTag 2#4) s

/-- `du`, tag 0o03 (R165, R172, R166). -/
def execDu (s : State) : Host.Outcome State Fault Refusal := complete (registerTag 3#4) s

/-- `ic`, tag 0o04 (R165, R173). -/
def execIc (s : State) : Host.Outcome State Fault Refusal := complete (registerTag 4#4) s

/-- `al`, tag 0o05 (R165, R171). -/
def execAl (s : State) : Host.Outcome State Fault Refusal := complete (registerTag 5#4) s

/-- `ql`, tag 0o06 (R165, R171). -/
def execQl (s : State) : Host.Outcome State Fault Refusal := complete (registerTag 6#4) s

/-- `dl`, tag 0o07 (R165, R172, R166). -/
def execDl (s : State) : Host.Outcome State Fault Refusal := complete (registerTag 7#4) s

/-- `x0`, tag 0o10 (R165, R174). -/
def execX0 (s : State) : Host.Outcome State Fault Refusal := complete (registerTag 8#4) s

/-- `x1`, tag 0o11 (R165, R174). -/
def execX1 (s : State) : Host.Outcome State Fault Refusal := complete (registerTag 9#4) s

/-- `x2`, tag 0o12 (R165, R174). -/
def execX2 (s : State) : Host.Outcome State Fault Refusal := complete (registerTag 10#4) s

/-- `x3`, tag 0o13 (R165, R174). -/
def execX3 (s : State) : Host.Outcome State Fault Refusal := complete (registerTag 11#4) s

/-- `x4`, tag 0o14 (R165, R174). -/
def execX4 (s : State) : Host.Outcome State Fault Refusal := complete (registerTag 12#4) s

/-- `x5`, tag 0o15 (R165, R174). -/
def execX5 (s : State) : Host.Outcome State Fault Refusal := complete (registerTag 13#4) s

/-- `x6`, tag 0o16 (R165, R174). -/
def execX6 (s : State) : Host.Outcome State Fault Refusal := complete (registerTag 14#4) s

/-- `x7`, tag 0o17 (R165, R174). -/
def execX7 (s : State) : Host.Outcome State Fault Refusal := complete (registerTag 15#4) s

end Sys2Proof.Machine
end

