-- ==== Sys2Proof/Machine/RegisterIndirect.lean ====
section
/-! DEFINITION. Register-then-indirect modification, Tm = RI, tags 0o20 to 0o37 (spec 40_address_modifier.md R175 to R177,
R183). -/

namespace Sys2Proof.Machine

/-- `RI_MOD(td)`, in or outside an IR chain: du and dl fault before any register is read; otherwise the register is added to
TPR.CA, the indirect word is fetched, and its tag is dispatched next, CT_HOLD kept (R175, R176, R183). -/
def registerIndirectTag (td : Designator) : Act Unit := do
  raiseIf (isDirect td) (.illegalModifier .directAfterRi)
  let v ← read (regValue td)
  let ca ← read (·.tpr.ca)
  setCa (ca + v.1)
  indirectFetch

/-- `n*`, tag 0o20 (R175, R170). -/
def execNStar (s : State) : Host.Outcome State Fault Refusal := complete (registerIndirectTag 0#4) s

/-- `au*`, tag 0o21 (R175, R171). -/
def execAuStar (s : State) : Host.Outcome State Fault Refusal := complete (registerIndirectTag 1#4) s

/-- `qu*`, tag 0o22 (R175, R171). -/
def execQuStar (s : State) : Host.Outcome State Fault Refusal := complete (registerIndirectTag 2#4) s

/-- `du*`, tag 0o23 (R176, R172). -/
def execDuStar (s : State) : Host.Outcome State Fault Refusal := complete (registerIndirectTag 3#4) s

/-- `ic*`, tag 0o24 (R175, R173). -/
def execIcStar (s : State) : Host.Outcome State Fault Refusal := complete (registerIndirectTag 4#4) s

/-- `al*`, tag 0o25 (R175, R171). -/
def execAlStar (s : State) : Host.Outcome State Fault Refusal := complete (registerIndirectTag 5#4) s

/-- `ql*`, tag 0o26 (R175, R171). -/
def execQlStar (s : State) : Host.Outcome State Fault Refusal := complete (registerIndirectTag 6#4) s

/-- `dl*`, tag 0o27 (R176, R172). -/
def execDlStar (s : State) : Host.Outcome State Fault Refusal := complete (registerIndirectTag 7#4) s

/-- `x0*`, tag 0o30 (R175, R174). -/
def execX0Star (s : State) : Host.Outcome State Fault Refusal := complete (registerIndirectTag 8#4) s

/-- `x1*`, tag 0o31 (R175, R174). -/
def execX1Star (s : State) : Host.Outcome State Fault Refusal := complete (registerIndirectTag 9#4) s

/-- `x2*`, tag 0o32 (R175, R174). -/
def execX2Star (s : State) : Host.Outcome State Fault Refusal := complete (registerIndirectTag 10#4) s

/-- `x3*`, tag 0o33 (R175, R174). -/
def execX3Star (s : State) : Host.Outcome State Fault Refusal := complete (registerIndirectTag 11#4) s

/-- `x4*`, tag 0o34 (R175, R174). -/
def execX4Star (s : State) : Host.Outcome State Fault Refusal := complete (registerIndirectTag 12#4) s

/-- `x5*`, tag 0o35 (R175, R174). -/
def execX5Star (s : State) : Host.Outcome State Fault Refusal := complete (registerIndirectTag 13#4) s

/-- `x6*`, tag 0o36 (R175, R174). -/
def execX6Star (s : State) : Host.Outcome State Fault Refusal := complete (registerIndirectTag 14#4) s

/-- `x7*`, tag 0o37 (R175, R174). -/
def execX7Star (s : State) : Host.Outcome State Fault Refusal := complete (registerIndirectTag 15#4) s

end Sys2Proof.Machine
end

