-- ==== Sys2Proof/Machine/Dispatch.lean ====
section
/-! DEFINITION. The dispatch of an instruction to its meaning. -/

namespace Sys2Proof.Machine

def exec (i : Instr) (s : State) : Host.Outcome State Fault Refusal :=
  match i with
  | .n => Sys2Proof.Machine.execN s
  | .au => Sys2Proof.Machine.execAu s
  | .qu => Sys2Proof.Machine.execQu s
  | .du => Sys2Proof.Machine.execDu s
  | .ic => Sys2Proof.Machine.execIc s
  | .al => Sys2Proof.Machine.execAl s
  | .ql => Sys2Proof.Machine.execQl s
  | .dl => Sys2Proof.Machine.execDl s
  | .x0 => Sys2Proof.Machine.execX0 s
  | .x1 => Sys2Proof.Machine.execX1 s
  | .x2 => Sys2Proof.Machine.execX2 s
  | .x3 => Sys2Proof.Machine.execX3 s
  | .x4 => Sys2Proof.Machine.execX4 s
  | .x5 => Sys2Proof.Machine.execX5 s
  | .x6 => Sys2Proof.Machine.execX6 s
  | .x7 => Sys2Proof.Machine.execX7 s
  | .nStar => Sys2Proof.Machine.execNStar s
  | .auStar => Sys2Proof.Machine.execAuStar s
  | .quStar => Sys2Proof.Machine.execQuStar s
  | .duStar => Sys2Proof.Machine.execDuStar s
  | .icStar => Sys2Proof.Machine.execIcStar s
  | .alStar => Sys2Proof.Machine.execAlStar s
  | .qlStar => Sys2Proof.Machine.execQlStar s
  | .dlStar => Sys2Proof.Machine.execDlStar s
  | .x0Star => Sys2Proof.Machine.execX0Star s
  | .x1Star => Sys2Proof.Machine.execX1Star s
  | .x2Star => Sys2Proof.Machine.execX2Star s
  | .x3Star => Sys2Proof.Machine.execX3Star s
  | .x4Star => Sys2Proof.Machine.execX4Star s
  | .x5Star => Sys2Proof.Machine.execX5Star s
  | .x6Star => Sys2Proof.Machine.execX6Star s
  | .x7Star => Sys2Proof.Machine.execX7Star s
  | .f1 => Sys2Proof.Machine.execF1 s
  | .itp => Sys2Proof.Machine.execItp s
  | .itReserved42 => Sys2Proof.Machine.execItReserved42 s
  | .its => Sys2Proof.Machine.execIts s
  | .sd => Sys2Proof.Machine.execSd s
  | .scr => Sys2Proof.Machine.execScr s
  | .f2 => Sys2Proof.Machine.execF2 s
  | .f3 => Sys2Proof.Machine.execF3 s
  | .ci => Sys2Proof.Machine.execCi s
  | .i => Sys2Proof.Machine.execI s
  | .sc => Sys2Proof.Machine.execSc s
  | .ad => Sys2Proof.Machine.execAd s
  | .di => Sys2Proof.Machine.execDi s
  | .dic => Sys2Proof.Machine.execDic s
  | .id => Sys2Proof.Machine.execId s
  | .idc => Sys2Proof.Machine.execIdc s
  | .starN => Sys2Proof.Machine.execStarN s
  | .starAu => Sys2Proof.Machine.execStarAu s
  | .starQu => Sys2Proof.Machine.execStarQu s
  | .starDu => Sys2Proof.Machine.execStarDu s
  | .starIc => Sys2Proof.Machine.execStarIc s
  | .starAl => Sys2Proof.Machine.execStarAl s
  | .starQl => Sys2Proof.Machine.execStarQl s
  | .starDl => Sys2Proof.Machine.execStarDl s
  | .starX0 => Sys2Proof.Machine.execStarX0 s
  | .starX1 => Sys2Proof.Machine.execStarX1 s
  | .starX2 => Sys2Proof.Machine.execStarX2 s
  | .starX3 => Sys2Proof.Machine.execStarX3 s
  | .starX4 => Sys2Proof.Machine.execStarX4 s
  | .starX5 => Sys2Proof.Machine.execStarX5 s
  | .starX6 => Sys2Proof.Machine.execStarX6 s
  | .starX7 => Sys2Proof.Machine.execStarX7 s
  | .itsPair segno rn => Sys2Proof.Machine.execItsPair segno rn s
  | .itpPair prnum => Sys2Proof.Machine.execItpPair prnum s

end Sys2Proof.Machine
end

