-- ==== Sys2Proof/Machine/Interface.lean ====
section
/-! DEFINITION. The core's interface to its external collaborators (spec 10_state.md R48, R49; 20_memory.md R92 to R94;
43_descriptor_caches.md R340; 70_reset_and_hazards.md R400). Requests are served between resolutions only (R97, R378). -/

namespace Sys2Proof.Machine

/-- The reset event: every register and both AMs at their reset values; memory, the parameters, the event record and the
collaborators' requests are not touched (R400). -/
def resetCore (s : State) : State :=
  { State.reset with mem := s.mem, config := s.config, events := s.events, requests := s.requests }

/-- A collaborator's own write of an existing physical word (R48); it is no event of the core (R104). -/
def loadWord (pa : Word24) (w : Word36) : Act Unit := do
  checkExists pa
  update (withWord pa w)

/-- `InvalidateSDWAM()` (R340). -/
def invalidateSdwam (s : State) : State := { s with sdwam := amInvalidate s.sdwam }

/-- `InvalidatePTWAM()` (R340). -/
def invalidatePtwam (s : State) : State := { s with ptwam := amInvalidate s.ptwam }

/-- An access the executor asks of the MemoryAccessor, answering the words read (R88, R89, R92 to R94). -/
def performAccess : AccessRequest → Act (List Word36)
  | .fetch => do
    let w ← fetchInstruction
    return [w]
  | .memRead ca acc => do
    let r ← memRead ca acc
    return [r.1]
  | .memWrite ca w acc => do
    memWrite ca w acc
    return []
  | .readPair ca acc => do
    let p ← readPair ca acc
    return [p.1, p.2]
  | .readN ca n acc => readN ca acc n

/-- A register write by an external collaborator (R48). Loading DSBR invalidates nothing (R341). -/
def writeRegister (r : RegisterWrite) (s : State) : State :=
  match r with
  | .x n v => { s with x := s.x.set n.toNat v }
  | .a v => { s with a := v }
  | .q v => { s with q := v }
  | .ppr v => { s with ppr := v }
  | .tpr v => { s with tpr := v }
  | .instr v => { s with instr := v }
  | .tro v => { s with tro := v }
  | .addrMode v => { s with addrMode := v }
  | .bar v => { s with bar := v }
  | .dsbr v => { s with dsbr := v }
  | .pr n v => { s with pr := s.pr.set n.toNat v }

/-- The entry of the resolution a request asks for, if it asks for one (R92, R160). -/
def beginRequest : Request → Option (Act Unit)
  | .resolve op => some (beginResolution op)
  | .execute op => some (beginExecution op)
  | _ => none

/-- An access served whole: the words read are handed back. -/
def serveAccess (r : AccessRequest) : Act Unit := do
  let ws ← performAccess r
  update (endWith (.words ws))

/-- Every request but a resolution, served whole in one step. -/
def serveRequest : Request → Act Unit
  | .access r => serveAccess r
  | .register r => update (writeRegister r)
  | .loadWord pa w => loadWord pa w
  | .invalidateSdwam => update invalidateSdwam
  | .invalidatePtwam => update invalidatePtwam
  | .reset => update resetCore
  | .resolve _ => pure ()
  | .execute _ => pure ()

/-- The state that has taken its next request off the queue. -/
def withRequests (rs : List Request) (s : State) : State := { s with requests := rs }

/-! ### Placing an instruction -/

/-- The physical address at which the instruction at PPR.IC is fetched, where the fetch forms one (R92). -/
def fetchAddress (s : State) : Option Word24 :=
  match formAddress s.ppr.ic .instructionFetch (aimAtProcedure s) with
  | .ok r _ => some r.1
  | .error _ _ => none

/-- An instruction word stored where it is fetched, the core idle, and the request to execute it the next one (log entry 7). -/
def placeInstruction (w : Word36) (s : State) : State :=
  let t := { s with phase := .idle, requests := .execute .prepareOnly :: s.requests }
  match fetchAddress t with
  | some pa => withWord pa w t
  | none => t

end Sys2Proof.Machine
end

