-- ==== Sys2Proof/Machine/Step.lean ====
section
/-! DEFINITION. One step of the core: the dispatch of one tag or pointer pair of the resolution in progress (R162, R255, R420),
or, between resolutions, the next request of the external collaborators. -/

namespace Sys2Proof.Machine

/-- The instruction whose fields are current, dispatched by its tag (R160, R162). -/
def execCurrent (s : State) : Host.Outcome State Fault Refusal := exec (decodeTag s.instr.tag) s

/-- A request between resolutions. A resolution's first dispatch happens in the step that begins it. -/
def serve (r : Request) (s : State) : Host.Outcome State Fault Refusal :=
  match beginRequest r with
  | some m => andThen m execCurrent s
  | none => complete (serveRequest r) s

/-- One step. With no resolution in progress and no request the core does nothing: it starts no execution itself (R402). -/
def step (s : State) : Host.Outcome State Fault Refusal :=
  match s.phase with
  | .dispatch t => exec (decodeTag t) s
  | .pair w => exec (decodePointerPair w) s
  | .idle =>
    match s.requests with
    | [] => .next s
    | r :: rs => serve r (withRequests rs s)

/-- `s` with the instruction word `w` (its bits above `nbits` zero) stored where the next step fetches its instruction, and
the request that makes the next step fetch it and resolve it, without a final operand access (log entry 7). -/
def State.withFetchWord (s : State) (nbits w : Nat) : State := placeInstruction (BitVec.ofNat 36 (w % 2 ^ nbits)) s

end Sys2Proof.Machine
end

