-- ==== Sys2Proof/Safety.lean ====
section
/-! DEFINITION. The terms in which claims about the core are stated: what a good state is, when an access goes through and what it
leaves, how a resolution ends, and tables of the instruction families. -/

namespace Sys2Proof.Machine

/-! ### When an access goes through (R83, R84, R88, R89) -/

/-- The computed address `ca` is translated to an existing word that holds `w`: the read answers `w`, with the SDW that
translated it if any, and leaves `t`. -/
def ReadsAt (s : State) (ca : Word18) (acc : Access) (w : Word36) (sdw : Option Sdw) (t : State) : Prop :=
  ∃ pa u, formAddress ca acc s = .ok (pa, sdw) u ∧ pa.toNat < u.config.memSize ∧ memLookup u.mem pa.toNat = some w ∧
    t = withEvent (.read pa w (.logical acc)) u

/-- The computed address `ca` is translated to an existing word: the write of `w` leaves `t`. -/
def WritesAt (s : State) (ca : Word18) (acc : Access) (w : Word36) (t : State) : Prop :=
  ∃ pa sdw u, formAddress ca acc s = .ok (pa, sdw) u ∧ pa.toNat < u.config.memSize ∧
    t = withEvent (.write pa w (.logical acc)) (withWord pa w u)

/-- Consecutive computed addresses from `ca` on are read one after the other, the words `ws` in order (R94). -/
def ReadsRun (s : State) (ca : Word18) (acc : Access) : List Word36 → State → Prop
  | [], t => t = s
  | w :: ws, t => ∃ sdw u, ReadsAt s ca acc w sdw u ∧ ReadsRun u (ca + 1) acc ws t

/-! ### How a resolution goes on and how it ends -/

/-- One more indirect fetch stays within MAX_INDIRECT_DEPTH (R163). -/
def WithinDepth (s : State) : Prop := ∀ m, s.config.maxIndirectDepth = some m → s.depth < m

/-- `FINAL_WORD` from `s` ends the resolution in `t` (R167). -/
def WordEnd (s t : State) : Prop :=
  match s.op with
  | .read => ∃ w sdw u, ReadsAt s s.tpr.ca .operandRead w sdw u ∧ t = endWith (.result ⟨s.tpr.ca, .word, some w⟩) u
  | .write v => ∃ u, WritesAt s s.tpr.ca .operandWrite v u ∧ t = endWith (.result ⟨s.tpr.ca, .word, none⟩) u
  | .prepareOnly => t = endWith (.result ⟨s.tpr.ca, .word, none⟩) s

/-- `FINAL_CHAR` from `s` ends the resolution in `t` (R226). -/
def CharEnd (s : State) (sz : CharSize) (cf : BitVec 3) (t : State) : Prop :=
  match s.op with
  | .read => ∃ w sdw u, ReadsAt s s.tpr.ca .operandRead w sdw u ∧
      t = endWith (.result ⟨s.tpr.ca, .char sz cf, some (charAt w sz cf.toNat)⟩) u
  | .write v => ∃ w sdw u u', ReadsAt s s.tpr.ca .operandRead w sdw u ∧
      WritesAt u s.tpr.ca .operandWrite (charInsert w sz cf.toNat v) u' ∧
      t = endWith (.result ⟨s.tpr.ca, .char sz cf, none⟩) u'
  | .prepareOnly => t = endWith (.result ⟨s.tpr.ca, .char sz cf, none⟩) s

/-- `FINAL_WORD` from `s` raises `f` in its access of the operand, in the state `t` (R167). -/
def WordFaults (s : State) (f : Fault) (t : State) : Prop :=
  match s.op with
  | .read => memRead s.tpr.ca .operandRead s = .error (.fault f) t
  | .write v => memWrite s.tpr.ca v .operandWrite s = .error (.fault f) t
  | .prepareOnly => False

/-- `FINAL_CHAR` from `s` raises `f` in its read of the operand's word, or for a store in the write after it, in the state `t`
(R226). -/
def CharFaults (s : State) (sz : CharSize) (cf : BitVec 3) (f : Fault) (t : State) : Prop :=
  match s.op with
  | .read => memRead s.tpr.ca .operandRead s = .error (.fault f) t
  | .write v => memRead s.tpr.ca .operandRead s = .error (.fault f) t ∨ ∃ w sdw u,
      ReadsAt s s.tpr.ca .operandRead w sdw u ∧
      memWrite s.tpr.ca (charInsert w sz cf.toNat v) .operandWrite u = .error (.fault f) t
  | .prepareOnly => False

/-- The read of an indirect word or a tally word from `s`, within the chain limit, raises `f` in the state `t` (R163, R164, R221). -/
def FetchFaults (s : State) (f : Fault) (t : State) : Prop :=
  WithinDepth s ∧ memRead s.tpr.ca .indirectRead (counted s) = .error (.fault f) t

/-- What a step answers when an operation stops in `t`: the state after its fault is taken, or its refusal (R369, R371). -/
def stopOutcome (e : Stop) (t : State) : Host.Outcome State Fault Refusal :=
  match e with
  | .fault f => .next (takeFault f t)
  | .refused r => .refused r

/-- `IndirectFetch` from `s` leaves in `t` the pointer pair or the tag that is dispatched next (R163, R164). -/
def IndirectEnd (s t : State) : Prop :=
  WithinDepth s ∧ ∃ w sdw u, ReadsAt (counted s) s.tpr.ca .indirectRead w sdw u ∧
    t = if wordTag w = 0o41#6 ∨ wordTag w = 0o43#6 then { u with phase := .pair w, ringTerm := ringTermOf sdw }
        else withPhase (.dispatch (wordTag w)) (withCa (wordY w) u)

/-- `TallyFetch` from `s` answers the word `w` and leaves `u` (R221). -/
def TallyRead (s : State) (w : Word36) (u : State) : Prop :=
  WithinDepth s ∧ ∃ sdw, ReadsAt (counted s) s.tpr.ca .indirectRead w sdw u

/-- A tally word is read from `s` and rewritten with address `y`, tally `c` and low six bits `l`, and TRO is set for `c`,
leaving `t` (R221, R223, R224). -/
def TallyUpdated (s : State) (w : Word36) (y : Word18) (c : BitVec 12) (l : BitVec 6) (t : State) : Prop :=
  ∃ u v, TallyRead s w u ∧ WritesAt u s.tpr.ca .indirectWrite (y ++ c ++ l) v ∧ t = { v with tro := decide (c = 0#12) }

/-- An IT tag is performed: it stands outside an IR chain, or the policy performs it there (R185, R220). -/
def TallyPerformed (s : State) : Prop := s.inIr = false ∨ s.config.irItPolicy = .performIt

/-- The state after a pointer pair whose odd word was read in `u`: the new TPR, APPENDING mode with an escalation from ABSOLUTE recorded
where it is not sticky and none is, and the odd word's MOD dispatched next (R260, R262). -/
def afterPair (tpr : Tpr) (odd : Word36) (u : State) : State :=
  { u with
    tpr := tpr, addrMode := .appending, phase := .dispatch (odd.extractLsb' 0 6)
    escSaved := if u.addrMode = .absolute ∧ u.config.itsEscalationSticky = false ∧ u.escSaved = none then some .absolute else u.escSaved }

/-! ### Instruction families -/

/-- The register designators that are no direct operand, with the value each adds: the R tag's instruction, the RI tag's, the
IR tag's, the designator and the value (R126, R170, R171, R173, R174). -/
def registerRows : List (Instr × Instr × Instr × Designator × (State → Word18)) :=
  [(.n, .nStar, .starN, 0, fun _ => 0),
   (.au, .auStar, .starAu, 1, fun s => s.a.extractLsb' 18 18),
   (.qu, .quStar, .starQu, 2, fun s => s.q.extractLsb' 18 18),
   (.ic, .icStar, .starIc, 4, fun s => s.ppr.ic),
   (.al, .alStar, .starAl, 5, fun s => s.a.extractLsb' 0 18),
   (.ql, .qlStar, .starQl, 6, fun s => s.q.extractLsb' 0 18),
   (.x0, .x0Star, .starX0, 8, fun s => s.x[0]),
   (.x1, .x1Star, .starX1, 9, fun s => s.x[1]),
   (.x2, .x2Star, .starX2, 10, fun s => s.x[2]),
   (.x3, .x3Star, .starX3, 11, fun s => s.x[3]),
   (.x4, .x4Star, .starX4, 12, fun s => s.x[4]),
   (.x5, .x5Star, .starX5, 13, fun s => s.x[5]),
   (.x6, .x6Star, .starX6, 14, fun s => s.x[6]),
   (.x7, .x7Star, .starX7, 15, fun s => s.x[7])]

/-- The two direct-operand designators: the R tag's instruction, the RI tag's, the IR tag's, the designator and the operand word
made of an address (R126, R137, R172). -/
def directRows : List (Instr × Instr × Instr × Designator × (Word18 → Word36)) :=
  [(.du, .duStar, .starDu, 3, fun ca => ca ++ 0#18), (.dl, .dlStar, .starDl, 7, fun ca => 0#18 ++ ca)]

/-- The sixteen R tags (R126). -/
def registerTags : List Instr :=
  [.n, .au, .qu, .du, .ic, .al, .ql, .dl, .x0, .x1, .x2, .x3, .x4, .x5, .x6, .x7]

/-- The sixteen IR tags with the designator each holds (R126). -/
def indirectRegisterRows : List (Instr × Designator) :=
  [(.starN, 0), (.starAu, 1), (.starQu, 2), (.starDu, 3), (.starIc, 4), (.starAl, 5), (.starQl, 6), (.starDl, 7),
   (.starX0, 8), (.starX1, 9), (.starX2, 10), (.starX3, 11), (.starX4, 12), (.starX5, 13), (.starX6, 14), (.starX7, 15)]

/-- The sixteen IT tags (R126). -/
def indirectTallyTags : List Instr :=
  [.f1, .itp, .itReserved42, .its, .sd, .scr, .f2, .f3, .ci, .i, .sc, .ad, .di, .dic, .id, .idc]

/-- The eight tally-bearing instructions (R223). -/
def tallyBearing : List Instr := [.sc, .scr, .ad, .sd, .di, .id, .dic, .idc]

/-- The tally-bearing instructions whose operand is a word: the address written back, the tally written back, and the address used,
each from the tally word read (R230 to R233). -/
def wordTallyRows : List (Instr × (Word36 → Word18) × (Word36 → BitVec 12) × (Word36 → Word18)) :=
  [(.ad, fun w => wordY w + (wordLow6 w).setWidth 18, fun w => wordTally w - 1, fun w => wordY w),
   (.sd, fun w => wordY w - (wordLow6 w).setWidth 18, fun w => wordTally w + 1,
     fun w => wordY w - (wordLow6 w).setWidth 18),
   (.di, fun w => wordY w - 1, fun w => wordTally w + 1, fun w => wordY w - 1),
   (.id, fun w => wordY w + 1, fun w => wordTally w - 1, fun w => wordY w)]

/-- The tally-bearing instructions that continue, with the same three functions (R234, R236). -/
def continueTallyRows : List (Instr × (Word36 → Word18) × (Word36 → BitVec 12) × (Word36 → Word18)) :=
  [(.dic, fun w => wordY w - 1, fun w => wordTally w + 1, fun w => wordY w - 1),
   (.idc, fun w => wordY w + 1, fun w => wordTally w - 1, fun w => wordY w)]

/-- How many characters the word a tally word names holds (R225). -/
def charsOf (w : Word36) : Nat := if w.getLsbD 5 then 4 else 6

/-- The tally-bearing instructions whose operand is a character: the address, the tally and the low six bits written back, and the
address and the character position used (R228, R229). -/
def sequenceRows : List (Instr × (Word36 → Word18) × (Word36 → BitVec 12) × (Word36 → BitVec 6) × (Word36 → Word18) ×
    (Word36 → BitVec 3)) :=
  [(.sc, fun w => if (wordCf w).toNat + 1 = charsOf w then wordY w + 1 else wordY w, fun w => wordTally w - 1,
     fun w => wordSz w ++ if (wordCf w).toNat + 1 = charsOf w then 0#3 else wordCf w + 1, fun w => wordY w, fun w => wordCf w),
   (.scr, fun w => if wordCf w = 0 then wordY w - 1 else wordY w, fun w => wordTally w + 1,
     fun w => wordSz w ++ if wordCf w = 0 then BitVec.ofNat 3 (charsOf w - 1) else wordCf w - 1,
     fun w => if wordCf w = 0 then wordY w - 1 else wordY w,
     fun w => if wordCf w = 0 then BitVec.ofNat 3 (charsOf w - 1) else wordCf w - 1)]

/-- A pointer pair's even word (R131, R132). -/
def isPair : Instr → Bool
  | .itsPair _ _ => true
  | .itpPair _ => true
  | _ => false

/-- A memory access of the instruction dispatched in `s` raises `f`, in the state `t`: the accesses of every family, each after those
that the instruction makes before it. -/
inductive AccessRaises : Instr → State → Fault → State → Prop where
  /-- An R tag's operand, with the tag's own register or, at the end of an IR chain, the held one (R165, R167, R182). -/
  | register {instr s f t} (td : Designator) : instr ∈ registerTags → td = (if s.inIr then s.ctHold else tagTd (tagOf instr)) →
      isDirect td = false → WordFaults (withCa (s.tpr.ca + (regValue td s).1) s) f t → AccessRaises instr s f t
  /-- An RI tag's indirect word (R164, R175). -/
  | registerIndirect {s f t} {r ri ir td v} : (r, ri, ir, td, v) ∈ registerRows →
      FetchFaults (withCa (s.tpr.ca + v s) s) f t → AccessRaises ri s f t
  /-- An IR tag's indirect word (R164, R180). -/
  | indirectRegister {instr s f t} {td : Designator} : (instr, td) ∈ indirectRegisterRows →
      FetchFaults { s with ctHold := td, inIr := true } f t → AccessRaises instr s f t
  /-- An IT tag's tally word (R221). -/
  | tallyFetch {instr s f t} : instr ∈ tallyBearing ++ [.ci, .i] → TallyPerformed s →
      FetchFaults { s with inIr := false } f t → AccessRaises instr s f t
  /-- The rewrite of a tally word whose low six bits stay (R224, R230 to R234, R236). -/
  | rewrite {instr s f t} {fy ft fa} {w : Word36} {u : State} : (instr, fy, ft, fa) ∈ wordTallyRows ++ continueTallyRows →
      TallyPerformed s → TallyRead { s with inIr := false } w u →
      memWrite s.tpr.ca (fy w ++ ft w ++ wordLow6 w) .indirectWrite u = .error (.fault f) t → AccessRaises instr s f t
  /-- The rewrite of a tally word with a character position (R224, R228, R229). -/
  | rewriteCharacter {instr s f t} {fy ft fl fa fk} {w : Word36} {u : State} : (instr, fy, ft, fl, fa, fk) ∈ sequenceRows →
      TallyPerformed s → TallyRead { s with inIr := false } w u → (wordCf w).toNat < charsOf w →
      memWrite s.tpr.ca (fy w ++ ft w ++ fl w) .indirectWrite u = .error (.fault f) t → AccessRaises instr s f t
  /-- The operand of AD, SD, DI and ID (R230 to R233). -/
  | tallyOperand {instr s f t} {fy ft fa} {w : Word36} {u : State} : (instr, fy, ft, fa) ∈ wordTallyRows → TallyPerformed s →
      TallyUpdated { s with inIr := false } w (fy w) (ft w) (wordLow6 w) u → WordFaults (withCa (fa w) u) f t →
      AccessRaises instr s f t
  /-- The operand of SC and SCR (R226, R228, R229). -/
  | tallyCharacter {instr s f t} {fy ft fl fa fk} {w : Word36} {u : State} : (instr, fy, ft, fl, fa, fk) ∈ sequenceRows →
      TallyPerformed s → (wordCf w).toNat < charsOf w → TallyUpdated { s with inIr := false } w (fy w) (ft w) (fl w) u →
      CharFaults (withCa (fa w) u) (if w.getLsbD 5 then .nine else .six) (fk w) f t → AccessRaises instr s f t
  /-- The operand of I (R235). -/
  | indirectOperand {s f t} {w : Word36} {u : State} : TallyPerformed s → TallyRead { s with inIr := false } w u →
      WordFaults (withCa (wordY w) u) f t → AccessRaises .i s f t
  /-- The operand of CI (R226, R227). -/
  | indirectCharacter {s f t} {w : Word36} {u : State} : TallyPerformed s → TallyRead { s with inIr := false } w u →
      (wordCf w).toNat < charsOf w →
      CharFaults (withCa (wordY w) u) (if w.getLsbD 5 then .nine else .six) (wordCf w) f t → AccessRaises .ci s f t
  /-- A pointer pair's odd word (R257). -/
  | pairOdd {instr s f t} : isPair instr = true → s.addrMode ≠ .bar → s.tpr.ca.getLsbD 0 = false →
      memRead (s.tpr.ca + 1) .indirectRead s = .error (.fault f) t → AccessRaises instr s f t

/-- The bits of an instruction's word that are not ignored: a tag's six, and a pair's fields (R128, R131, R132, R139). -/
def encodingMask : Instr → Word36
  | .itsPair _ _ => 0o077777700077#36
  | .itpPair _ => 0o700000000077#36
  | _ => 0o77#36

/-! ### What a step leaves alone -/

/-- The events a step has added to a state's record (R104). -/
def newEvents (s t : State) : List Event := t.events.drop s.events.length

/-- The step from `s` to `t` wrote the word at `a` back as a page table word (R300). -/
def WroteBack (s t : State) (a : Nat) : Prop := ∃ pa w, Event.write pa w .descriptorWrite ∈ newEvents s t ∧ pa.toNat = a

/-- What a memory event does to memory (R83, R84). -/
def applyEvent (m : Memory) : Event → Memory
  | .read _ _ _ => m
  | .write pa w _ => memStore m pa.toNat w

/-- The registers the core reads and never writes, with the parameters, the operation and the requests (R31, R32, R34, R37, R42
to R44, R48). -/
def SameInputs (s t : State) : Prop :=
  t.x = s.x ∧ t.a = s.a ∧ t.q = s.q ∧ t.ppr = s.ppr ∧ t.instr = s.instr ∧ t.bar = s.bar ∧ t.dsbr = s.dsbr ∧ t.pr = s.pr ∧
    t.config = s.config ∧ t.op = s.op ∧ t.requests = s.requests

/-! ### Good states -/

/-- The usage counters of an associative memory are a permutation of 0 to 63 (R323). -/
def UsePermutation {α : Type} (m : Am α) : Prop := ∀ i j, (m.get i).use = (m.get j).use → i = j

/-- At most one full entry for a segment (R45, R326). -/
def SdwamUnique (m : Am Sdw) : Prop :=
  ∀ i j, (m.get i).full = true → (m.get j).full = true → (m.get i).body.pointer = (m.get j).body.pointer → i = j

/-- At most one full entry for a page of a segment (R46). -/
def PtwamUnique (m : Am Ptw) : Prop :=
  ∀ i j, (m.get i).full = true → (m.get j).full = true → (m.get i).body.pointer = (m.get j).body.pointer →
    (m.get i).body.pageno = (m.get j).body.pageno → i = j

/-- Every full entry's page number fits in the 18 - log2 PAGE_SIZE bits of PAGENO (R46). -/
def PagenoFits (c : Config) (m : Am Ptw) : Prop :=
  ∀ i, (m.get i).full = true → (m.get i).body.pageno.toNat < 2 ^ (18 - c.pageShift)

/-- The invariant of the core. -/
structure Inv (s : State) : Prop where
  /-- The parameters are allowed (R9). -/
  config : s.config.wellFormed = true
  /-- Memory has its canonical form. -/
  memCanonical : Memory.wf s.mem
  /-- Only existing addresses hold words (R81). -/
  memExists : ∀ a w, (a, w) ∈ s.mem → a < s.config.memSize
  sdwamUse : UsePermutation s.sdwam
  ptwamUse : UsePermutation s.ptwam
  sdwamUnique : SdwamUnique s.sdwam
  ptwamUnique : PtwamUnique s.ptwam
  pagenoFits : PagenoFits s.config s.ptwam
  /-- An escalation is from ABSOLUTE to APPENDING, and is recorded only where it is not sticky (R41, R262). -/
  escalation : ∀ m, s.escSaved = some m → m = .absolute ∧ s.addrMode = .appending ∧ s.config.itsEscalationSticky = false
  /-- No escalation is in effect between resolutions (R263). -/
  idleMode : s.phase = .idle → s.escSaved = none
  /-- A pending pair is a pair (R133). -/
  pairTag : ∀ w, s.phase = .pair w → isPointerPair w = true
  /-- A resolution in progress has stayed within the chain limit (R163). -/
  withinLimit : s.phase ≠ .idle → ∀ m, s.config.maxIndirectDepth = some m → s.depth ≤ m

end Sys2Proof.Machine
end

