-- ==== Sys2Proof/Certificates/Slice0/Obligations.lean ====
section
/-! DEFINITION. The statements for the provers. A statement's docstring names the rules of spec/ it formalises, and says where it
rests on a choice of the model. Throughout, a raise is a fault taken into `reply` (log entry 4), and `reply`, `requests`, `phase`,
`inIr`, `op` and `ringTerm` are the model's own fields (log entries 5 and 6). -/

open Sys2Proof Sys2Proof.Machine

/-! ### Encoding -/

/-- Decoding the word of a well-formed instruction gives the instruction back, in each position (R126, R128, R131 to R133). -/
def Obligations.DecodeEncodeAgree : Prop :=
  ∀ (pos : Position) (instr : Instr), instr.wellFormed pos = true → decode pos (encode instr) = instr

/-- A word decodes to an instruction exactly when its bits that are not ignored are that instruction's, and every word
decodes to a well-formed instruction (R126, R133, R139). -/
def Obligations.DecodeReadsExactlyTheFields : Prop :=
  ∀ (pos : Position) (w : Word36), (decode pos w).wellFormed pos = true ∧
    ∀ instr : Instr, instr.wellFormed pos = true → (decode pos w = instr ↔ w &&& encodingMask instr = encode instr)

/-- The four fields the core reads of an instruction word, with the external decoder's opcode and extension, are the whole word
(R121). -/
def Obligations.InstructionFieldsRoundTrip : Prop :=
  (∀ (f : InstrFields) (opcode : BitVec 9) (ext : Bool), decodeFields (encodeFields f opcode ext) = f) ∧
  ∀ w : Word36, encodeFields (decodeFields w) (w.extractLsb' 9 9) (w.getLsbD 8) = w

/-- Words written out in the spec's programs P1 to P5 and vectors decode to the instructions they stand for. -/
def Obligations.SpecWordsDecode : Prop :=
  decode .tag 0o000500235053 = .ad ∧ decode .tag 0o000400235052 = .sc ∧ decode .tag 0o000100235020 = .nStar ∧
  decode .tag 0o000500235057 = .idc ∧ decode .tag 0o000200235071 = .starX1 ∧ decode .tag 0o000350755011 = .x1 ∧
  decode .tag 0o000600755000 = .n ∧ decode .indirectWord 0o000005400043 = .itsPair 5 4 ∧
  decode .indirectWord 0o200000000041 = .itpPair 2 ∧ decode .indirectWord 0o000200000073 = .starX3

/-- An SDW written in the in-core format is read back with every field, bit 35 of its second word ignored (R134, R288). -/
def Obligations.DescriptorFieldsRoundTrip : Prop :=
  ∀ d : Sdw, decodeSdw d.pointer (encodeSdwWord0 d) (encodeSdwWord1 d) = d ∧
    descriptorValid (encodeSdwWord0 d) = true ∧ ∀ w0 w1, decodeSdw d.pointer w0 (w1 ||| 0o400000000000#36) = decodeSdw d.pointer w0 w1

/-! ### The step and the interface -/

/-- A step runs the decoded instruction: the tag at DISPATCH; the pair at its even word; and, for a request to resolve or to
fetch and execute, the tag of the instruction, in the state in which the resolution has begun (R160, R162, R255). That a
resolution begins and makes its first dispatch in one step is the model's choice (log entries 5 and 6). The last clause, the
request `execute` that fetches, takes the fields and dispatches in one step, is the model's own (log entry 7): the core fetches no
instructions itself, and R92 gives the executor's calling sequence that the request follows. -/
def Obligations.StepRunsDecodedInstruction : Prop :=
  (∀ s t, s.phase = .dispatch t → (decodeTag t).wellFormed .tag = true ∧ step s = exec (decodeTag t) s) ∧
  (∀ s w, s.phase = .pair w → wordTag w = 0o41 ∨ wordTag w = 0o43 → step s = exec (decode .indirectWord w) s) ∧
  (∀ s op rs u, s.phase = .idle → s.requests = .resolve op :: rs →
    beginResolution op { s with requests := rs } = .ok () u → step s = exec (decodeTag s.instr.tag) u) ∧
  (∀ s op rs w sdw u v, s.phase = .idle → s.requests = .execute op :: rs →
    ReadsAt { s with requests := rs, tpr := { s.tpr with trr := s.ppr.prr, tsr := s.ppr.psr } } s.ppr.ic
      .instructionFetch w sdw u →
    beginResolution op { u with instr := decodeFields w } = .ok () v → step s = exec (decode .tag w) v)

/-- A resolution begins at depth 0 with the initial TPR and the dispatch of the instruction's tag; an A bit outside APPENDING
mode is refused (R160, R161), and so is the step that begins the resolution, of the current instruction or of a fetched one. That
these are requests served by a step is the model's choice (log entries 5 and 7). That the refusal leaves no next state is the
model's reading (log entries 4 and 16): R369 says that it ends the resolution as a fault does. -/
def Obligations.ResolutionBegins : Prop :=
  ∀ (op : Operation) (s : State),
    (s.instr.a = false → beginResolution op s = .ok () { s with
      depth := 0, inIr := false, op := op, phase := .dispatch s.instr.tag,
      tpr := ⟨s.ppr.prr, s.ppr.psr, 0, s.instr.address⟩ }) ∧
    (∀ p, s.instr.a = true → s.addrMode = .appending → getPr s (s.instr.address.extractLsb' 15 3) = p →
      beginResolution op s = .ok () { s with
        depth := 0, inIr := false, op := op, phase := .dispatch s.instr.tag,
        tpr := ⟨BitVec.ofNat 3 (max p.rnr.toNat s.ppr.prr.toNat), p.snr, p.bitno,
          p.wordno + (s.instr.address.extractLsb' 0 15).signExtend 18⟩ }) ∧
    (s.addrMode ≠ .appending →
      (s.instr.a = true → (∃ u, beginResolution op s = .error (.refused .pointerRegisterOutsideAppending) u) ∧
        ∀ rs, s.phase = .idle → s.requests = .resolve op :: rs → step s = .refused .pointerRegisterOutsideAppending) ∧
      ∀ rs w sdw u, s.phase = .idle → s.requests = .execute op :: rs →
        ReadsAt { s with requests := rs, tpr := { s.tpr with trr := s.ppr.prr, tsr := s.ppr.psr } } s.ppr.ic
          .instructionFetch w sdw u → w.getLsbD 6 = true → step s = .refused .pointerRegisterOutsideAppending)

/-- With no resolution in progress and no request the core does nothing: it starts no execution (R402). That such a step answers
the same state is the model's choice (log entry 5). -/
def Obligations.IdleCoreWaits : Prop := ∀ s : State, s.phase = .idle → s.requests = [] → step s = .next s

/-- The reset state, and the reset event from any state between resolutions: ABSOLUTE mode, no escalation, empty AMs with USE[i] = i,
depth 0; memory is empty at first and not touched by the event (R400, R401). That the event is served as a request and keeps the
parameters and the later requests is the model's choice (log entry 17). -/
def Obligations.ResetAndResetEvent : Prop :=
  (State.reset.addrMode = .absolute ∧ State.reset.escSaved = none ∧ State.reset.depth = 0 ∧
    (∀ i : Fin 64, (State.reset.sdwam.get i).full = false ∧ (State.reset.sdwam.get i).use = BitVec.ofNat 6 i.val) ∧
    (∀ i : Fin 64, (State.reset.ptwam.get i).full = false ∧ (State.reset.ptwam.get i).use = BitVec.ofNat 6 i.val) ∧
    ∀ a, memLookup State.reset.mem a = none) ∧
  ∀ s rs, s.phase = .idle → s.requests = .reset :: rs → ∃ t, step s = .next t ∧ t.addrMode = .absolute ∧
    t.escSaved = none ∧ t.depth = 0 ∧ t.sdwam = State.reset.sdwam ∧ t.ptwam = State.reset.ptwam ∧ t.mem = s.mem ∧
    t.config = s.config ∧ t.phase = .idle ∧ t.requests = rs

/-- What a collaborator's request changes, and that it changes nothing else. An invalidation clears F in every entry of one AM
(R340). A register write sets that register alone, so loading DSBR leaves both AMs as they were (R341). A write of a memory word writes
one existing word, and so no AM entry (R102, R48); at or above MEM_SIZE it faults with nothing written. That each is served whole in
one step, and the existence check and the fault of a collaborator's own memory write, are the model's choice (log entry 5): the check
of R84 is the core's. -/
def Obligations.CollaboratorWrites : Prop :=
  ∀ s rs, s.phase = .idle →
    (s.requests = .invalidateSdwam :: rs → ∃ am : Am Sdw, step s = .next { s with requests := rs, sdwam := am } ∧
      ∀ i, am.get i = { s.sdwam.get i with full := false }) ∧
    (s.requests = .invalidatePtwam :: rs → ∃ am : Am Ptw, step s = .next { s with requests := rs, ptwam := am } ∧
      ∀ i, am.get i = { s.ptwam.get i with full := false }) ∧
    (∀ r, s.requests = .register r :: rs →
      match r with
      | .x n v => ∃ xs, step s = .next { s with requests := rs, x := xs } ∧
          ∀ k : Fin 8, xs[k] = if k.val = n.toNat then v else s.x[k]
      | .a v => step s = .next { s with requests := rs, a := v }
      | .q v => step s = .next { s with requests := rs, q := v }
      | .ppr v => step s = .next { s with requests := rs, ppr := v }
      | .tpr v => step s = .next { s with requests := rs, tpr := v }
      | .instr v => step s = .next { s with requests := rs, instr := v }
      | .tro v => step s = .next { s with requests := rs, tro := v }
      | .addrMode v => step s = .next { s with requests := rs, addrMode := v }
      | .bar v => step s = .next { s with requests := rs, bar := v }
      | .dsbr v => step s = .next { s with requests := rs, dsbr := v }
      | .pr n v => ∃ ps, step s = .next { s with requests := rs, pr := ps } ∧
          ∀ k : Fin 8, ps[k] = if k.val = n.toNat then v else s.pr[k]) ∧
    ∀ pa w, s.requests = .loadWord pa w :: rs →
      (pa.toNat < s.config.memSize → ∃ m, step s = .next { s with requests := rs, mem := m } ∧
        ∀ a, memLookup m a = if a = pa.toNat then some w else memLookup s.mem a) ∧
      (s.config.memSize ≤ pa.toNat → step s = .next (takeFault (.nonexistentMemory pa) { s with requests := rs }))

/-- An access that goes through is answered with the words read, the pair's even word first, a run in rising address order (R88,
R89, R92 to R94). An access that stops, at its first word or at a later one, is a fault taken or a refusal (R360, R369, R371), and so is
the fetch of a request to execute. That accesses are requests served by one step, and the request to execute itself, are the
model's choice (log entries 4, 5 and 7). -/
def Obligations.AccessRequestsAnswered : Prop :=
  ∀ (s : State) (rs : List Request), s.phase = .idle →
    let u₀ := { s with requests := rs }
    let f₀ := { u₀ with tpr := { s.tpr with trr := s.ppr.prr, tsr := s.ppr.psr } }
    (∀ r, s.requests = .access r :: rs →
      match r with
      | .fetch => (∀ w sdw u, ReadsAt f₀ s.ppr.ic .instructionFetch w sdw u → step s = .next (endWith (.words [w]) u)) ∧
          ∀ e u, memRead s.ppr.ic .instructionFetch f₀ = .error e u → step s = stopOutcome e u
      | .memRead ca acc => (∀ w sdw u, ReadsAt u₀ ca acc w sdw u → step s = .next (endWith (.words [w]) u)) ∧
          ∀ e u, memRead ca acc u₀ = .error e u → step s = stopOutcome e u
      | .memWrite ca w acc => (∀ u, WritesAt u₀ ca acc w u → step s = .next (endWith (.words []) u)) ∧
          ∀ e u, memWrite ca w acc u₀ = .error e u → step s = stopOutcome e u
      | .readPair ca acc => (∀ e u, memRead (ca &&& 0o777776#18) acc u₀ = .error e u → step s = stopOutcome e u) ∧
          ∀ even sdw u, ReadsAt u₀ (ca &&& 0o777776#18) acc even sdw u →
            (∀ odd sdw' v, ReadsAt u (ca ||| 1#18) acc odd sdw' v → step s = .next (endWith (.words [even, odd]) v)) ∧
            ∀ e v, memRead (ca ||| 1#18) acc u = .error e v → step s = stopOutcome e v
      | .readN ca n acc => ∀ ws u, ReadsRun u₀ ca acc ws u →
          (ws.length = n → step s = .next (endWith (.words ws) u)) ∧
          ∀ e v, ws.length < n → memRead (ca + BitVec.ofNat 18 ws.length) acc u = .error e v → step s = stopOutcome e v) ∧
    ∀ op, s.requests = .execute op :: rs → ∀ e u, memRead s.ppr.ic .instructionFetch f₀ = .error e u → step s = stopOutcome e u

/-! ### Physical memory and the addressing modes -/

/-- `PhysRead` and `PhysWrite`: at or above MEM_SIZE a fault with nothing changed; below it the word is read or written and the event
recorded (R83, R84). That the read of an existing word that nothing has written is refused is the model's choice among those R369
and R401 leave (log entry 2). -/
def Obligations.PhysicalAccess : Prop :=
  ∀ (s : State) (pa : Word24) (acc : AccessType),
    (s.config.memSize ≤ pa.toNat → physRead pa acc s = .error (.fault (.nonexistentMemory pa)) s ∧
      ∀ w, physWrite pa w acc s = .error (.fault (.nonexistentMemory pa)) s) ∧
    (pa.toNat < s.config.memSize →
      (∀ w, memLookup s.mem pa.toNat = some w →
        physRead pa acc s = .ok w { s with events := s.events ++ [.read pa w acc] }) ∧
      (memLookup s.mem pa.toNat = none → physRead pa acc s = .error (.refused (.unwritten pa)) s) ∧
      ∀ w, physWrite pa w acc s =
        .ok () { s with mem := memStore s.mem pa.toNat w, events := s.events ++ [.write pa w acc] })

/-- A written address reads as the word written, every other address reads as before, and two canonical memories that read alike at
every address are equal (R80, R84). -/
def Obligations.MemoryReadsWhatWasWritten : Prop :=
  (∀ (m : Memory) (a b : Nat) (w : Word36),
    memLookup (memStore m a w) b = if b = a then some w else memLookup m b) ∧
  ∀ m m' : Memory, Memory.wf m → Memory.wf m' → (∀ a, memLookup m a = memLookup m' a) → m = m'

/-- The address formed in each mode: the computed address itself in ABSOLUTE mode; relocated and checked against the bound in BAR mode;
translated with TPR's ring and segment in APPENDING mode (R82, R88, R90, R91). -/
def Obligations.AddressFormedByMode : Prop :=
  ∀ (s : State) (ca : Word18) (acc : Access),
    (s.addrMode = .absolute → formAddress ca acc s = .ok (ca.setWidth 24, none) s) ∧
    (s.addrMode = .bar → s.bar.bound ≤ ca.extractLsb' 9 9 →
      formAddress ca acc s = .error (.fault (.storeFault .outOfBounds)) s) ∧
    (s.addrMode = .bar → ca.extractLsb' 9 9 < s.bar.bound →
      formAddress ca acc s = .ok (BitVec.ofNat 24 ((ca.toNat + s.bar.base.toNat * 512) % 2 ^ 18), none) s) ∧
    (s.addrMode = .appending → ∀ pa d t, translate s.tpr.trr s.tpr.tsr ca acc s = .ok (pa, d) t →
      formAddress ca acc s = .ok (pa, some d) t) ∧
    (s.addrMode = .appending → ∀ e t, translate s.tpr.trr s.tpr.tsr ca acc s = .error e t →
      formAddress ca acc s = .error e t)

/-! ### The appending unit -/

/-- A segment whose SDW is held: the promotion of its entry is the only effect of the hit (R322). And a reference that passes
every check of an unpaged segment's SDW has the sum of its base and the offset modulo 2^24 as address (R296). -/
def Obligations.HeldSegmentAndUnpagedAddress : Prop :=
  ∀ s : State,
    (∀ (i : Fin 64) (d : Sdw), (s.sdwam.get i).full = true → (s.sdwam.get i).body = d → SdwamUnique s.sdwam →
      getSdw d.pointer s = .ok d { s with sdwam := amPromote s.sdwam i }) ∧
    ∀ (trr : Ring) (tsr : Segno) (ca : Word18) (acc : Access) (d : Sdw) (u : State), getSdw tsr s = .ok d u →
      violations d trr ca acc = [] → d.u = true →
      translate trr tsr ca acc s = .ok (BitVec.ofNat 24 (d.addr.toNat + ca.toNat), d) u

/-- A segment that is not held: the bound is checked before any read. In an unpaged descriptor segment, then, both SDW words are
read; an invalid SDW is a directed fault with its number and changes no AM; a valid one is filled in (R282 to R284, R287, R288). -/
def Obligations.SegmentDescriptorFetched : Prop :=
  ∀ (s : State) (tsr : Segno), (∀ i, (s.sdwam.get i).full = true → (s.sdwam.get i).body.pointer ≠ tsr) →
    (s.dsbr.bnd.toNat < 2 * tsr.toNat / 16 → getSdw tsr s = .error (.fault (.accessViolation [.oosb])) s) ∧
    ∀ sa w0 w1, 2 * tsr.toNat / 16 ≤ s.dsbr.bnd.toNat → s.dsbr.u = true →
      sa = BitVec.ofNat 24 (s.dsbr.addr.toNat + 2 * tsr.toNat) → sa.toNat < s.config.memSize →
      (sa + 1).toNat < s.config.memSize → memLookup s.mem sa.toNat = some w0 → memLookup s.mem (sa + 1).toNat = some w1 →
      let u := { s with events := s.events ++ [.read sa w0 .descriptorRead, .read (sa + 1) w1 .descriptorRead] }
      (w0.getLsbD 2 = false → getSdw tsr s = .error (.fault (.directedFault (w0.extractLsb' 0 2))) u) ∧
      (w0.getLsbD 2 = true → getSdw tsr s =
        .ok (decodeSdw tsr w0 w1) { u with sdwam := (amFill s.sdwam (decodeSdw tsr w0 w1)).2 })

/-- A segment in a paged descriptor segment: the SDW's address takes one read of the descriptor segment's PTW, which is not cached, and an
invalid PTW is a directed fault with its number (R285, R286). For a segment that is not held, then, no SDW is read and no AM
changes where that PTW is invalid; otherwise both SDW words are read, an invalid SDW is a directed fault with its number and
changes no AM, and a valid one is filled in (R282, R287, R288). -/
def Obligations.PagedDescriptorSegment : Prop :=
  ∀ (s : State) (tsr : Segno) (pta : Word24) (w : Word36), s.dsbr.u = false →
    pta = BitVec.ofNat 24 (s.dsbr.addr.toNat + 2 * tsr.toNat / s.config.pageSize) → pta.toNat < s.config.memSize →
    memLookup s.mem pta.toNat = some w → ∀ (sa : Word24) (s₁ : State),
    sa = BitVec.ofNat 24 ((w.extractLsb' 18 18).toNat * 64 + 2 * tsr.toNat % s.config.pageSize) →
    s₁ = { s with events := s.events ++ [.read pta w .descriptorRead] } →
    (sdwAddress tsr s = if w.getLsbD 2 then .ok sa s₁ else .error (.fault (.directedFault (w.extractLsb' 0 2))) s₁) ∧
    ((∀ i, (s.sdwam.get i).full = true → (s.sdwam.get i).body.pointer ≠ tsr) → 2 * tsr.toNat / 16 ≤ s.dsbr.bnd.toNat →
      (w.getLsbD 2 = false → getSdw tsr s = .error (.fault (.directedFault (w.extractLsb' 0 2))) s₁) ∧
      ∀ w0 w1, w.getLsbD 2 = true → sa.toNat < s.config.memSize → (sa + 1).toNat < s.config.memSize →
        memLookup s.mem sa.toNat = some w0 → memLookup s.mem (sa + 1).toNat = some w1 →
        let u := { s₁ with events := s₁.events ++ [.read sa w0 .descriptorRead, .read (sa + 1) w1 .descriptorRead] }
        (w0.getLsbD 2 = false → getSdw tsr s = .error (.fault (.directedFault (w0.extractLsb' 0 2))) u) ∧
        (w0.getLsbD 2 = true → getSdw tsr s =
          .ok (decodeSdw tsr w0 w1) { u with sdwam := (amFill s.sdwam (decodeSdw tsr w0 w1)).2 }))

/-- Every failing check of an access is in the violation, by its rule, in sub-code order and once; a violation is raised as soon as the
SDW is acquired, before any page table access, and leaves the PTWAM alone (R289 to R295). -/
def Obligations.AccessChecks : Prop :=
  ∀ (d : Sdw) (trr : Ring) (ca : Word18) (acc : Access),
    (∀ v, v ∈ violations d trr ca acc ↔
      (v = .iro ∧ ¬ (d.r1 ≤ d.r2 ∧ d.r2 ≤ d.r3)) ∨
      (v = .orb ∧ (acc = .operandRead ∨ acc = .indirectRead) ∧ trr > d.r2) ∨
      (v = .rOff ∧ (acc = .operandRead ∨ acc = .indirectRead) ∧ d.r = false) ∨
      (v = .oeb ∧ acc = .instructionFetch ∧ (trr < d.r1 ∨ trr > d.r2)) ∨
      (v = .eOff ∧ acc = .instructionFetch ∧ d.e = false) ∨
      (v = .owb ∧ (acc = .operandWrite ∨ acc = .indirectWrite) ∧ trr > d.r1) ∨
      (v = .wOff ∧ (acc = .operandWrite ∨ acc = .indirectWrite) ∧ d.w = false) ∨
      (v = .oosb ∧ ca.toNat / 16 > d.bound.toNat)) ∧
    ((violations d trr ca acc).map acvNumber).Pairwise (· < ·) ∧
    ∀ tsr s u, getSdw tsr s = .ok d u → violations d trr ca acc ≠ [] →
      translate trr tsr ca acc s = .error (.fault (.accessViolation (violations d trr ca acc))) u ∧ u.ptwam = s.ptwam

/-- The page of a paged segment: a held PTW is promoted, with no access; otherwise the PTW at `ADDR + p` is read, an invalid one is a
directed fault with its number, a valid one is filled in, and its U written back where that is asked for; then a write
access marks the page, and the address is the frame's plus the offset in the page (R297 to R300, R330, R331). -/
def Obligations.PageTranslates : Prop :=
  ∀ (s : State) (d : Sdw) (tsr : Segno) (ca : Word18) (acc : Access) (p : Word18) (pta : Word24),
    p = BitVec.ofNat 18 (ca.toNat / s.config.pageSize) →
    pta = BitVec.ofNat 24 (d.addr.toNat + ca.toNat / s.config.pageSize) →
    let ends (j : Fin 64) (frame : Word18) (t : State) : Prop :=
      (isWrite acc = false → pagedAddress d tsr ca acc s =
        .ok (BitVec.ofNat 24 (frame.toNat * 64 + ca.toNat % s.config.pageSize)) t) ∧
      (isWrite acc = true → ∀ v, markModified j pta t = .ok () v → pagedAddress d tsr ca acc s =
        .ok (BitVec.ofNat 24 (frame.toNat * 64 + ca.toNat % s.config.pageSize)) v)
    (∀ j, (s.ptwam.get j).full = true → (s.ptwam.get j).body.pointer = tsr → (s.ptwam.get j).body.pageno = p →
      PtwamUnique s.ptwam → ends j (s.ptwam.get j).body.addr { s with ptwam := amPromote s.ptwam j }) ∧
    ∀ w, (∀ j, (s.ptwam.get j).full = true → (s.ptwam.get j).body.pointer = tsr → (s.ptwam.get j).body.pageno ≠ p) →
      pta.toNat < s.config.memSize → memLookup s.mem pta.toNat = some w →
      let u := { s with events := s.events ++ [.read pta w .descriptorRead] }
      let fill := amFill s.ptwam ⟨tsr, p, w.extractLsb' 18 18, w.getLsbD 6⟩
      let v := { u with ptwam := fill.2 }
      (w.getLsbD 2 = false → pagedAddress d tsr ca acc s = .error (.fault (.directedFault (w.extractLsb' 0 2))) u) ∧
      (w.getLsbD 2 = true → ends fill.1 (w.extractLsb' 18 18)
        (if s.config.ptwWriteback = true ∧ w.getLsbD 9 = false then
          { v with mem := memStore s.mem pta.toNat (w ||| 0o1000), events := u.events ++ [.write pta (w ||| 0o1000) .descriptorWrite] }
        else v))

/-- A write access sets its page's M. Under PTW_WRITEBACK, where the in-core PTW's M is 0, that PTW is read and written with M and U set
and every other bit kept, whatever the entry's M was; where it is 1 memory is not accessed; without PTW_WRITEBACK it never is (R300). A
PTW that does not exist faults (R302): that it is visited is DEDUCED (log entry 8). -/
def Obligations.WrittenPageIsModified : Prop :=
  ∀ (s : State) (j : Fin 64) (pta : Word24),
    let u := { s with ptwam := amModify s.ptwam j fun p => { p with m := true } }
    (s.config.ptwWriteback = false → markModified j pta s = .ok () u) ∧
    (s.config.ptwWriteback = true → s.config.memSize ≤ pta.toNat →
      markModified j pta s = .error (.fault (.nonexistentMemory pta)) u) ∧
    ∀ w, s.config.ptwWriteback = true → pta.toNat < s.config.memSize → memLookup s.mem pta.toNat = some w →
      markModified j pta s = .ok () (
        if w.getLsbD 6 then u
        else { u with mem := memStore s.mem pta.toNat (w ||| 0o1100),
                      events := s.events ++ [.read pta w .descriptorRead, .write pta (w ||| 0o1100) .descriptorWrite] })

/-- A translation, whether it answers or faults, writes no register: the AMs and the event record alone change, and memory only
under PTW_WRITEBACK, where a word that changes keeps every bit but U and M (R300, R303). -/
def Obligations.TranslationFrame : Prop :=
  ∀ (trr : Ring) (tsr : Segno) (ca : Word18) (acc : Access) (s t : State),
    (∃ r, translate trr tsr ca acc s = .ok r t) ∨ (∃ e, translate trr tsr ca acc s = .error e t) →
      t = { s with sdwam := t.sdwam, ptwam := t.ptwam, mem := t.mem, events := t.events } ∧
      (s.config.ptwWriteback = false → t.mem = s.mem) ∧
      ∀ a, memLookup t.mem a = memLookup s.mem a ∨
        ∃ w w', memLookup s.mem a = some w ∧ memLookup t.mem a = some w' ∧ w' &&& ~~~0o1100#36 = w &&& ~~~0o1100#36

/-! ### The associative memories -/

/-- A promotion gives its entry the largest counter and takes one from every counter above the entry's old one; F and the descriptor of
every entry and every other counter stay, for empty entries like any other (R321). So the counters, a permutation of 0 to 63 at
reset, stay one under a promotion, a fill and an invalidation, and exactly one entry has USE = 0 (R323). -/
def Obligations.CountersAgeAndStayPermutation : Prop :=
  ∀ (α : Type) (b : α), UsePermutation (amReset b) ∧ ∀ m : Am α,
    (∀ i k, (amPromote m i).get k =
      if k = i then { m.get k with use := 63 }
      else if (m.get i).use < (m.get k).use then { m.get k with use := BitVec.ofNat 6 ((m.get k).use.toNat - 1) }
      else m.get k) ∧
    (UsePermutation m →
      (∀ i, UsePermutation (amPromote m i)) ∧ (∀ b, UsePermutation (amFill m b).2) ∧ UsePermutation (amInvalidate m) ∧
      ∃! i, (m.get i).use = 0)

/-- The victim is the lowest-index empty entry if there is one, otherwise the entry with USE = 0 (R323, R324). -/
def Obligations.VictimChoice : Prop :=
  ∀ (α : Type) (m : Am α),
    (∀ i, (m.get i).full = false → (∀ j < i, (m.get j).full = true) → amVictim m = i) ∧
    (UsePermutation m → (∀ i, (m.get i).full = true) → (m.get (amVictim m)).use = 0)

/-- After a reset the first 64 fills take entries 0, 1, … in order, and the 65th takes entry 0, the one filled first (R343). -/
def Obligations.FillOrderAfterReset : Prop :=
  ∀ (α : Type) (b : α) (l : List α), l.length ≤ 64 →
    let m := l.foldl (fun m b => (amFill m b).2) (amReset b)
    (∀ j : Fin 64, m.get j = if h : j.val < l.length then ⟨true, BitVec.ofNat 6 (64 - l.length + j.val), l[j.val]⟩
      else ⟨false, BitVec.ofNat 6 (j.val - l.length), b⟩) ∧
    (amVictim m).val = if l.length = 64 then 0 else l.length

/-! ### Register modification -/

/-- A register tag adds its register to TPR.CA modulo 2^18 and ends the resolution in the word there: read, written or only
addressed (R165, R167, R170, R171, R173, R174, R187). -/
def Obligations.RegisterTagCompletes : Prop :=
  ∀ r ri ir td v, (r, ri, ir, td, v) ∈ registerRows → ∀ s t : State, s.inIr = false →
    WordEnd (withCa (s.tpr.ca + v s) s) t → exec r s = .next t

/-- `du` and `dl`: the address is the operand, in the upper or the lower half, with no memory access; a store faults (R137, R166, R172). -/
def Obligations.DirectOperandCompletes : Prop :=
  ∀ r ri ir td word, (r, ri, ir, td, word) ∈ directRows → ∀ s : State, s.inIr = false →
    ((∀ v, s.op ≠ .write v) → exec r s = .next (endWith (.result ⟨s.tpr.ca, .direct, some (word s.tpr.ca)⟩) s)) ∧
    ∀ v, s.op = .write v → exec r s = .next (takeFault (.illegalModifier .directStore) s)

/-- An IR chain ends at any R tag, whose own designator is ignored: the held register is added, or the held direct operand is the address
of the last indirect word (R182, R186). -/
def Obligations.ChainEndsWithHeldDesignator : Prop :=
  ∀ instr ∈ registerTags, ∀ s : State, s.inIr = true →
    (∀ r ri ir td v, (r, ri, ir, td, v) ∈ registerRows → s.ctHold = td → ∀ t,
      WordEnd (withCa (s.tpr.ca + v s) s) t → exec instr s = .next t) ∧
    ∀ r ri ir td word, (r, ri, ir, td, word) ∈ directRows → s.ctHold = td →
      ((∀ v, s.op ≠ .write v) → exec instr s = .next (endWith (.result ⟨s.tpr.ca, .direct, some (word s.tpr.ca)⟩) s)) ∧
      ∀ v, s.op = .write v → exec instr s = .next (takeFault (.illegalModifier .directStore) s)

/-! ### Indirection -/

/-- A register-then-indirect tag adds its register, fetches the indirect word there, and leaves its tag or pointer pair to be dispatched
(R164, R175, R183). -/
def Obligations.RegisterIndirectCompletes : Prop :=
  ∀ r ri ir td v, (r, ri, ir, td, v) ∈ registerRows → ∀ s t : State,
    IndirectEnd (withCa (s.tpr.ca + v s) s) t → exec ri s = .next t

/-- `du*` and `dl*` fault before any register is read or memory accessed, in and outside an IR chain (R176). -/
def Obligations.DirectAfterRiFaults : Prop :=
  ∀ r ri ir td word, (r, ri, ir, td, word) ∈ directRows → ∀ s : State,
    exec ri s = .next (takeFault (.illegalModifier .directAfterRi) s)

/-- An indirect-then-register tag holds its designator, in place of an older one, and fetches the indirect word; its tag or pointer pair is
dispatched next, inside the chain (R164, R180, R184). -/
def Obligations.IndirectRegisterCompletes : Prop :=
  ∀ instr td, (instr, td) ∈ indirectRegisterRows → ∀ s t : State,
    IndirectEnd { s with ctHold := td, inIr := true } t → exec instr s = .next t

/-- Under a finite MAX_INDIRECT_DEPTH every fetch of an indirect or tally word beyond it faults before the fetch (R163, R368). -/
def Obligations.ChainLimitFaults : Prop :=
  ∀ (s : State) (m : Nat), s.config.maxIndirectDepth = some m → m ≤ s.depth →
    (∀ r ri ir td v, (r, ri, ir, td, v) ∈ registerRows →
      exec ri s = .next (takeFault .indirectChainLimit (counted (withCa (s.tpr.ca + v s) s)))) ∧
    (∀ instr td, (instr, td) ∈ indirectRegisterRows →
      exec instr s = .next (takeFault .indirectChainLimit (counted { s with ctHold := td, inIr := true }))) ∧
    ∀ instr ∈ tallyBearing ++ [.ci, .i], TallyPerformed s →
      exec instr s = .next (takeFault .indirectChainLimit (counted { s with inIr := false }))

/-! ### Indirect-tally modification -/

/-- AD, SD, DI and ID: the tally word is rewritten with its address and tally changed, TRO tells whether the tally is 0, and the
resolution ends in the word at the address used (R221, R223, R224, R230 to R233). -/
def Obligations.WordTallyCompletes : Prop :=
  ∀ instr fy ft fa, (instr, fy, ft, fa) ∈ wordTallyRows → ∀ (s t u : State) (w : Word36), TallyPerformed s →
    TallyUpdated { s with inIr := false } w (fy w) (ft w) (wordLow6 w) u → WordEnd (withCa (fa w) u) t → exec instr s = .next t

/-- DIC and IDC: the same update, and the continuation tag of the word, any register designator in it forced to none, is dispatched
next at the address used (R234, R236, R241). -/
def Obligations.ContinueTallyCompletes : Prop :=
  ∀ instr fy ft fa, (instr, fy, ft, fa) ∈ continueTallyRows → ∀ (s u : State) (w : Word36), TallyPerformed s →
    TallyUpdated { s with inIr := false } w (fy w) (ft w) (wordLow6 w) u →
    exec instr s = .next (withPhase (.dispatch (
      if (wordLow6 w).extractLsb' 4 2 = 2 then wordLow6 w else (wordLow6 w).extractLsb' 4 2 ++ 0#4)) (withCa (fa w) u))

/-- SC: the word is advanced to the next character, with a carry into the address after the last, and the tally falls; the resolution ends
in the character named before (R225, R228). -/
def Obligations.SequenceCharacterCompletes : Prop :=
  ∀ (s t u : State) (w : Word36) (sz : CharSize) (n : Nat), TallyPerformed s →
    (sz, n) = (if w.getLsbD 5 then (.nine, 4) else (.six, 6)) → (wordCf w).toNat < n →
    TallyUpdated { s with inIr := false } w (if (wordCf w).toNat + 1 = n then wordY w + 1 else wordY w) (wordTally w - 1)
      (wordSz w ++ if (wordCf w).toNat + 1 = n then 0#3 else wordCf w + 1) u →
    CharEnd (withCa (wordY w) u) sz (wordCf w) t → exec .sc s = .next t

/-- SCR: the word is moved back to the character before, with a borrow from the address before the first, and the tally rises; the
resolution ends in that character (R225, R229). -/
def Obligations.SequenceCharacterReverseCompletes : Prop :=
  ∀ (s t u : State) (w : Word36) (sz : CharSize) (n : Nat) (y : Word18) (k : BitVec 3), TallyPerformed s →
    (sz, n) = (if w.getLsbD 5 then (.nine, 4) else (.six, 6)) → (wordCf w).toNat < n →
    y = (if wordCf w = 0 then wordY w - 1 else wordY w) → k = (if wordCf w = 0 then BitVec.ofNat 3 (n - 1) else wordCf w - 1) →
    TallyUpdated { s with inIr := false } w y (wordTally w + 1) (wordSz w ++ k) u →
    CharEnd (withCa y u) sz k t → exec .scr s = .next t

/-- CI and I: no tally and no rewrite; the resolution ends in the character named, or in the word at the address, the low six bits not
interpreted (R225, R227, R235). -/
def Obligations.TallyFreeCompletes : Prop :=
  ∀ (s t u : State) (w : Word36), TallyPerformed s → TallyRead { s with inIr := false } w u →
    (∀ sz n, (sz, n) = (if w.getLsbD 5 then (.nine, 4) else (.six, 6)) → (wordCf w).toNat < n →
      CharEnd (withCa (wordY w) u) sz (wordCf w) t → exec .ci s = .next t) ∧
    (WordEnd (withCa (wordY w) u) t → exec .i s = .next t)

/-- CI, SC and SCR fault on a character position beyond the size's maximum, before any write (R225). -/
def Obligations.CharPositionFaults : Prop :=
  ∀ instr ∈ [Instr.ci, .sc, .scr], ∀ (s u : State) (w : Word36), TallyPerformed s → TallyRead { s with inIr := false } w u →
    (if w.getLsbD 5 then 4 else 6) ≤ (wordCf w).toNat →
    exec instr s = .next (takeFault (.illegalModifier .charPosition) u)

/-- The reserved IT designators fault before any memory access or register read: f1, f2 and f3 with their fault tags, 1, 2 and 3 as illegal
(R237 to R240). -/
def Obligations.ReservedDesignatorsFault : Prop :=
  ∀ instr f, (instr, f) ∈ [(Instr.f1, Fault.faultTag .f1), (.f2, .faultTag .f2), (.f3, .faultTag .f3),
      (.itp, .illegalModifier .reservedIt), (.itReserved42, .illegalModifier .reservedIt), (.its, .illegalModifier .reservedIt)] →
    ∀ s : State, TallyPerformed s → exec instr s = .next (takeFault f { s with inIr := false })

/-- Under IR_IT_POLICY = Fault every IT tag met in an IR chain faults, with nothing else changed (R185). -/
def Obligations.TallyInChainFaults : Prop :=
  ∀ instr ∈ indirectTallyTags, ∀ s : State, s.inIr = true → s.config.irItPolicy = .fault →
    exec instr s = .next (takeFault (.illegalModifier .itInIrChain) s)

/-- A character is read from its bits, position 0 most significant; a character written is read back, and every other character and bit of the
word is kept (R85, R226). -/
def Obligations.CharacterReadAndInsert : Prop :=
  ∀ (w v : Word36) (k : Nat),
    (k < 6 → charAt w .six k = (w.extractLsb' (30 - 6 * k) 6).setWidth 36 ∧
      ∀ j < 36, (charInsert w .six k v).getLsbD j =
        if 30 - 6 * k ≤ j ∧ j < 36 - 6 * k then v.getLsbD (j - (30 - 6 * k)) else w.getLsbD j) ∧
    (k < 4 → charAt w .nine k = (w.extractLsb' (27 - 9 * k) 9).setWidth 36 ∧
      ∀ j < 36, (charInsert w .nine k v).getLsbD j =
        if 27 - 9 * k ≤ j ∧ j < 36 - 9 * k then v.getLsbD (j - (27 - 9 * k)) else w.getLsbD j)

/-! ### Pointer pairs -/

/-- An ITS pair reads its odd word in the mode and segment of the even one; then TPR has the pair's segment, the largest of the pair's
ring, the ring term and its own, and the odd word's address and bit offset (R255 to R258, R260 to R262). -/
def Obligations.ItsPairCompletes : Prop :=
  ∀ (segno : Segno) (rn : Ring) (s u : State) (odd : Word36) (sdw : Option Sdw), s.addrMode ≠ .bar →
    s.tpr.ca.getLsbD 0 = false → ReadsAt s (s.tpr.ca + 1) .indirectRead odd sdw u →
    exec (.itsPair segno rn) s = .next (afterPair
      ⟨BitVec.ofNat 3 (max (max rn.toNat s.ringTerm.toNat) s.tpr.trr.toNat), segno, odd.extractLsb' 9 6, odd.extractLsb' 18 18⟩
      odd u)

/-- An ITP pair does so with a pointer register's segment, ring and word number, to which the odd word's is added (R255 to R257, R259 to
R262). -/
def Obligations.ItpPairCompletes : Prop :=
  ∀ (prnum : BitVec 3) (p : PtrReg) (s u : State) (odd : Word36) (sdw : Option Sdw), s.addrMode ≠ .bar →
    s.tpr.ca.getLsbD 0 = false → ReadsAt s (s.tpr.ca + 1) .indirectRead odd sdw u → s.pr[prnum.toNat] = p →
    exec (.itpPair prnum) s = .next (afterPair
      ⟨BitVec.ofNat 3 (max (max p.rnr.toNat s.ringTerm.toNat) s.tpr.trr.toNat), p.snr, odd.extractLsb' 9 6,
        p.wordno + odd.extractLsb' 18 18⟩ odd u)

/-- A pointer pair in BAR mode, and one that begins at an odd address, fault before the odd word is read (R256, R264). -/
def Obligations.PairFaults : Prop :=
  ∀ (instr : Instr) (s : State), isPair instr = true →
    (s.addrMode = .bar → exec instr s = .next (takeFault (.illegalModifier .pointerPairInBar) s)) ∧
    (s.addrMode ≠ .bar → s.tpr.ca.getLsbD 0 = true →
      exec instr s = .next (takeFault (.illegalModifier .pointerPairOdd) s))

/-- A resolution that ends, normally or by a fault, ends its escalation; while it goes on only a pointer pair changes the mode or the record
(R168, R263, R380). -/
def Obligations.EscalationEndsWithResolution : Prop :=
  ∀ (instr : Instr) (s t : State), exec instr s = .next t →
    (t.phase = .idle → t.escSaved = none ∧ t.addrMode = s.escSaved.getD s.addrMode) ∧
    (t.phase ≠ .idle → isPair instr = false → t.escSaved = s.escSaved ∧ t.addrMode = s.addrMode)

/-! ### Faults -/

/-- A fault is taken: what was done before it stays, the escalation is undone and the fault value is the reply; so is the fault of every
memory access of an instruction, in the state that access leaves (R13, R360, R371). No instruction answers the host's fault, and
the one refusal of an instruction is the read of an existing memory word that nothing has written. That a fault is a next state is
the model's form (log entry 4). That an unwritten memory word is refused is the model's choice (log entry 2), and that it is the only
refusal rests on another: R33 and R369 have an unwritten register refuse too, where the model's registers hold a value from
reset on (log entry 1). -/
def Obligations.FaultsAreTaken : Prop :=
  (∀ (f : Fault) (s : State), takeFault f s =
    { s with addrMode := s.escSaved.getD s.addrMode, escSaved := none, reply := .fault f, phase := .idle }) ∧
  ∀ (instr : Instr) (s : State), (∀ f, exec instr s ≠ .fault f) ∧
    (∀ r, exec instr s = .refused r → ∃ pa, r = .unwritten pa ∧ pa.toNat < s.config.memSize ∧ memLookup s.mem pa.toNat = none) ∧
    ∀ f t, AccessRaises instr s f t → exec instr s = .next (takeFault f t)

/-- A fault of the operand access of a tally-bearing instruction that has one, the read or the write of AD, SD, DI or ID and the read or the
write after it of SC or SCR, leaves the tally word rewritten and TRO written, so a restart updates it again (R224, R371, R377,
R412). -/
def Obligations.OperandFaultKeepsRewrite : Prop :=
  (∀ instr fy ft fa, (instr, fy, ft, fa) ∈ wordTallyRows → ∀ (s u v : State) (w : Word36) (f : Fault), TallyPerformed s →
    TallyUpdated { s with inIr := false } w (fy w) (ft w) (wordLow6 w) u → WordFaults (withCa (fa w) u) f v →
    exec instr s = .next (takeFault f v) ∧ v.tro = decide (ft w = 0) ∧ (s.config.ptwWriteback = false → v.mem = u.mem)) ∧
  ∀ instr fy ft fl fa fk, (instr, fy, ft, fl, fa, fk) ∈ sequenceRows → ∀ (s u v : State) (w : Word36) (f : Fault), TallyPerformed s →
    (wordCf w).toNat < charsOf w → TallyUpdated { s with inIr := false } w (fy w) (ft w) (fl w) u →
    CharFaults (withCa (fa w) u) (if w.getLsbD 5 then .nine else .six) (fk w) f v →
    exec instr s = .next (takeFault f v) ∧ v.tro = decide (ft w = 0) ∧ (s.config.ptwWriteback = false → v.mem = u.mem)

/-! ### Frames -/

/-- No instruction writes a register the core only reads, the parameters, the operation or the requests, and none outside APPENDING mode
an associative memory (R31, R32, R34, R37, R42 to R44, R48). -/
def Obligations.InputsNeverWritten : Prop :=
  ∀ (instr : Instr) (s t : State), exec instr s = .next t → SameInputs s t ∧
    (s.addrMode ≠ .appending → t.sdwam = s.sdwam ∧ t.ptwam = s.ptwam)

/-- No instruction lowers the effective ring, and only a pointer pair changes TPR's ring, segment or bit offset (R242, R379). -/
def Obligations.RingNeverFalls : Prop :=
  ∀ (instr : Instr) (s t : State), exec instr s = .next t → s.tpr.trr ≤ t.tpr.trr ∧
    (isPair instr = false → t.tpr.trr = s.tpr.trr ∧ t.tpr.tsr = s.tpr.tsr ∧ t.tpr.tbr = s.tpr.tbr)

/-- Only the tally-bearing instructions write TRO, only IR tags write CT_HOLD, and an R tag, a pointer pair and a reserved designator count no
fetch (R38, R39, R163, R223). -/
def Obligations.IndicatorAndHoldFrame : Prop :=
  ∀ (instr : Instr) (s t : State), exec instr s = .next t →
    (instr ∉ tallyBearing → t.tro = s.tro) ∧ (instr ∉ indirectRegisterRows.map Prod.fst → t.ctHold = s.ctHold) ∧
    (instr ∈ registerTags ++ [.f1, .f2, .f3, .itp, .itReserved42, .its] ∨ isPair instr = true → t.depth = s.depth) ∧
    t.depth ≤ s.depth + 1

/-- After every instruction memory is the memory before with the recorded writes applied in order (R84, R96, R104). -/
def Obligations.MemoryFollowsEvents : Prop :=
  ∀ (instr : Instr) (s t : State), exec instr s = .next t → ∃ es, t.events = s.events ++ es ∧ t.mem = es.foldl applyEvent s.mem

/-- An instruction that stores nothing leaves every word as it was, but for page table words written back: every one that is not tally-bearing,
and an R tag, CI or I when the operation is no write (R96, R300). -/
def Obligations.NonStoringFrame : Prop :=
  ∀ (instr : Instr) (s t : State), exec instr s = .next t → instr ∉ tallyBearing →
    (instr ∈ registerTags ++ [.ci, .i] → ∀ v, s.op ≠ .write v) →
    ∀ a, ¬ WroteBack s t a → memLookup t.mem a = memLookup s.mem a

/-- An R tag's store changes only the word at the address formed of its computed address, but for page table words written back (R89,
R165, R167). -/
def Obligations.RegisterStoreFrame : Prop :=
  ∀ instr ∈ registerTags, ∀ (s t : State) (v : Word36) (ca : Word18), s.op = .write v →
    ca = s.tpr.ca + (regValue (if s.inIr then s.ctHold else tagTd (tagOf instr)) s).1 → exec instr s = .next t →
    ∀ a, ¬ WroteBack s t a → (∀ r u, formAddress ca .operandWrite (withCa ca s) = .ok r u → r.1.toNat ≠ a) →
      memLookup t.mem a = memLookup s.mem a

/-- A tally-bearing instruction that ends in no store, and DIC and IDC always, changes only the tally word, but for page table words
written back (R224). -/
def Obligations.TallyRewriteFrame : Prop :=
  ∀ instr ∈ tallyBearing, ∀ (s t : State), instr ∈ [Instr.dic, .idc] ∨ (∀ v, s.op ≠ .write v) → exec instr s = .next t →
    ∀ a, ¬ WroteBack s t a →
      (∀ w u r v, TallyRead { s with inIr := false } w u → formAddress s.tpr.ca .indirectWrite u = .ok r v → r.1.toNat ≠ a) →
      memLookup t.mem a = memLookup s.mem a

/-- A store through AD, SD, DI or ID changes only the tally word and the word at the address used, but for page table words written
back (R224, R230 to R233). -/
def Obligations.WordTallyStoreFrame : Prop :=
  ∀ instr fy ft fa, (instr, fy, ft, fa) ∈ wordTallyRows → ∀ (s t : State) (x : Word36), s.op = .write x → exec instr s = .next t →
    ∀ a, ¬ WroteBack s t a →
      (∀ w u r v, TallyRead { s with inIr := false } w u → formAddress s.tpr.ca .indirectWrite u = .ok r v → r.1.toNat ≠ a) →
      (∀ w u r v, TallyUpdated { s with inIr := false } w (fy w) (ft w) (wordLow6 w) u →
        formAddress (fa w) .operandWrite (withCa (fa w) u) = .ok r v → r.1.toNat ≠ a) →
      memLookup t.mem a = memLookup s.mem a

/-- A store through CI or I changes only the word at the address of the indirect word, but for page table words written back (R226,
R227, R235). -/
def Obligations.TallyFreeStoreFrame : Prop :=
  ∀ (s t : State) (x : Word36), s.op = .write x → ∀ a, ¬ WroteBack s t a →
    (exec .i s = .next t → (∀ w u r v, TallyRead { s with inIr := false } w u →
      formAddress (wordY w) .operandWrite (withCa (wordY w) u) = .ok r v → r.1.toNat ≠ a) → memLookup t.mem a = memLookup s.mem a) ∧
    (exec .ci s = .next t → (∀ w u c sdw u' r v, TallyRead { s with inIr := false } w u →
      ReadsAt (withCa (wordY w) u) (wordY w) .operandRead c sdw u' → formAddress (wordY w) .operandWrite u' = .ok r v →
      r.1.toNat ≠ a) → memLookup t.mem a = memLookup s.mem a)

/-- A store through SC or SCR changes only the tally word and the word that holds the character, but for page table words written back
(R224, R226, R228, R229). -/
def Obligations.SequenceStoreFrame : Prop :=
  ∀ instr fy ft fl fa fk, (instr, fy, ft, fl, fa, fk) ∈ sequenceRows → ∀ (s t : State) (x : Word36), s.op = .write x →
    exec instr s = .next t → ∀ a, ¬ WroteBack s t a →
      (∀ w u r v, TallyRead { s with inIr := false } w u → formAddress s.tpr.ca .indirectWrite u = .ok r v → r.1.toNat ≠ a) →
      (∀ w u c sdw u' r v, TallyUpdated { s with inIr := false } w (fy w) (ft w) (fl w) u →
        ReadsAt (withCa (fa w) u) (fa w) .operandRead c sdw u' → formAddress (fa w) .operandWrite u' = .ok r v →
        r.1.toNat ≠ a) → memLookup t.mem a = memLookup s.mem a

/-! ### Invariants and whole-machine rules -/

/-- Every step keeps the invariant: canonical memory of existing addresses, permutations and unique keys in the AMs, page numbers in range, escalations
only from ABSOLUTE mode and only during a resolution, and the chain limit (R45, R46, R81, R163, R263, R323, R326). -/
def Obligations.InvariantKept : Prop := ∀ s t : State, Inv s → step s = .next t → Inv t

/-- The reset state meets the invariant. Its parameters are the model's choice where the spec leaves them OPEN (log entry 3). -/
def Obligations.ResetMeetsInvariant : Prop := Inv State.reset

/-- With a finite MAX_INDIRECT_DEPTH every resolution in progress ends, in a result or a fault or the refusal of an unwritten word (R163,
R368, R415). The bound 2m + 2 counts the model's own steps, two for a fetch that meets a pointer pair (log entry 6). -/
def Obligations.BoundedResolutionEnds : Prop :=
  ∀ (s : State) (m : Nat), s.config.maxIndirectDepth = some m → s.phase ≠ .idle →
    ∃ k ≤ 2 * m + 2, (∃ t : State, Host.Core.run Sys2Proof.core k s = .next t ∧ t.phase = .idle) ∨
      ∃ pa, Host.Core.run Sys2Proof.core k s = .refused (Refusal.unwritten pa)

/-- Without a limit an indirect word that points to itself with tag `n*` is fetched for ever (R415). -/
def Obligations.SelfIndirectionNeverEnds : Prop :=
  ∀ (s : State) (w : Word36), s.config.maxIndirectDepth = none → s.phase = .dispatch 0o20 → s.addrMode = .absolute →
    s.tpr.ca.toNat < s.config.memSize → memLookup s.mem s.tpr.ca.toNat = some w → wordY w = s.tpr.ca →
    wordTag w = 0o20 → ∀ k, ∃ t : State, Host.Core.run Sys2Proof.core k s = .next t ∧ t.phase = .dispatch 0o20 ∧
      t.tpr.ca = s.tpr.ca ∧ t.mem = s.mem ∧
      t.events = s.events ++ List.replicate k (.read (s.tpr.ca.setWidth 24) w (.logical .indirectRead))
end

