-- ==== Sys2Proof/Laws/Act.lean ====
section
/-! SUPPORT. How actions run: sequencing, the state an action leaves, and what every action of a kind keeps. -/

namespace Sys2Proof.Machine

variable {α β : Type}

/-! ### Running -/

@[simp] theorem act_pure (a : α) (s : State) : (pure a : Act α) s = .ok a s := rfl

theorem act_bind (m : Act α) (f : α → Act β) (s : State) :
    (m >>= f) s = match m s with | .ok a t => f a t | .error e t => .error e t := by
  cases h : m s <;> simp [bind, EStateM.bind, h]

theorem act_map (f : α → β) (m : Act α) (s : State) :
    (f <$> m) s = match m s with | .ok a t => .ok (f a) t | .error e t => .error e t := by
  rw [map_eq_pure_bind, act_bind]; cases m s <;> rfl

@[simp] theorem act_get (s : State) : (get : Act State) s = .ok s s := rfl

@[simp] theorem read_apply (f : State → α) (s : State) : read f s = .ok (f s) s := rfl

@[simp] theorem update_apply (f : State → State) (s : State) : update f s = .ok () (f s) := rfl

@[simp] theorem raise_apply (f : Fault) (s : State) : (raise f : Act α) s = .error (.fault f) s := rfl

@[simp] theorem refuse_apply (r : Refusal) (s : State) : (refuse r : Act α) s = .error (.refused r) s := rfl

@[simp] theorem raiseIf_false (f : Fault) (s : State) : raiseIf false f s = .ok () s := rfl

@[simp] theorem raiseIf_true (f : Fault) (s : State) : raiseIf true f s = .error (.fault f) s := rfl

theorem raiseIf_apply (c : Bool) (f : Fault) (s : State) :
    raiseIf c f s = if c then .error (.fault f) s else .ok () s := by cases c <;> rfl

theorem act_assoc {γ : Type} (m : Act α) (f : α → Act β) (g : β → Act γ) : (m >>= f) >>= g = m >>= fun a => f a >>= g := by
  funext s
  simp only [act_bind]
  cases m s <;> rfl

theorem act_pure_bind (a : α) (f : α → Act β) : (pure a : Act α) >>= f = f a := rfl

/-- An action that answers lets the next one run in the state it leaves. -/
theorem bind_of_ok {m : Act α} {f : α → Act β} {s t : State} {a : α} (h : m s = .ok a t) : (m >>= f) s = f a t := by
  rw [act_bind, h]

/-- An action that stops stops the sequence. -/
theorem bind_of_error {m : Act α} {f : α → Act β} {s t : State} {e : Stop} (h : m s = .error e t) :
    (m >>= f) s = .error e t := by
  rw [act_bind, h]

/-- A sequence answers exactly when both its actions do. -/
theorem bind_eq_ok {m : Act α} {f : α → Act β} {s u : State} {b : β} :
    (m >>= f) s = .ok b u ↔ ∃ a t, m s = .ok a t ∧ f a t = .ok b u := by
  rw [act_bind]; cases h : m s <;> simp

/-- A sequence stops when its first action does, or its second in the state the first leaves. -/
theorem bind_eq_error {m : Act α} {f : α → Act β} {s u : State} {e : Stop} :
    (m >>= f) s = .error e u ↔ m s = .error e u ∨ ∃ a t, m s = .ok a t ∧ f a t = .error e u := by
  rw [act_bind]; cases h : m s <;> simp

/-! ### What `complete` and `andThen` answer -/

@[simp] theorem andThen_of_ok {m : Act Unit} {k : State → Host.Outcome State Fault Refusal} {s t : State}
    (h : m s = .ok () t) : andThen m k s = k t := by simp [andThen, h]

@[simp] theorem andThen_of_fault {m : Act Unit} {k : State → Host.Outcome State Fault Refusal} {s t : State} {f : Fault}
    (h : m s = .error (.fault f) t) : andThen m k s = .next (takeFault f t) := by simp [andThen, h]

@[simp] theorem andThen_of_refused {m : Act Unit} {k : State → Host.Outcome State Fault Refusal} {s t : State} {r : Refusal}
    (h : m s = .error (.refused r) t) : andThen m k s = .refused r := by simp [andThen, h]

theorem complete_of_ok {m : Act Unit} {s t : State} (h : m s = .ok () t) : complete m s = .next t := andThen_of_ok h

theorem complete_of_fault {m : Act Unit} {s t : State} {f : Fault} (h : m s = .error (.fault f) t) :
    complete m s = .next (takeFault f t) := andThen_of_fault h

theorem complete_of_refused {m : Act Unit} {s t : State} {r : Refusal} (h : m s = .error (.refused r) t) :
    complete m s = .refused r := andThen_of_refused h

/-- A completed operation has a next state in two ways: it answered, or its fault was taken. -/
theorem complete_eq_next {m : Act Unit} {s u : State} :
    complete m s = .next u ↔ m s = .ok () u ∨ ∃ f t, m s = .error (.fault f) t ∧ u = takeFault f t := by
  unfold complete andThen
  rcases h : m s with ⟨⟨⟩, t⟩ | ⟨_ | _, t⟩ <;> simp [eq_comm]

/-- A completed operation is refused exactly where it was. -/
theorem complete_eq_refused {m : Act Unit} {s : State} {r : Refusal} :
    complete m s = .refused r ↔ ∃ t, m s = .error (.refused r) t := by
  unfold complete andThen
  rcases h : m s with ⟨⟨⟩, t⟩ | ⟨_ | _, t⟩ <;> simp

/-- No completed operation answers the host's `fault`: faults are taken. -/
theorem complete_ne_fault (m : Act Unit) (s : State) (f : Fault) : complete m s ≠ .fault f := by
  unfold complete andThen
  rcases m s with ⟨⟨⟩, t⟩ | ⟨_ | _, t⟩ <;> simp

/-! ### The state an action leaves -/

/-- The state an action leaves, whether it answers or stops. -/
def leaves (m : Act α) (s : State) : State :=
  match m s with
  | .ok _ t => t
  | .error _ t => t

theorem leaves_of_ok {m : Act α} {s t : State} {a : α} (h : m s = .ok a t) : leaves m s = t := by simp [leaves, h]

theorem leaves_of_error {m : Act α} {s t : State} {e : Stop} (h : m s = .error e t) : leaves m s = t := by
  simp [leaves, h]

/-- An action relates every state to the state it leaves by `R`. -/
def Keeps (R : State → State → Prop) (m : Act α) : Prop := ∀ s, R s (leaves m s)

/-- A relation that every step of a sequence may be checked against. -/
structure Chains (R : State → State → Prop) : Prop where
  refl : ∀ s, R s s
  trans : ∀ {s t u}, R s t → R t u → R s u

variable {R : State → State → Prop}

theorem keeps_pure (hR : Chains R) (a : α) : Keeps R (pure a : Act α) := fun s => hR.refl s

theorem keeps_read (hR : Chains R) (f : State → α) : Keeps R (read f) := fun s => hR.refl s

theorem keeps_get (hR : Chains R) : Keeps R (get : Act State) := fun s => hR.refl s

theorem keeps_raise (hR : Chains R) (f : Fault) : Keeps R (raise f : Act α) := fun s => hR.refl s

theorem keeps_refuse (hR : Chains R) (r : Refusal) : Keeps R (refuse r : Act α) := fun s => hR.refl s

theorem keeps_raiseIf (hR : Chains R) (c : Bool) (f : Fault) : Keeps R (raiseIf c f) := by
  cases c
  · exact keeps_pure hR ()
  · exact keeps_raise hR f

theorem keeps_update {f : State → State} (h : ∀ s, R s (f s)) : Keeps R (update f) := h

/-- A sequence keeps what both its actions keep. -/
theorem keeps_bind (hR : Chains R) {m : Act α} {f : α → Act β} (hm : Keeps R m) (hf : ∀ a, Keeps R (f a)) :
    Keeps R (m >>= f) := by
  intro s
  have h := hm s
  rcases hms : m s with ⟨a, t⟩ | ⟨e, t⟩
  · rw [leaves_of_ok hms] at h
    have hf' := hf a t
    unfold leaves at hf' ⊢
    rw [bind_of_ok hms]
    exact hR.trans h hf'
  · rw [leaves_of_error hms] at h
    rwa [leaves_of_error (bind_of_error hms)]

theorem keeps_ite (c : Prop) [Decidable c] {m n : Act α} (hm : Keeps R m) (hn : Keeps R n) :
    Keeps R (if c then m else n) := by
  split <;> assumption

/-- What an action keeps it keeps of the state it answers in. -/
theorem keeps_of_ok {m : Act α} (h : Keeps R m) {s t : State} {a : α} (hm : m s = .ok a t) : R s t := by
  simpa [leaves_of_ok hm] using h s

/-- What an action keeps it keeps of the state it stops in. -/
theorem keeps_of_error {m : Act α} (h : Keeps R m) {s t : State} {e : Stop} (hm : m s = .error e t) : R s t := by
  simpa [leaves_of_error hm] using h s

/-- Keeping an equation of a projection is a chain. -/
theorem chains_eq {γ : Type} (f : State → γ) : Chains fun s t => f t = f s :=
  ⟨fun _ => rfl, fun h k => k.trans h⟩

/-- Keeping a property of the state is a chain. -/
theorem chains_imp (P : State → Prop) : Chains fun s t => P s → P t :=
  ⟨fun _ h => h, fun h k p => k (h p)⟩

end Sys2Proof.Machine
end

