-- ==== Sys2Proof/Laws/Caches.lean ====
section
/-! SUPPORT. The associative memories: what each operation leaves in each entry. -/

namespace Sys2Proof.Machine

variable {α : Type}

theorem am_get_ofFn (f : Fin 64 → AmEntry α) (k : Fin 64) : (Vector.ofFn f).get k = f k := by
  simp

/-- Two associative memories with the same entries are equal. -/
theorem am_ext {m m' : Am α} (h : ∀ k, m.get k = m'.get k) : m = m' := by
  ext i hi
  exact h ⟨i, hi⟩

/-! ### Entry by entry -/

theorem amReset_get (b : α) (k : Fin 64) : (amReset b).get k = ⟨false, BitVec.ofNat 6 k.val, b⟩ := am_get_ofFn _ k

/-- The promoted entry keeps its contents and has the highest counter. -/
theorem amPromote_same (m : Am α) (i : Fin 64) : (amPromote m i).get i = { m.get i with use := useMax } := by
  simp [amPromote]

/-- Every other entry keeps its contents; its counter falls by one where it was above the promoted entry's. -/
theorem amPromote_other {m : Am α} {i k : Fin 64} (h : k ≠ i) :
    (amPromote m i).get k =
      { m.get k with use := if (m.get i).use < (m.get k).use then (m.get k).use - 1#6 else (m.get k).use } := by
  simp only [amPromote, am_get_ofFn, h, if_false]
  split <;> rfl

@[simp] theorem amPromote_full (m : Am α) (i k : Fin 64) : ((amPromote m i).get k).full = (m.get k).full := by
  by_cases h : k = i
  · subst k; simp [amPromote_same]
  · simp [amPromote_other h]

@[simp] theorem amPromote_body (m : Am α) (i k : Fin 64) : ((amPromote m i).get k).body = (m.get k).body := by
  by_cases h : k = i
  · subst k; simp [amPromote_same]
  · simp [amPromote_other h]

@[simp] theorem amInvalidate_get (m : Am α) (k : Fin 64) : (amInvalidate m).get k = { m.get k with full := false } :=
  am_get_ofFn _ k

@[simp] theorem amModify_full (m : Am α) (i k : Fin 64) (f : α → α) : ((amModify m i f).get k).full = (m.get k).full := by
  simp only [amModify, am_get_ofFn]; split <;> rfl

@[simp] theorem amModify_use (m : Am α) (i k : Fin 64) (f : α → α) : ((amModify m i f).get k).use = (m.get k).use := by
  simp only [amModify, am_get_ofFn]; split <;> rfl

theorem amModify_same (m : Am α) (i : Fin 64) (f : α → α) :
    (amModify m i f).get i = { m.get i with body := f (m.get i).body } := by
  simp [amModify]

theorem amModify_other {m : Am α} {i k : Fin 64} (f : α → α) (h : k ≠ i) : (amModify m i f).get k = m.get k := by
  simp [amModify, h]

/-! ### Finding -/

/-- A found index satisfies the test, and no lower one does. -/
theorem amFind_eq_some {m : Am α} {p : AmEntry α → Bool} {i : Fin 64} :
    amFind m p = some i ↔ p (m.get i) = true ∧ ∀ j < i, p (m.get j) = false := by
  unfold amFind
  rw [List.find?_eq_some_iff_getElem]
  constructor
  · rintro ⟨hp, k, hk, hik, hlt⟩
    have hki : i.val = k := by
      have := congrArg Fin.val hik
      simpa using this.symm
    refine ⟨hp, fun j hj => ?_⟩
    have := hlt j.val (by omega)
    simpa using this
  · rintro ⟨hp, hlt⟩
    refine ⟨hp, i.val, by simp, by simp, fun j hj => ?_⟩
    simpa using hlt ⟨j, by omega⟩ hj

/-- Nothing is found exactly when no entry satisfies the test. -/
theorem amFind_eq_none {m : Am α} {p : AmEntry α → Bool} : amFind m p = none ↔ ∀ i, p (m.get i) = false := by
  simp [amFind]

theorem sdwMatches_iff {tsr : Segno} {e : AmEntry Sdw} :
    sdwMatches tsr e = true ↔ e.full = true ∧ e.body.pointer = tsr := by
  simp [sdwMatches]

theorem ptwMatches_iff {tsr : Segno} {page : Word18} {e : AmEntry Ptw} :
    ptwMatches tsr page e = true ↔ e.full = true ∧ e.body.pointer = tsr ∧ e.body.pageno = page := by
  simp [ptwMatches, and_assoc]

/-! ### Filling -/

@[simp] theorem amFill_index (m : Am α) (b : α) : (amFill m b).1 = amVictim m := rfl

/-- The filled entry is full, holds the new descriptor, and has the highest counter. -/
theorem amFill_same (m : Am α) (b : α) : (amFill m b).2.get (amVictim m) = ⟨true, useMax, b⟩ := by
  simp [amFill, amPromote_same]

/-- Every other entry is as a promotion of the filled one leaves it. -/
theorem amFill_other {m : Am α} (b : α) {k : Fin 64} (h : k ≠ amVictim m) :
    (amFill m b).2.get k = (amPromote m (amVictim m)).get k := by
  simp [amFill, amPromote_other h, h]

theorem amFill_full {m : Am α} {b : α} {k : Fin 64} :
    ((amFill m b).2.get k).full = true ↔ k = amVictim m ∨ (m.get k).full = true := by
  by_cases h : k = amVictim m
  · subst k; simp [amFill_same]
  · simp [amFill_other b h, h]

theorem amFill_body {m : Am α} (b : α) (k : Fin 64) :
    ((amFill m b).2.get k).body = if k = amVictim m then b else (m.get k).body := by
  split
  · subst k; simp [amFill_same]
  · rename_i h; simp [amFill_other b h]

end Sys2Proof.Machine
end

