-- ==== Sys2Proof/Laws/Memory.lean ====
section
/-! SUPPORT. Memory as a list: reading after writing, the canonical form, and what each physical access can do. -/

namespace Sys2Proof.Machine

/-! ### Lookup and store -/

/-- Reading after a write: the written address holds the word, every other address holds what it held. -/
theorem memLookup_memStore (m : Memory) (a b : Nat) (w : Word36) :
    memLookup (memStore m a w) b = if b = a then some w else memLookup m b := by
  induction m with
  | nil => simp only [memStore, memLookup]
  | cons e m ih =>
    obtain ⟨c, v⟩ := e
    simp only [memStore]
    split
    · simp only [memLookup]
    · split
      · subst a; simp only [memLookup]; split <;> rfl
      · simp only [memLookup, ih]; split <;> split <;> first | rfl | omega

@[simp] theorem memLookup_memStore_same (m : Memory) (a : Nat) (w : Word36) : memLookup (memStore m a w) a = some w := by
  simp [memLookup_memStore]

theorem memLookup_memStore_other {m : Memory} {a b : Nat} {w : Word36} (h : b ≠ a) :
    memLookup (memStore m a w) b = memLookup m b := by
  simp [memLookup_memStore, h]

/-- A store adds at most its own address to those listed. -/
theorem mem_of_mem_memStore {m : Memory} {a b : Nat} {w v : Word36} (h : (b, v) ∈ memStore m a w) :
    b = a ∧ v = w ∨ (b, v) ∈ m := by
  induction m with
  | nil => simpa [memStore] using h
  | cons e m ih =>
    obtain ⟨c, u⟩ := e
    simp only [memStore] at h
    split at h
    · simpa using h
    · split at h
      · rcases List.mem_cons.1 h with h | h
        · exact .inl (by simpa using h)
        · exact .inr (List.mem_cons_of_mem _ h)
      · rcases List.mem_cons.1 h with h | h
        · exact .inr (by simp [h])
        · exact (ih h).imp_right (List.mem_cons_of_mem _)

/-- What a lookup finds is listed. -/
theorem mem_of_memLookup {m : Memory} {a : Nat} {w : Word36} (h : memLookup m a = some w) : (a, w) ∈ m := by
  induction m with
  | nil => simp [memLookup] at h
  | cons e m ih =>
    obtain ⟨c, u⟩ := e
    simp only [memLookup] at h
    split at h
    · simp_all
    · exact List.mem_cons_of_mem _ (ih h)

/-! ### The canonical form -/

theorem wf_nil : Memory.wf [] := List.Pairwise.nil

theorem wf_cons {a : Nat} {w : Word36} {m : Memory} :
    Memory.wf ((a, w) :: m) ↔ (∀ e ∈ m, a < e.1) ∧ Memory.wf m := by
  simp [Memory.wf]

/-- A store keeps the canonical form. -/
theorem wf_memStore {m : Memory} (h : Memory.wf m) (a : Nat) (w : Word36) : Memory.wf (memStore m a w) := by
  induction m with
  | nil => simp [memStore, Memory.wf]
  | cons e m ih =>
    obtain ⟨c, v⟩ := e
    rw [wf_cons] at h
    simp only [memStore]
    split
    · rename_i hac
      refine wf_cons.2 ⟨fun e he => ?_, wf_cons.2 h⟩
      rcases List.mem_cons.1 he with rfl | he
      · exact hac
      · exact hac.trans (h.1 e he)
    · split
      · subst a; exact wf_cons.2 h
      · refine wf_cons.2 ⟨fun e he => ?_, ih h.2⟩
        obtain ⟨b, u⟩ := e
        rcases mem_of_mem_memStore he with ⟨rfl, -⟩ | he
        · simp only; omega
        · exact h.1 _ he

/-- Memory after reset is in canonical form. -/
theorem wf_reset : Memory.wf State.reset.mem := wf_nil

/-! ### Physical accesses -/

theorem nonexistent_iff (s : State) (pa : Word24) : nonexistent s pa = true ↔ s.config.memSize ≤ pa.toNat := by
  simp [nonexistent]

/-- A physical read of an existing word that holds a value answers it and records the event. -/
theorem physRead_of_written {s : State} {pa : Word24} {w : Word36} (acc : AccessType) (he : pa.toNat < s.config.memSize)
    (hw : memLookup s.mem pa.toNat = some w) : physRead pa acc s = .ok w (withEvent (.read pa w acc) s) := by
  have hn : nonexistent s pa = false := by simp [nonexistent, he]
  simp [physRead, checkExists, fetchWritten, recordEvent, act_bind, act_map, hn, hw]

/-- Everything a physical read can do: it answers a word it found and records it, or stops with the state unchanged. -/
theorem physRead_cases (pa : Word24) (acc : AccessType) (s : State) :
    (s.config.memSize ≤ pa.toNat ∧ physRead pa acc s = .error (.fault (.nonexistentMemory pa)) s) ∨
    (pa.toNat < s.config.memSize ∧ memLookup s.mem pa.toNat = none ∧
      physRead pa acc s = .error (.refused (.unwritten pa)) s) ∨
    (∃ w, pa.toNat < s.config.memSize ∧ memLookup s.mem pa.toNat = some w ∧
      physRead pa acc s = .ok w (withEvent (.read pa w acc) s)) := by
  by_cases he : s.config.memSize ≤ pa.toNat
  · exact .inl ⟨he, by simp [physRead, checkExists, act_bind, nonexistent, he]⟩
  · have hn : nonexistent s pa = false := by simp [nonexistent]; omega
    rcases hw : memLookup s.mem pa.toNat with _ | w
    · exact .inr (.inl ⟨by omega, rfl, by simp [physRead, checkExists, fetchWritten, act_bind, hn, hw]⟩)
    · exact .inr (.inr ⟨w, by omega, rfl, physRead_of_written acc (by omega) hw⟩)

/-- A physical read answers exactly the word that is there. -/
theorem physRead_eq_ok {pa : Word24} {acc : AccessType} {s t : State} {w : Word36} :
    physRead pa acc s = .ok w t ↔
      pa.toNat < s.config.memSize ∧ memLookup s.mem pa.toNat = some w ∧ t = withEvent (.read pa w acc) s := by
  constructor
  · intro h
    rcases physRead_cases pa acc s with ⟨-, h'⟩ | ⟨-, -, h'⟩ | ⟨v, he, hv, h'⟩
    · simp [h'] at h
    · simp [h'] at h
    · rw [h'] at h
      cases h
      exact ⟨he, hv, rfl⟩
  · rintro ⟨he, hw, rfl⟩
    exact physRead_of_written acc he hw

/-- Everything a physical write can do: it stores the word and records it, or faults with the state unchanged. -/
theorem physWrite_cases (pa : Word24) (w : Word36) (acc : AccessType) (s : State) :
    (s.config.memSize ≤ pa.toNat ∧ physWrite pa w acc s = .error (.fault (.nonexistentMemory pa)) s) ∨
    (pa.toNat < s.config.memSize ∧ physWrite pa w acc s = .ok () (withEvent (.write pa w acc) (withWord pa w s))) := by
  by_cases he : s.config.memSize ≤ pa.toNat
  · exact .inl ⟨he, by simp [physWrite, checkExists, act_bind, nonexistent, he]⟩
  · have hn : nonexistent s pa = false := by simp [nonexistent]; omega
    exact .inr ⟨by omega, by simp [physWrite, checkExists, recordEvent, act_bind, hn]⟩

/-- A physical write goes through exactly where the address exists. -/
theorem physWrite_eq_ok {pa : Word24} {w : Word36} {acc : AccessType} {s t : State} {a : Unit} :
    physWrite pa w acc s = .ok a t ↔
      pa.toNat < s.config.memSize ∧ t = withEvent (.write pa w acc) (withWord pa w s) := by
  constructor
  · intro h
    rcases physWrite_cases pa w acc s with ⟨-, h'⟩ | ⟨he, h'⟩
    · simp [h'] at h
    · rw [h'] at h
      cases h
      exact ⟨he, rfl⟩
  · rintro ⟨he, rfl⟩
    rcases physWrite_cases pa w acc s with ⟨h, -⟩ | ⟨-, h'⟩
    · omega
    · exact h'

end Sys2Proof.Machine
end

