-- ==== Sys2Proof/Laws/State.lean ====
section
/-! SUPPORT. One lemma per field of the state per named update of it, so that no later proof unfolds an update. -/

namespace Sys2Proof.Machine

variable (s : State)

/-! ### withEvent -/

@[simp] theorem withEvent_x (e : Event) : (withEvent e s).x = s.x := rfl
@[simp] theorem withEvent_a (e : Event) : (withEvent e s).a = s.a := rfl
@[simp] theorem withEvent_q (e : Event) : (withEvent e s).q = s.q := rfl
@[simp] theorem withEvent_ppr (e : Event) : (withEvent e s).ppr = s.ppr := rfl
@[simp] theorem withEvent_tpr (e : Event) : (withEvent e s).tpr = s.tpr := rfl
@[simp] theorem withEvent_instr (e : Event) : (withEvent e s).instr = s.instr := rfl
@[simp] theorem withEvent_ctHold (e : Event) : (withEvent e s).ctHold = s.ctHold := rfl
@[simp] theorem withEvent_tro (e : Event) : (withEvent e s).tro = s.tro := rfl
@[simp] theorem withEvent_addrMode (e : Event) : (withEvent e s).addrMode = s.addrMode := rfl
@[simp] theorem withEvent_escSaved (e : Event) : (withEvent e s).escSaved = s.escSaved := rfl
@[simp] theorem withEvent_bar (e : Event) : (withEvent e s).bar = s.bar := rfl
@[simp] theorem withEvent_dsbr (e : Event) : (withEvent e s).dsbr = s.dsbr := rfl
@[simp] theorem withEvent_pr (e : Event) : (withEvent e s).pr = s.pr := rfl
@[simp] theorem withEvent_sdwam (e : Event) : (withEvent e s).sdwam = s.sdwam := rfl
@[simp] theorem withEvent_ptwam (e : Event) : (withEvent e s).ptwam = s.ptwam := rfl
@[simp] theorem withEvent_depth (e : Event) : (withEvent e s).depth = s.depth := rfl
@[simp] theorem withEvent_mem (e : Event) : (withEvent e s).mem = s.mem := rfl
@[simp] theorem withEvent_config (e : Event) : (withEvent e s).config = s.config := rfl
@[simp] theorem withEvent_op (e : Event) : (withEvent e s).op = s.op := rfl
@[simp] theorem withEvent_phase (e : Event) : (withEvent e s).phase = s.phase := rfl
@[simp] theorem withEvent_inIr (e : Event) : (withEvent e s).inIr = s.inIr := rfl
@[simp] theorem withEvent_ringTerm (e : Event) : (withEvent e s).ringTerm = s.ringTerm := rfl
@[simp] theorem withEvent_reply (e : Event) : (withEvent e s).reply = s.reply := rfl
@[simp] theorem withEvent_events (e : Event) : (withEvent e s).events = s.events ++ [e] := rfl
@[simp] theorem withEvent_requests (e : Event) : (withEvent e s).requests = s.requests := rfl

/-! ### withWord -/

@[simp] theorem withWord_x (pa : Word24) (w : Word36) : (withWord pa w s).x = s.x := rfl
@[simp] theorem withWord_a (pa : Word24) (w : Word36) : (withWord pa w s).a = s.a := rfl
@[simp] theorem withWord_q (pa : Word24) (w : Word36) : (withWord pa w s).q = s.q := rfl
@[simp] theorem withWord_ppr (pa : Word24) (w : Word36) : (withWord pa w s).ppr = s.ppr := rfl
@[simp] theorem withWord_tpr (pa : Word24) (w : Word36) : (withWord pa w s).tpr = s.tpr := rfl
@[simp] theorem withWord_instr (pa : Word24) (w : Word36) : (withWord pa w s).instr = s.instr := rfl
@[simp] theorem withWord_ctHold (pa : Word24) (w : Word36) : (withWord pa w s).ctHold = s.ctHold := rfl
@[simp] theorem withWord_tro (pa : Word24) (w : Word36) : (withWord pa w s).tro = s.tro := rfl
@[simp] theorem withWord_addrMode (pa : Word24) (w : Word36) : (withWord pa w s).addrMode = s.addrMode := rfl
@[simp] theorem withWord_escSaved (pa : Word24) (w : Word36) : (withWord pa w s).escSaved = s.escSaved := rfl
@[simp] theorem withWord_bar (pa : Word24) (w : Word36) : (withWord pa w s).bar = s.bar := rfl
@[simp] theorem withWord_dsbr (pa : Word24) (w : Word36) : (withWord pa w s).dsbr = s.dsbr := rfl
@[simp] theorem withWord_pr (pa : Word24) (w : Word36) : (withWord pa w s).pr = s.pr := rfl
@[simp] theorem withWord_sdwam (pa : Word24) (w : Word36) : (withWord pa w s).sdwam = s.sdwam := rfl
@[simp] theorem withWord_ptwam (pa : Word24) (w : Word36) : (withWord pa w s).ptwam = s.ptwam := rfl
@[simp] theorem withWord_depth (pa : Word24) (w : Word36) : (withWord pa w s).depth = s.depth := rfl
@[simp] theorem withWord_mem (pa : Word24) (w : Word36) : (withWord pa w s).mem = memStore s.mem pa.toNat w := rfl
@[simp] theorem withWord_config (pa : Word24) (w : Word36) : (withWord pa w s).config = s.config := rfl
@[simp] theorem withWord_op (pa : Word24) (w : Word36) : (withWord pa w s).op = s.op := rfl
@[simp] theorem withWord_phase (pa : Word24) (w : Word36) : (withWord pa w s).phase = s.phase := rfl
@[simp] theorem withWord_inIr (pa : Word24) (w : Word36) : (withWord pa w s).inIr = s.inIr := rfl
@[simp] theorem withWord_ringTerm (pa : Word24) (w : Word36) : (withWord pa w s).ringTerm = s.ringTerm := rfl
@[simp] theorem withWord_reply (pa : Word24) (w : Word36) : (withWord pa w s).reply = s.reply := rfl
@[simp] theorem withWord_events (pa : Word24) (w : Word36) : (withWord pa w s).events = s.events := rfl
@[simp] theorem withWord_requests (pa : Word24) (w : Word36) : (withWord pa w s).requests = s.requests := rfl

/-! ### withCa -/

@[simp] theorem withCa_x (ca : Word18) : (withCa ca s).x = s.x := rfl
@[simp] theorem withCa_a (ca : Word18) : (withCa ca s).a = s.a := rfl
@[simp] theorem withCa_q (ca : Word18) : (withCa ca s).q = s.q := rfl
@[simp] theorem withCa_ppr (ca : Word18) : (withCa ca s).ppr = s.ppr := rfl
@[simp] theorem withCa_tpr (ca : Word18) : (withCa ca s).tpr = { s.tpr with ca := ca } := rfl
@[simp] theorem withCa_instr (ca : Word18) : (withCa ca s).instr = s.instr := rfl
@[simp] theorem withCa_ctHold (ca : Word18) : (withCa ca s).ctHold = s.ctHold := rfl
@[simp] theorem withCa_tro (ca : Word18) : (withCa ca s).tro = s.tro := rfl
@[simp] theorem withCa_addrMode (ca : Word18) : (withCa ca s).addrMode = s.addrMode := rfl
@[simp] theorem withCa_escSaved (ca : Word18) : (withCa ca s).escSaved = s.escSaved := rfl
@[simp] theorem withCa_bar (ca : Word18) : (withCa ca s).bar = s.bar := rfl
@[simp] theorem withCa_dsbr (ca : Word18) : (withCa ca s).dsbr = s.dsbr := rfl
@[simp] theorem withCa_pr (ca : Word18) : (withCa ca s).pr = s.pr := rfl
@[simp] theorem withCa_sdwam (ca : Word18) : (withCa ca s).sdwam = s.sdwam := rfl
@[simp] theorem withCa_ptwam (ca : Word18) : (withCa ca s).ptwam = s.ptwam := rfl
@[simp] theorem withCa_depth (ca : Word18) : (withCa ca s).depth = s.depth := rfl
@[simp] theorem withCa_mem (ca : Word18) : (withCa ca s).mem = s.mem := rfl
@[simp] theorem withCa_config (ca : Word18) : (withCa ca s).config = s.config := rfl
@[simp] theorem withCa_op (ca : Word18) : (withCa ca s).op = s.op := rfl
@[simp] theorem withCa_phase (ca : Word18) : (withCa ca s).phase = s.phase := rfl
@[simp] theorem withCa_inIr (ca : Word18) : (withCa ca s).inIr = s.inIr := rfl
@[simp] theorem withCa_ringTerm (ca : Word18) : (withCa ca s).ringTerm = s.ringTerm := rfl
@[simp] theorem withCa_reply (ca : Word18) : (withCa ca s).reply = s.reply := rfl
@[simp] theorem withCa_events (ca : Word18) : (withCa ca s).events = s.events := rfl
@[simp] theorem withCa_requests (ca : Word18) : (withCa ca s).requests = s.requests := rfl

/-! ### withPhase -/

@[simp] theorem withPhase_x (p : Phase) : (withPhase p s).x = s.x := rfl
@[simp] theorem withPhase_a (p : Phase) : (withPhase p s).a = s.a := rfl
@[simp] theorem withPhase_q (p : Phase) : (withPhase p s).q = s.q := rfl
@[simp] theorem withPhase_ppr (p : Phase) : (withPhase p s).ppr = s.ppr := rfl
@[simp] theorem withPhase_tpr (p : Phase) : (withPhase p s).tpr = s.tpr := rfl
@[simp] theorem withPhase_instr (p : Phase) : (withPhase p s).instr = s.instr := rfl
@[simp] theorem withPhase_ctHold (p : Phase) : (withPhase p s).ctHold = s.ctHold := rfl
@[simp] theorem withPhase_tro (p : Phase) : (withPhase p s).tro = s.tro := rfl
@[simp] theorem withPhase_addrMode (p : Phase) : (withPhase p s).addrMode = s.addrMode := rfl
@[simp] theorem withPhase_escSaved (p : Phase) : (withPhase p s).escSaved = s.escSaved := rfl
@[simp] theorem withPhase_bar (p : Phase) : (withPhase p s).bar = s.bar := rfl
@[simp] theorem withPhase_dsbr (p : Phase) : (withPhase p s).dsbr = s.dsbr := rfl
@[simp] theorem withPhase_pr (p : Phase) : (withPhase p s).pr = s.pr := rfl
@[simp] theorem withPhase_sdwam (p : Phase) : (withPhase p s).sdwam = s.sdwam := rfl
@[simp] theorem withPhase_ptwam (p : Phase) : (withPhase p s).ptwam = s.ptwam := rfl
@[simp] theorem withPhase_depth (p : Phase) : (withPhase p s).depth = s.depth := rfl
@[simp] theorem withPhase_mem (p : Phase) : (withPhase p s).mem = s.mem := rfl
@[simp] theorem withPhase_config (p : Phase) : (withPhase p s).config = s.config := rfl
@[simp] theorem withPhase_op (p : Phase) : (withPhase p s).op = s.op := rfl
@[simp] theorem withPhase_phase (p : Phase) : (withPhase p s).phase = p := rfl
@[simp] theorem withPhase_inIr (p : Phase) : (withPhase p s).inIr = s.inIr := rfl
@[simp] theorem withPhase_ringTerm (p : Phase) : (withPhase p s).ringTerm = s.ringTerm := rfl
@[simp] theorem withPhase_reply (p : Phase) : (withPhase p s).reply = s.reply := rfl
@[simp] theorem withPhase_events (p : Phase) : (withPhase p s).events = s.events := rfl
@[simp] theorem withPhase_requests (p : Phase) : (withPhase p s).requests = s.requests := rfl

/-! ### withTro -/

@[simp] theorem withTro_x (b : Bool) : (withTro b s).x = s.x := rfl
@[simp] theorem withTro_a (b : Bool) : (withTro b s).a = s.a := rfl
@[simp] theorem withTro_q (b : Bool) : (withTro b s).q = s.q := rfl
@[simp] theorem withTro_ppr (b : Bool) : (withTro b s).ppr = s.ppr := rfl
@[simp] theorem withTro_tpr (b : Bool) : (withTro b s).tpr = s.tpr := rfl
@[simp] theorem withTro_instr (b : Bool) : (withTro b s).instr = s.instr := rfl
@[simp] theorem withTro_ctHold (b : Bool) : (withTro b s).ctHold = s.ctHold := rfl
@[simp] theorem withTro_tro (b : Bool) : (withTro b s).tro = b := rfl
@[simp] theorem withTro_addrMode (b : Bool) : (withTro b s).addrMode = s.addrMode := rfl
@[simp] theorem withTro_escSaved (b : Bool) : (withTro b s).escSaved = s.escSaved := rfl
@[simp] theorem withTro_bar (b : Bool) : (withTro b s).bar = s.bar := rfl
@[simp] theorem withTro_dsbr (b : Bool) : (withTro b s).dsbr = s.dsbr := rfl
@[simp] theorem withTro_pr (b : Bool) : (withTro b s).pr = s.pr := rfl
@[simp] theorem withTro_sdwam (b : Bool) : (withTro b s).sdwam = s.sdwam := rfl
@[simp] theorem withTro_ptwam (b : Bool) : (withTro b s).ptwam = s.ptwam := rfl
@[simp] theorem withTro_depth (b : Bool) : (withTro b s).depth = s.depth := rfl
@[simp] theorem withTro_mem (b : Bool) : (withTro b s).mem = s.mem := rfl
@[simp] theorem withTro_config (b : Bool) : (withTro b s).config = s.config := rfl
@[simp] theorem withTro_op (b : Bool) : (withTro b s).op = s.op := rfl
@[simp] theorem withTro_phase (b : Bool) : (withTro b s).phase = s.phase := rfl
@[simp] theorem withTro_inIr (b : Bool) : (withTro b s).inIr = s.inIr := rfl
@[simp] theorem withTro_ringTerm (b : Bool) : (withTro b s).ringTerm = s.ringTerm := rfl
@[simp] theorem withTro_reply (b : Bool) : (withTro b s).reply = s.reply := rfl
@[simp] theorem withTro_events (b : Bool) : (withTro b s).events = s.events := rfl
@[simp] theorem withTro_requests (b : Bool) : (withTro b s).requests = s.requests := rfl

/-! ### counted -/

@[simp] theorem counted_x : (counted s).x = s.x := rfl
@[simp] theorem counted_a : (counted s).a = s.a := rfl
@[simp] theorem counted_q : (counted s).q = s.q := rfl
@[simp] theorem counted_ppr : (counted s).ppr = s.ppr := rfl
@[simp] theorem counted_tpr : (counted s).tpr = s.tpr := rfl
@[simp] theorem counted_instr : (counted s).instr = s.instr := rfl
@[simp] theorem counted_ctHold : (counted s).ctHold = s.ctHold := rfl
@[simp] theorem counted_tro : (counted s).tro = s.tro := rfl
@[simp] theorem counted_addrMode : (counted s).addrMode = s.addrMode := rfl
@[simp] theorem counted_escSaved : (counted s).escSaved = s.escSaved := rfl
@[simp] theorem counted_bar : (counted s).bar = s.bar := rfl
@[simp] theorem counted_dsbr : (counted s).dsbr = s.dsbr := rfl
@[simp] theorem counted_pr : (counted s).pr = s.pr := rfl
@[simp] theorem counted_sdwam : (counted s).sdwam = s.sdwam := rfl
@[simp] theorem counted_ptwam : (counted s).ptwam = s.ptwam := rfl
@[simp] theorem counted_depth : (counted s).depth = s.depth + 1 := rfl
@[simp] theorem counted_mem : (counted s).mem = s.mem := rfl
@[simp] theorem counted_config : (counted s).config = s.config := rfl
@[simp] theorem counted_op : (counted s).op = s.op := rfl
@[simp] theorem counted_phase : (counted s).phase = s.phase := rfl
@[simp] theorem counted_inIr : (counted s).inIr = s.inIr := rfl
@[simp] theorem counted_ringTerm : (counted s).ringTerm = s.ringTerm := rfl
@[simp] theorem counted_reply : (counted s).reply = s.reply := rfl
@[simp] theorem counted_events : (counted s).events = s.events := rfl
@[simp] theorem counted_requests : (counted s).requests = s.requests := rfl

/-! ### leaveChain -/

@[simp] theorem leaveChain_x : (leaveChain s).x = s.x := rfl
@[simp] theorem leaveChain_a : (leaveChain s).a = s.a := rfl
@[simp] theorem leaveChain_q : (leaveChain s).q = s.q := rfl
@[simp] theorem leaveChain_ppr : (leaveChain s).ppr = s.ppr := rfl
@[simp] theorem leaveChain_tpr : (leaveChain s).tpr = s.tpr := rfl
@[simp] theorem leaveChain_instr : (leaveChain s).instr = s.instr := rfl
@[simp] theorem leaveChain_ctHold : (leaveChain s).ctHold = s.ctHold := rfl
@[simp] theorem leaveChain_tro : (leaveChain s).tro = s.tro := rfl
@[simp] theorem leaveChain_addrMode : (leaveChain s).addrMode = s.addrMode := rfl
@[simp] theorem leaveChain_escSaved : (leaveChain s).escSaved = s.escSaved := rfl
@[simp] theorem leaveChain_bar : (leaveChain s).bar = s.bar := rfl
@[simp] theorem leaveChain_dsbr : (leaveChain s).dsbr = s.dsbr := rfl
@[simp] theorem leaveChain_pr : (leaveChain s).pr = s.pr := rfl
@[simp] theorem leaveChain_sdwam : (leaveChain s).sdwam = s.sdwam := rfl
@[simp] theorem leaveChain_ptwam : (leaveChain s).ptwam = s.ptwam := rfl
@[simp] theorem leaveChain_depth : (leaveChain s).depth = s.depth := rfl
@[simp] theorem leaveChain_mem : (leaveChain s).mem = s.mem := rfl
@[simp] theorem leaveChain_config : (leaveChain s).config = s.config := rfl
@[simp] theorem leaveChain_op : (leaveChain s).op = s.op := rfl
@[simp] theorem leaveChain_phase : (leaveChain s).phase = s.phase := rfl
@[simp] theorem leaveChain_inIr : (leaveChain s).inIr = false := rfl
@[simp] theorem leaveChain_ringTerm : (leaveChain s).ringTerm = s.ringTerm := rfl
@[simp] theorem leaveChain_reply : (leaveChain s).reply = s.reply := rfl
@[simp] theorem leaveChain_events : (leaveChain s).events = s.events := rfl
@[simp] theorem leaveChain_requests : (leaveChain s).requests = s.requests := rfl

/-! ### holdDesignator -/

@[simp] theorem holdDesignator_x (td : Designator) : (holdDesignator td s).x = s.x := rfl
@[simp] theorem holdDesignator_a (td : Designator) : (holdDesignator td s).a = s.a := rfl
@[simp] theorem holdDesignator_q (td : Designator) : (holdDesignator td s).q = s.q := rfl
@[simp] theorem holdDesignator_ppr (td : Designator) : (holdDesignator td s).ppr = s.ppr := rfl
@[simp] theorem holdDesignator_tpr (td : Designator) : (holdDesignator td s).tpr = s.tpr := rfl
@[simp] theorem holdDesignator_instr (td : Designator) : (holdDesignator td s).instr = s.instr := rfl
@[simp] theorem holdDesignator_ctHold (td : Designator) : (holdDesignator td s).ctHold = td := rfl
@[simp] theorem holdDesignator_tro (td : Designator) : (holdDesignator td s).tro = s.tro := rfl
@[simp] theorem holdDesignator_addrMode (td : Designator) : (holdDesignator td s).addrMode = s.addrMode := rfl
@[simp] theorem holdDesignator_escSaved (td : Designator) : (holdDesignator td s).escSaved = s.escSaved := rfl
@[simp] theorem holdDesignator_bar (td : Designator) : (holdDesignator td s).bar = s.bar := rfl
@[simp] theorem holdDesignator_dsbr (td : Designator) : (holdDesignator td s).dsbr = s.dsbr := rfl
@[simp] theorem holdDesignator_pr (td : Designator) : (holdDesignator td s).pr = s.pr := rfl
@[simp] theorem holdDesignator_sdwam (td : Designator) : (holdDesignator td s).sdwam = s.sdwam := rfl
@[simp] theorem holdDesignator_ptwam (td : Designator) : (holdDesignator td s).ptwam = s.ptwam := rfl
@[simp] theorem holdDesignator_depth (td : Designator) : (holdDesignator td s).depth = s.depth := rfl
@[simp] theorem holdDesignator_mem (td : Designator) : (holdDesignator td s).mem = s.mem := rfl
@[simp] theorem holdDesignator_config (td : Designator) : (holdDesignator td s).config = s.config := rfl
@[simp] theorem holdDesignator_op (td : Designator) : (holdDesignator td s).op = s.op := rfl
@[simp] theorem holdDesignator_phase (td : Designator) : (holdDesignator td s).phase = s.phase := rfl
@[simp] theorem holdDesignator_inIr (td : Designator) : (holdDesignator td s).inIr = true := rfl
@[simp] theorem holdDesignator_ringTerm (td : Designator) : (holdDesignator td s).ringTerm = s.ringTerm := rfl
@[simp] theorem holdDesignator_reply (td : Designator) : (holdDesignator td s).reply = s.reply := rfl
@[simp] theorem holdDesignator_events (td : Designator) : (holdDesignator td s).events = s.events := rfl
@[simp] theorem holdDesignator_requests (td : Designator) : (holdDesignator td s).requests = s.requests := rfl

/-! ### aimAtProcedure -/

@[simp] theorem aimAtProcedure_x : (aimAtProcedure s).x = s.x := rfl
@[simp] theorem aimAtProcedure_a : (aimAtProcedure s).a = s.a := rfl
@[simp] theorem aimAtProcedure_q : (aimAtProcedure s).q = s.q := rfl
@[simp] theorem aimAtProcedure_ppr : (aimAtProcedure s).ppr = s.ppr := rfl
@[simp] theorem aimAtProcedure_tpr : (aimAtProcedure s).tpr = { s.tpr with trr := s.ppr.prr, tsr := s.ppr.psr } := rfl
@[simp] theorem aimAtProcedure_instr : (aimAtProcedure s).instr = s.instr := rfl
@[simp] theorem aimAtProcedure_ctHold : (aimAtProcedure s).ctHold = s.ctHold := rfl
@[simp] theorem aimAtProcedure_tro : (aimAtProcedure s).tro = s.tro := rfl
@[simp] theorem aimAtProcedure_addrMode : (aimAtProcedure s).addrMode = s.addrMode := rfl
@[simp] theorem aimAtProcedure_escSaved : (aimAtProcedure s).escSaved = s.escSaved := rfl
@[simp] theorem aimAtProcedure_bar : (aimAtProcedure s).bar = s.bar := rfl
@[simp] theorem aimAtProcedure_dsbr : (aimAtProcedure s).dsbr = s.dsbr := rfl
@[simp] theorem aimAtProcedure_pr : (aimAtProcedure s).pr = s.pr := rfl
@[simp] theorem aimAtProcedure_sdwam : (aimAtProcedure s).sdwam = s.sdwam := rfl
@[simp] theorem aimAtProcedure_ptwam : (aimAtProcedure s).ptwam = s.ptwam := rfl
@[simp] theorem aimAtProcedure_depth : (aimAtProcedure s).depth = s.depth := rfl
@[simp] theorem aimAtProcedure_mem : (aimAtProcedure s).mem = s.mem := rfl
@[simp] theorem aimAtProcedure_config : (aimAtProcedure s).config = s.config := rfl
@[simp] theorem aimAtProcedure_op : (aimAtProcedure s).op = s.op := rfl
@[simp] theorem aimAtProcedure_phase : (aimAtProcedure s).phase = s.phase := rfl
@[simp] theorem aimAtProcedure_inIr : (aimAtProcedure s).inIr = s.inIr := rfl
@[simp] theorem aimAtProcedure_ringTerm : (aimAtProcedure s).ringTerm = s.ringTerm := rfl
@[simp] theorem aimAtProcedure_reply : (aimAtProcedure s).reply = s.reply := rfl
@[simp] theorem aimAtProcedure_events : (aimAtProcedure s).events = s.events := rfl
@[simp] theorem aimAtProcedure_requests : (aimAtProcedure s).requests = s.requests := rfl

/-! ### enterResolution -/

@[simp] theorem enterResolution_x (op : Operation) : (enterResolution op s).x = s.x := rfl
@[simp] theorem enterResolution_a (op : Operation) : (enterResolution op s).a = s.a := rfl
@[simp] theorem enterResolution_q (op : Operation) : (enterResolution op s).q = s.q := rfl
@[simp] theorem enterResolution_ppr (op : Operation) : (enterResolution op s).ppr = s.ppr := rfl
@[simp] theorem enterResolution_tpr (op : Operation) : (enterResolution op s).tpr = s.tpr := rfl
@[simp] theorem enterResolution_instr (op : Operation) : (enterResolution op s).instr = s.instr := rfl
@[simp] theorem enterResolution_ctHold (op : Operation) : (enterResolution op s).ctHold = s.ctHold := rfl
@[simp] theorem enterResolution_tro (op : Operation) : (enterResolution op s).tro = s.tro := rfl
@[simp] theorem enterResolution_addrMode (op : Operation) : (enterResolution op s).addrMode = s.addrMode := rfl
@[simp] theorem enterResolution_escSaved (op : Operation) : (enterResolution op s).escSaved = s.escSaved := rfl
@[simp] theorem enterResolution_bar (op : Operation) : (enterResolution op s).bar = s.bar := rfl
@[simp] theorem enterResolution_dsbr (op : Operation) : (enterResolution op s).dsbr = s.dsbr := rfl
@[simp] theorem enterResolution_pr (op : Operation) : (enterResolution op s).pr = s.pr := rfl
@[simp] theorem enterResolution_sdwam (op : Operation) : (enterResolution op s).sdwam = s.sdwam := rfl
@[simp] theorem enterResolution_ptwam (op : Operation) : (enterResolution op s).ptwam = s.ptwam := rfl
@[simp] theorem enterResolution_depth (op : Operation) : (enterResolution op s).depth = 0 := rfl
@[simp] theorem enterResolution_mem (op : Operation) : (enterResolution op s).mem = s.mem := rfl
@[simp] theorem enterResolution_config (op : Operation) : (enterResolution op s).config = s.config := rfl
@[simp] theorem enterResolution_op (op : Operation) : (enterResolution op s).op = op := rfl
@[simp] theorem enterResolution_phase (op : Operation) : (enterResolution op s).phase = s.phase := rfl
@[simp] theorem enterResolution_inIr (op : Operation) : (enterResolution op s).inIr = false := rfl
@[simp] theorem enterResolution_ringTerm (op : Operation) : (enterResolution op s).ringTerm = s.ringTerm := rfl
@[simp] theorem enterResolution_reply (op : Operation) : (enterResolution op s).reply = s.reply := rfl
@[simp] theorem enterResolution_events (op : Operation) : (enterResolution op s).events = s.events := rfl
@[simp] theorem enterResolution_requests (op : Operation) : (enterResolution op s).requests = s.requests := rfl

/-! ### endWith -/

@[simp] theorem endWith_x (r : Reply) : (endWith r s).x = s.x := rfl
@[simp] theorem endWith_a (r : Reply) : (endWith r s).a = s.a := rfl
@[simp] theorem endWith_q (r : Reply) : (endWith r s).q = s.q := rfl
@[simp] theorem endWith_ppr (r : Reply) : (endWith r s).ppr = s.ppr := rfl
@[simp] theorem endWith_tpr (r : Reply) : (endWith r s).tpr = s.tpr := rfl
@[simp] theorem endWith_instr (r : Reply) : (endWith r s).instr = s.instr := rfl
@[simp] theorem endWith_ctHold (r : Reply) : (endWith r s).ctHold = s.ctHold := rfl
@[simp] theorem endWith_tro (r : Reply) : (endWith r s).tro = s.tro := rfl
@[simp] theorem endWith_addrMode (r : Reply) : (endWith r s).addrMode = s.escSaved.getD s.addrMode := rfl
@[simp] theorem endWith_escSaved (r : Reply) : (endWith r s).escSaved = none := rfl
@[simp] theorem endWith_bar (r : Reply) : (endWith r s).bar = s.bar := rfl
@[simp] theorem endWith_dsbr (r : Reply) : (endWith r s).dsbr = s.dsbr := rfl
@[simp] theorem endWith_pr (r : Reply) : (endWith r s).pr = s.pr := rfl
@[simp] theorem endWith_sdwam (r : Reply) : (endWith r s).sdwam = s.sdwam := rfl
@[simp] theorem endWith_ptwam (r : Reply) : (endWith r s).ptwam = s.ptwam := rfl
@[simp] theorem endWith_depth (r : Reply) : (endWith r s).depth = s.depth := rfl
@[simp] theorem endWith_mem (r : Reply) : (endWith r s).mem = s.mem := rfl
@[simp] theorem endWith_config (r : Reply) : (endWith r s).config = s.config := rfl
@[simp] theorem endWith_op (r : Reply) : (endWith r s).op = s.op := rfl
@[simp] theorem endWith_phase (r : Reply) : (endWith r s).phase = .idle := rfl
@[simp] theorem endWith_inIr (r : Reply) : (endWith r s).inIr = s.inIr := rfl
@[simp] theorem endWith_ringTerm (r : Reply) : (endWith r s).ringTerm = s.ringTerm := rfl
@[simp] theorem endWith_reply (r : Reply) : (endWith r s).reply = r := rfl
@[simp] theorem endWith_events (r : Reply) : (endWith r s).events = s.events := rfl
@[simp] theorem endWith_requests (r : Reply) : (endWith r s).requests = s.requests := rfl

/-! ### takeFault -/

@[simp] theorem takeFault_x (f : Fault) : (takeFault f s).x = s.x := rfl
@[simp] theorem takeFault_a (f : Fault) : (takeFault f s).a = s.a := rfl
@[simp] theorem takeFault_q (f : Fault) : (takeFault f s).q = s.q := rfl
@[simp] theorem takeFault_ppr (f : Fault) : (takeFault f s).ppr = s.ppr := rfl
@[simp] theorem takeFault_tpr (f : Fault) : (takeFault f s).tpr = s.tpr := rfl
@[simp] theorem takeFault_instr (f : Fault) : (takeFault f s).instr = s.instr := rfl
@[simp] theorem takeFault_ctHold (f : Fault) : (takeFault f s).ctHold = s.ctHold := rfl
@[simp] theorem takeFault_tro (f : Fault) : (takeFault f s).tro = s.tro := rfl
@[simp] theorem takeFault_addrMode (f : Fault) : (takeFault f s).addrMode = s.escSaved.getD s.addrMode := rfl
@[simp] theorem takeFault_escSaved (f : Fault) : (takeFault f s).escSaved = none := rfl
@[simp] theorem takeFault_bar (f : Fault) : (takeFault f s).bar = s.bar := rfl
@[simp] theorem takeFault_dsbr (f : Fault) : (takeFault f s).dsbr = s.dsbr := rfl
@[simp] theorem takeFault_pr (f : Fault) : (takeFault f s).pr = s.pr := rfl
@[simp] theorem takeFault_sdwam (f : Fault) : (takeFault f s).sdwam = s.sdwam := rfl
@[simp] theorem takeFault_ptwam (f : Fault) : (takeFault f s).ptwam = s.ptwam := rfl
@[simp] theorem takeFault_depth (f : Fault) : (takeFault f s).depth = s.depth := rfl
@[simp] theorem takeFault_mem (f : Fault) : (takeFault f s).mem = s.mem := rfl
@[simp] theorem takeFault_config (f : Fault) : (takeFault f s).config = s.config := rfl
@[simp] theorem takeFault_op (f : Fault) : (takeFault f s).op = s.op := rfl
@[simp] theorem takeFault_phase (f : Fault) : (takeFault f s).phase = .idle := rfl
@[simp] theorem takeFault_inIr (f : Fault) : (takeFault f s).inIr = s.inIr := rfl
@[simp] theorem takeFault_ringTerm (f : Fault) : (takeFault f s).ringTerm = s.ringTerm := rfl
@[simp] theorem takeFault_reply (f : Fault) : (takeFault f s).reply = .fault f := rfl
@[simp] theorem takeFault_events (f : Fault) : (takeFault f s).events = s.events := rfl
@[simp] theorem takeFault_requests (f : Fault) : (takeFault f s).requests = s.requests := rfl

/-! ### escalate -/

@[simp] theorem escalate_x : (escalate s).x = s.x := rfl
@[simp] theorem escalate_a : (escalate s).a = s.a := rfl
@[simp] theorem escalate_q : (escalate s).q = s.q := rfl
@[simp] theorem escalate_ppr : (escalate s).ppr = s.ppr := rfl
@[simp] theorem escalate_tpr : (escalate s).tpr = s.tpr := rfl
@[simp] theorem escalate_instr : (escalate s).instr = s.instr := rfl
@[simp] theorem escalate_ctHold : (escalate s).ctHold = s.ctHold := rfl
@[simp] theorem escalate_tro : (escalate s).tro = s.tro := rfl
@[simp] theorem escalate_addrMode : (escalate s).addrMode = if s.addrMode = .absolute then .appending else s.addrMode := rfl
@[simp] theorem escalate_escSaved :
    (escalate s).escSaved =
    if s.addrMode = .absolute ∧ s.config.itsEscalationSticky = false ∧ s.escSaved = none then some .absolute
      else s.escSaved := rfl
@[simp] theorem escalate_bar : (escalate s).bar = s.bar := rfl
@[simp] theorem escalate_dsbr : (escalate s).dsbr = s.dsbr := rfl
@[simp] theorem escalate_pr : (escalate s).pr = s.pr := rfl
@[simp] theorem escalate_sdwam : (escalate s).sdwam = s.sdwam := rfl
@[simp] theorem escalate_ptwam : (escalate s).ptwam = s.ptwam := rfl
@[simp] theorem escalate_depth : (escalate s).depth = s.depth := rfl
@[simp] theorem escalate_mem : (escalate s).mem = s.mem := rfl
@[simp] theorem escalate_config : (escalate s).config = s.config := rfl
@[simp] theorem escalate_op : (escalate s).op = s.op := rfl
@[simp] theorem escalate_phase : (escalate s).phase = s.phase := rfl
@[simp] theorem escalate_inIr : (escalate s).inIr = s.inIr := rfl
@[simp] theorem escalate_ringTerm : (escalate s).ringTerm = s.ringTerm := rfl
@[simp] theorem escalate_reply : (escalate s).reply = s.reply := rfl
@[simp] theorem escalate_events : (escalate s).events = s.events := rfl
@[simp] theorem escalate_requests : (escalate s).requests = s.requests := rfl

/-! ### withRequests -/

@[simp] theorem withRequests_x (rs : List Request) : (withRequests rs s).x = s.x := rfl
@[simp] theorem withRequests_a (rs : List Request) : (withRequests rs s).a = s.a := rfl
@[simp] theorem withRequests_q (rs : List Request) : (withRequests rs s).q = s.q := rfl
@[simp] theorem withRequests_ppr (rs : List Request) : (withRequests rs s).ppr = s.ppr := rfl
@[simp] theorem withRequests_tpr (rs : List Request) : (withRequests rs s).tpr = s.tpr := rfl
@[simp] theorem withRequests_instr (rs : List Request) : (withRequests rs s).instr = s.instr := rfl
@[simp] theorem withRequests_ctHold (rs : List Request) : (withRequests rs s).ctHold = s.ctHold := rfl
@[simp] theorem withRequests_tro (rs : List Request) : (withRequests rs s).tro = s.tro := rfl
@[simp] theorem withRequests_addrMode (rs : List Request) : (withRequests rs s).addrMode = s.addrMode := rfl
@[simp] theorem withRequests_escSaved (rs : List Request) : (withRequests rs s).escSaved = s.escSaved := rfl
@[simp] theorem withRequests_bar (rs : List Request) : (withRequests rs s).bar = s.bar := rfl
@[simp] theorem withRequests_dsbr (rs : List Request) : (withRequests rs s).dsbr = s.dsbr := rfl
@[simp] theorem withRequests_pr (rs : List Request) : (withRequests rs s).pr = s.pr := rfl
@[simp] theorem withRequests_sdwam (rs : List Request) : (withRequests rs s).sdwam = s.sdwam := rfl
@[simp] theorem withRequests_ptwam (rs : List Request) : (withRequests rs s).ptwam = s.ptwam := rfl
@[simp] theorem withRequests_depth (rs : List Request) : (withRequests rs s).depth = s.depth := rfl
@[simp] theorem withRequests_mem (rs : List Request) : (withRequests rs s).mem = s.mem := rfl
@[simp] theorem withRequests_config (rs : List Request) : (withRequests rs s).config = s.config := rfl
@[simp] theorem withRequests_op (rs : List Request) : (withRequests rs s).op = s.op := rfl
@[simp] theorem withRequests_phase (rs : List Request) : (withRequests rs s).phase = s.phase := rfl
@[simp] theorem withRequests_inIr (rs : List Request) : (withRequests rs s).inIr = s.inIr := rfl
@[simp] theorem withRequests_ringTerm (rs : List Request) : (withRequests rs s).ringTerm = s.ringTerm := rfl
@[simp] theorem withRequests_reply (rs : List Request) : (withRequests rs s).reply = s.reply := rfl
@[simp] theorem withRequests_events (rs : List Request) : (withRequests rs s).events = s.events := rfl
@[simp] theorem withRequests_requests (rs : List Request) : (withRequests rs s).requests = rs := rfl

/-! ### invalidateSdwam -/

@[simp] theorem invalidateSdwam_x : (invalidateSdwam s).x = s.x := by simp only [invalidateSdwam]
@[simp] theorem invalidateSdwam_a : (invalidateSdwam s).a = s.a := by simp only [invalidateSdwam]
@[simp] theorem invalidateSdwam_q : (invalidateSdwam s).q = s.q := by simp only [invalidateSdwam]
@[simp] theorem invalidateSdwam_ppr : (invalidateSdwam s).ppr = s.ppr := by simp only [invalidateSdwam]
@[simp] theorem invalidateSdwam_tpr : (invalidateSdwam s).tpr = s.tpr := by simp only [invalidateSdwam]
@[simp] theorem invalidateSdwam_instr : (invalidateSdwam s).instr = s.instr := by simp only [invalidateSdwam]
@[simp] theorem invalidateSdwam_ctHold : (invalidateSdwam s).ctHold = s.ctHold := by simp only [invalidateSdwam]
@[simp] theorem invalidateSdwam_tro : (invalidateSdwam s).tro = s.tro := by simp only [invalidateSdwam]
@[simp] theorem invalidateSdwam_addrMode : (invalidateSdwam s).addrMode = s.addrMode := by simp only [invalidateSdwam]
@[simp] theorem invalidateSdwam_escSaved : (invalidateSdwam s).escSaved = s.escSaved := by simp only [invalidateSdwam]
@[simp] theorem invalidateSdwam_bar : (invalidateSdwam s).bar = s.bar := by simp only [invalidateSdwam]
@[simp] theorem invalidateSdwam_dsbr : (invalidateSdwam s).dsbr = s.dsbr := by simp only [invalidateSdwam]
@[simp] theorem invalidateSdwam_pr : (invalidateSdwam s).pr = s.pr := by simp only [invalidateSdwam]
@[simp] theorem invalidateSdwam_sdwam : (invalidateSdwam s).sdwam = amInvalidate s.sdwam := by simp only [invalidateSdwam]
@[simp] theorem invalidateSdwam_ptwam : (invalidateSdwam s).ptwam = s.ptwam := by simp only [invalidateSdwam]
@[simp] theorem invalidateSdwam_depth : (invalidateSdwam s).depth = s.depth := by simp only [invalidateSdwam]
@[simp] theorem invalidateSdwam_mem : (invalidateSdwam s).mem = s.mem := by simp only [invalidateSdwam]
@[simp] theorem invalidateSdwam_config : (invalidateSdwam s).config = s.config := by simp only [invalidateSdwam]
@[simp] theorem invalidateSdwam_op : (invalidateSdwam s).op = s.op := by simp only [invalidateSdwam]
@[simp] theorem invalidateSdwam_phase : (invalidateSdwam s).phase = s.phase := by simp only [invalidateSdwam]
@[simp] theorem invalidateSdwam_inIr : (invalidateSdwam s).inIr = s.inIr := by simp only [invalidateSdwam]
@[simp] theorem invalidateSdwam_ringTerm : (invalidateSdwam s).ringTerm = s.ringTerm := by simp only [invalidateSdwam]
@[simp] theorem invalidateSdwam_reply : (invalidateSdwam s).reply = s.reply := by simp only [invalidateSdwam]
@[simp] theorem invalidateSdwam_events : (invalidateSdwam s).events = s.events := by simp only [invalidateSdwam]
@[simp] theorem invalidateSdwam_requests : (invalidateSdwam s).requests = s.requests := by simp only [invalidateSdwam]

/-! ### invalidatePtwam -/

@[simp] theorem invalidatePtwam_x : (invalidatePtwam s).x = s.x := by simp only [invalidatePtwam]
@[simp] theorem invalidatePtwam_a : (invalidatePtwam s).a = s.a := by simp only [invalidatePtwam]
@[simp] theorem invalidatePtwam_q : (invalidatePtwam s).q = s.q := by simp only [invalidatePtwam]
@[simp] theorem invalidatePtwam_ppr : (invalidatePtwam s).ppr = s.ppr := by simp only [invalidatePtwam]
@[simp] theorem invalidatePtwam_tpr : (invalidatePtwam s).tpr = s.tpr := by simp only [invalidatePtwam]
@[simp] theorem invalidatePtwam_instr : (invalidatePtwam s).instr = s.instr := by simp only [invalidatePtwam]
@[simp] theorem invalidatePtwam_ctHold : (invalidatePtwam s).ctHold = s.ctHold := by simp only [invalidatePtwam]
@[simp] theorem invalidatePtwam_tro : (invalidatePtwam s).tro = s.tro := by simp only [invalidatePtwam]
@[simp] theorem invalidatePtwam_addrMode : (invalidatePtwam s).addrMode = s.addrMode := by simp only [invalidatePtwam]
@[simp] theorem invalidatePtwam_escSaved : (invalidatePtwam s).escSaved = s.escSaved := by simp only [invalidatePtwam]
@[simp] theorem invalidatePtwam_bar : (invalidatePtwam s).bar = s.bar := by simp only [invalidatePtwam]
@[simp] theorem invalidatePtwam_dsbr : (invalidatePtwam s).dsbr = s.dsbr := by simp only [invalidatePtwam]
@[simp] theorem invalidatePtwam_pr : (invalidatePtwam s).pr = s.pr := by simp only [invalidatePtwam]
@[simp] theorem invalidatePtwam_sdwam : (invalidatePtwam s).sdwam = s.sdwam := by simp only [invalidatePtwam]
@[simp] theorem invalidatePtwam_ptwam : (invalidatePtwam s).ptwam = amInvalidate s.ptwam := by simp only [invalidatePtwam]
@[simp] theorem invalidatePtwam_depth : (invalidatePtwam s).depth = s.depth := by simp only [invalidatePtwam]
@[simp] theorem invalidatePtwam_mem : (invalidatePtwam s).mem = s.mem := by simp only [invalidatePtwam]
@[simp] theorem invalidatePtwam_config : (invalidatePtwam s).config = s.config := by simp only [invalidatePtwam]
@[simp] theorem invalidatePtwam_op : (invalidatePtwam s).op = s.op := by simp only [invalidatePtwam]
@[simp] theorem invalidatePtwam_phase : (invalidatePtwam s).phase = s.phase := by simp only [invalidatePtwam]
@[simp] theorem invalidatePtwam_inIr : (invalidatePtwam s).inIr = s.inIr := by simp only [invalidatePtwam]
@[simp] theorem invalidatePtwam_ringTerm : (invalidatePtwam s).ringTerm = s.ringTerm := by simp only [invalidatePtwam]
@[simp] theorem invalidatePtwam_reply : (invalidatePtwam s).reply = s.reply := by simp only [invalidatePtwam]
@[simp] theorem invalidatePtwam_events : (invalidatePtwam s).events = s.events := by simp only [invalidatePtwam]
@[simp] theorem invalidatePtwam_requests : (invalidatePtwam s).requests = s.requests := by simp only [invalidatePtwam]

/-! ### resetCore -/

@[simp] theorem resetCore_x : (resetCore s).x = State.reset.x := by simp only [resetCore]
@[simp] theorem resetCore_a : (resetCore s).a = State.reset.a := by simp only [resetCore]
@[simp] theorem resetCore_q : (resetCore s).q = State.reset.q := by simp only [resetCore]
@[simp] theorem resetCore_ppr : (resetCore s).ppr = State.reset.ppr := by simp only [resetCore]
@[simp] theorem resetCore_tpr : (resetCore s).tpr = State.reset.tpr := by simp only [resetCore]
@[simp] theorem resetCore_instr : (resetCore s).instr = State.reset.instr := by simp only [resetCore]
@[simp] theorem resetCore_ctHold : (resetCore s).ctHold = State.reset.ctHold := by simp only [resetCore]
@[simp] theorem resetCore_tro : (resetCore s).tro = State.reset.tro := by simp only [resetCore]
@[simp] theorem resetCore_addrMode : (resetCore s).addrMode = State.reset.addrMode := by simp only [resetCore]
@[simp] theorem resetCore_escSaved : (resetCore s).escSaved = State.reset.escSaved := by simp only [resetCore]
@[simp] theorem resetCore_bar : (resetCore s).bar = State.reset.bar := by simp only [resetCore]
@[simp] theorem resetCore_dsbr : (resetCore s).dsbr = State.reset.dsbr := by simp only [resetCore]
@[simp] theorem resetCore_pr : (resetCore s).pr = State.reset.pr := by simp only [resetCore]
@[simp] theorem resetCore_sdwam : (resetCore s).sdwam = State.reset.sdwam := by simp only [resetCore]
@[simp] theorem resetCore_ptwam : (resetCore s).ptwam = State.reset.ptwam := by simp only [resetCore]
@[simp] theorem resetCore_depth : (resetCore s).depth = State.reset.depth := by simp only [resetCore]
@[simp] theorem resetCore_mem : (resetCore s).mem = s.mem := by simp only [resetCore]
@[simp] theorem resetCore_config : (resetCore s).config = s.config := by simp only [resetCore]
@[simp] theorem resetCore_op : (resetCore s).op = State.reset.op := by simp only [resetCore]
@[simp] theorem resetCore_phase : (resetCore s).phase = State.reset.phase := by simp only [resetCore]
@[simp] theorem resetCore_inIr : (resetCore s).inIr = State.reset.inIr := by simp only [resetCore]
@[simp] theorem resetCore_ringTerm : (resetCore s).ringTerm = State.reset.ringTerm := by simp only [resetCore]
@[simp] theorem resetCore_reply : (resetCore s).reply = State.reset.reply := by simp only [resetCore]
@[simp] theorem resetCore_events : (resetCore s).events = s.events := by simp only [resetCore]
@[simp] theorem resetCore_requests : (resetCore s).requests = s.requests := by simp only [resetCore]

end Sys2Proof.Machine
end

