-- ==== Sys2Proof/Laws/Access.lean ====
section
/-! SUPPORT. What a translation and an access can do to the state, said once for any relation that their primitive steps keep;
when an access goes through. -/

namespace Sys2Proof.Machine

variable {R : State → State → Prop}

/-! ### Relations kept by every access -/

/-- A chain kept by the primitive steps of a read: the reads' events, a page table word written back with its event, and the changes
of the two AMs, which are the promotion of an entry, the fill of a descriptor that no entry holds, and the M of an entry. -/
structure ReadChain (R : State → State → Prop) : Prop extends Chains R where
  event : ∀ pa w acc s, R s (withEvent (.read pa w acc) s)
  writeBack : ∀ pa w s, pa.toNat < s.config.memSize → R s (withEvent (.write pa w .descriptorWrite) (withWord pa w s))
  sdwPromote : ∀ i s, R s { s with sdwam := amPromote s.sdwam i }
  sdwFill : ∀ d s, sdwamLookup s.sdwam d.pointer = none → R s { s with sdwam := (amFill s.sdwam d).2 }
  ptwPromote : ∀ j s, R s { s with ptwam := amPromote s.ptwam j }
  ptwFill : ∀ tsr ca w s, ptwamLookup s.ptwam tsr (pageNumber s.config ca) = none →
    R s { s with ptwam := (amFill s.ptwam (decodePtw tsr (pageNumber s.config ca) w)).2 }
  ptwModify : ∀ j s, R s { s with ptwam := amModify s.ptwam j fun p => { p with m := true } }

/-- A chain that is kept by the store of a word with its event as well, so by every access. -/
structure AccessChain (R : State → State → Prop) : Prop extends ReadChain R where
  store : ∀ pa w acc s, pa.toNat < s.config.memSize → R s (withEvent (.write pa w (.logical acc)) (withWord pa w s))

/-- What keeps every write and every change of the AMs is a chain kept by an access. -/
theorem accessChain_of_any {R : State → State → Prop} (hR : Chains R) (event : ∀ pa w acc s, R s (withEvent (.read pa w acc) s))
    (write : ∀ pa w acc s, pa.toNat < s.config.memSize → R s (withEvent (.write pa w acc) (withWord pa w s)))
    (sdwam : ∀ m s, R s { s with sdwam := m }) (ptwam : ∀ m s, R s { s with ptwam := m }) : AccessChain R where
  toChains := hR
  event := event
  writeBack pa w s := write pa w _ s
  store pa w _ s := write pa w _ s
  sdwPromote _ s := sdwam _ s
  sdwFill _ s _ := sdwam _ s
  ptwPromote _ s := ptwam _ s
  ptwFill _ _ _ s _ := ptwam _ s
  ptwModify _ s := ptwam _ s

variable (h : ReadChain R)
include h

theorem keeps_physRead (pa : Word24) (acc : AccessType) : Keeps R (physRead pa acc) := by
  intro s
  unfold leaves
  rcases physRead_cases pa acc s with ⟨-, h'⟩ | ⟨-, -, h'⟩ | ⟨w, -, -, h'⟩ <;> rw [h']
  · exact h.refl s
  · exact h.refl s
  · exact h.event _ _ _ s

theorem keeps_writeBack (pa : Word24) (w : Word36) : Keeps R (physWrite pa w .descriptorWrite) := by
  intro s
  unfold leaves
  rcases physWrite_cases pa w .descriptorWrite s with ⟨-, h'⟩ | ⟨he, h'⟩ <;> rw [h']
  · exact h.refl s
  · exact h.writeBack pa w s he

omit h in
/-- A physical read changes no field but the event record. -/
theorem keeps_physRead_eq {γ : Type} (f : State → γ) (hf : ∀ e s, f (withEvent e s) = f s) (pa : Word24) (acc : AccessType) :
    Keeps (fun s t => f t = f s) (physRead pa acc) := by
  intro s
  unfold leaves
  rcases physRead_cases pa acc s with ⟨-, h'⟩ | ⟨-, -, h'⟩ | ⟨w, -, -, h'⟩ <;> rw [h']
  exact hf _ _

omit h in
theorem keeps_sdwAddress_of {R : State → State → Prop} (hR : Chains R) (hp : ∀ pa acc, Keeps R (physRead pa acc)) (tsr : Segno) :
    Keeps R (sdwAddress tsr) := by
  refine keeps_bind hR (keeps_read hR _) fun d => keeps_ite _ (keeps_pure hR _) ?_
  refine keeps_bind hR (keeps_read hR _) fun c => keeps_bind hR (keeps_read hR _) fun d => ?_
  exact keeps_bind hR (hp _ _) fun w => keeps_bind hR (keeps_raiseIf hR _ _) fun _ => keeps_pure hR _

/-- Reading the words of an SDW leaves the SDWAM alone. -/
theorem keeps_readSdw (tsr : Segno) : Keeps (fun s t => R s t ∧ t.sdwam = s.sdwam) (readSdw tsr) := by
  have hc : Chains fun s t => R s t ∧ t.sdwam = s.sdwam :=
    ⟨fun s => ⟨h.refl s, rfl⟩, fun a b => ⟨h.trans a.1 b.1, b.2.trans a.2⟩⟩
  have hp : ∀ pa acc, Keeps (fun s t => R s t ∧ t.sdwam = s.sdwam) (physRead pa acc) := fun pa acc s =>
    ⟨keeps_physRead h pa acc s, keeps_physRead_eq (·.sdwam) (fun _ _ => rfl) pa acc s⟩
  refine keeps_bind hc (keeps_read hc _) fun d => keeps_bind hc (keeps_raiseIf hc _ _) fun _ => ?_
  refine keeps_bind hc (keeps_sdwAddress_of hc hp tsr) fun sa => keeps_bind hc (hp _ _) fun w0 => ?_
  exact keeps_bind hc (hp _ _) fun w1 => keeps_bind hc (keeps_raiseIf hc _ _) fun _ => keeps_pure hc _

/-- Filling in the SDW of a segment, where a miss led to it and the reads before left the SDWAM alone. -/
theorem keeps_getSdw (tsr : Segno) : Keeps R (getSdw tsr) := by
  intro s
  rcases hl : sdwamLookup s.sdwam tsr with _ | i
  · have hm : getSdw tsr s = fetchSdw tsr s := by simp [getSdw, act_bind, hl]
    have hs := keeps_readSdw h tsr s
    unfold leaves at hs ⊢
    rw [hm, fetchSdw, act_bind]
    revert hs
    cases readSdw tsr s with
    | ok p t => exact fun hs => h.trans hs.1 (h.sdwFill _ t (by rw [hs.2]; exact hl))
    | error e t => exact fun hs => hs.1
  · have hm : getSdw tsr s = .ok (s.sdwam.get i).body { s with sdwam := amPromote s.sdwam i } := by
      simp [getSdw, act_bind, act_map, hl, sdwamPromote]
    rw [leaves_of_ok hm]
    exact h.sdwPromote i s

theorem keeps_fetchPtw (tsr : Segno) (ca : Word18) (pta : Word24) (s : State)
    (hl : ptwamLookup s.ptwam tsr (pageNumber s.config ca) = none) :
    R s (leaves (fetchPtw tsr (pageNumber s.config ca) pta) s) := by
  have hb : ∀ w, Keeps R (writeBackUsed pta w) := fun w =>
    keeps_bind h.toChains (keeps_read h.toChains _) fun c => keeps_ite _ (keeps_writeBack h _ _) (keeps_pure h.toChains _)
  unfold leaves fetchPtw
  rw [act_bind]
  rcases physRead_cases pta .descriptorRead s with ⟨-, h'⟩ | ⟨-, -, h'⟩ | ⟨w, -, -, h'⟩ <;> rw [h']
  · exact h.refl s
  · exact h.refl s
  · have he := h.event pta w .descriptorRead s
    cases hd : descriptorValid w
    · simpa [act_bind, hd] using he
    · have hf := h.ptwFill tsr ca w (withEvent (.read pta w .descriptorRead) s) hl
      have hw := hb w { withEvent (.read pta w .descriptorRead) s with
        ptwam := (amFill s.ptwam (decodePtw tsr (pageNumber s.config ca) w)).2 }
      have hk := h.trans he (h.trans hf hw)
      unfold leaves at hk
      simp only [act_bind, hd, Bool.not_true, raiseIf_false, ptwamFill, read_apply, update_apply, act_pure, withEvent_ptwam]
      revert hk
      cases writeBackUsed pta w { withEvent (.read pta w .descriptorRead) s with
        ptwam := (amFill s.ptwam (decodePtw tsr (pageNumber s.config ca) w)).2 } <;> exact id

theorem keeps_getPtw (tsr : Segno) (ca : Word18) (pta : Word24) (s : State) :
    R s (leaves (getPtw tsr (pageNumber s.config ca) pta) s) := by
  rcases hl : ptwamLookup s.ptwam tsr (pageNumber s.config ca) with _ | j
  · have hm : getPtw tsr (pageNumber s.config ca) pta s = fetchPtw tsr (pageNumber s.config ca) pta s := by
      simp [getPtw, act_bind, hl]
    unfold leaves
    rw [hm]
    exact keeps_fetchPtw h tsr ca pta s hl
  · have hm : getPtw tsr (pageNumber s.config ca) pta s = .ok j { s with ptwam := amPromote s.ptwam j } := by
      simp [getPtw, act_bind, act_map, hl, ptwamPromote]
    rw [leaves_of_ok hm]
    exact h.ptwPromote j s

theorem keeps_markModified (j : Fin 64) (pta : Word24) : Keeps R (markModified j pta) := by
  refine keeps_bind h.toChains (keeps_update fun s => h.ptwModify _ s) fun _ => ?_
  refine keeps_bind h.toChains (keeps_get h.toChains) fun s => keeps_ite _ ?_ (keeps_pure h.toChains _)
  exact keeps_bind h.toChains (keeps_physRead h _ _) fun w => keeps_writeBack h _ _

theorem keeps_pagedAddress (d : Sdw) (tsr : Segno) (ca : Word18) (acc : Access) : Keeps R (pagedAddress d tsr ca acc) := by
  intro s
  have hg := keeps_getPtw h tsr ca (ptwAddress s.config d ca) s
  have hk : ∀ j, Keeps R (do
      markIfWrite acc j (ptwAddress s.config d ca)
      let am ← read (·.ptwam)
      return frameAddress (am.get j).body.addr (ca.toNat % s.config.pageSize)) := fun j =>
    keeps_bind h.toChains (keeps_ite _ (keeps_markModified h j _) (keeps_pure h.toChains _)) fun _ =>
      keeps_bind h.toChains (keeps_read h.toChains _) fun am => keeps_pure h.toChains _
  unfold leaves at hg ⊢
  unfold pagedAddress
  rw [act_bind]
  simp only [read_apply]
  rw [act_bind]
  revert hg
  cases getPtw tsr (pageNumber s.config ca) (ptwAddress s.config d ca) s with
  | ok j t => exact fun hg => h.trans hg (hk j t)
  | error e t => exact id

theorem keeps_translate (trr : Ring) (tsr : Segno) (ca : Word18) (acc : Access) : Keeps R (translate trr tsr ca acc) := by
  refine keeps_bind h.toChains (keeps_getSdw h tsr) fun d => ?_
  refine keeps_bind h.toChains (keeps_raiseIf h.toChains _ _) fun _ => keeps_ite _ (keeps_pure h.toChains _) ?_
  exact keeps_bind h.toChains (keeps_pagedAddress h d tsr ca acc) fun pa => keeps_pure h.toChains _

theorem keeps_formAddress (ca : Word18) (acc : Access) : Keeps R (formAddress ca acc) := by
  refine keeps_bind h.toChains (keeps_get h.toChains) fun s => ?_
  split
  · exact keeps_pure h.toChains _
  · exact keeps_bind h.toChains (keeps_translate h _ _ _ _) fun r => keeps_pure h.toChains _
  · refine keeps_bind h.toChains ?_ fun pa => keeps_pure h.toChains _
    refine keeps_bind h.toChains (keeps_read h.toChains _) fun b => ?_
    exact keeps_bind h.toChains (keeps_raiseIf h.toChains _ _) fun _ => keeps_pure h.toChains _

theorem keeps_memRead (ca : Word18) (acc : Access) : Keeps R (memRead ca acc) :=
  keeps_bind h.toChains (keeps_formAddress h ca acc) fun _ =>
    keeps_bind h.toChains (keeps_physRead h _ _) fun _ => keeps_pure h.toChains _

omit h in
theorem keeps_memWrite (h : AccessChain R) (ca : Word18) (w : Word36) (acc : Access) : Keeps R (memWrite ca w acc) := by
  refine keeps_bind h.toChains (keeps_formAddress h.toReadChain ca acc) fun r s => ?_
  unfold leaves
  rcases physWrite_cases r.1 w (.logical acc) s with ⟨-, h'⟩ | ⟨he, h'⟩ <;> rw [h']
  · exact h.refl s
  · exact h.store r.1 w acc s he

omit h

/-! ### What an access leaves alone -/

/-- The two states differ in the AMs, memory and the event record at most (R303). -/
def AccessOnly (s t : State) : Prop := t = { s with sdwam := t.sdwam, ptwam := t.ptwam, mem := t.mem, events := t.events }

theorem accessOnly_chain : AccessChain AccessOnly :=
  accessChain_of_any ⟨fun _ => rfl, fun {s t u} h k => by unfold AccessOnly at *; rw [k, h]⟩ (fun _ _ _ _ => rfl)
    (fun _ _ _ _ _ => rfl) (fun _ _ => rfl) (fun _ _ => rfl)

/-- Forming an address changes the AMs, memory and the event record at most. -/
theorem formAddress_accessOnly {ca : Word18} {acc : Access} {s t : State} {r : Word24 × Option Sdw}
    (h : formAddress ca acc s = .ok r t) : AccessOnly s t := keeps_of_ok (keeps_formAddress accessOnly_chain.toReadChain ca acc) h

/-- A read changes the AMs, memory and the event record at most. -/
theorem memRead_accessOnly {ca : Word18} {acc : Access} {s t : State} {r : Word36 × Option Sdw}
    (h : memRead ca acc s = .ok r t) : AccessOnly s t := keeps_of_ok (keeps_memRead accessOnly_chain.toReadChain ca acc) h

/-- A write changes the AMs, memory and the event record at most. -/
theorem memWrite_accessOnly {ca : Word18} {acc : Access} {w : Word36} {s t : State}
    (h : memWrite ca w acc s = .ok () t) : AccessOnly s t := keeps_of_ok (keeps_memWrite accessOnly_chain ca w acc) h

/-- Memory is the memory before with the recorded writes applied in order (R84, R104). -/
def MemoryFollows (s t : State) : Prop := ∃ es, t.events = s.events ++ es ∧ t.mem = es.foldl applyEvent s.mem

theorem memoryFollows_chains : Chains MemoryFollows where
  refl _ := ⟨[], by simp⟩
  trans := by
    rintro s t u ⟨es, he, hm⟩ ⟨fs, hf, hn⟩
    exact ⟨es ++ fs, by rw [hf, he, List.append_assoc], by rw [hn, hm, List.foldl_append]⟩

/-! ### When an access goes through -/

/-- A read answers exactly where its address is formed, exists and holds a word. -/
theorem memRead_eq_ok {ca : Word18} {acc : Access} {s t : State} {w : Word36} {sdw : Option Sdw} :
    memRead ca acc s = .ok (w, sdw) t ↔ ReadsAt s ca acc w sdw t := by
  unfold memRead ReadsAt
  simp only [bind_eq_ok, act_pure, EStateM.Result.ok.injEq, Prod.mk.injEq, physRead_eq_ok]
  constructor
  · rintro ⟨⟨pa, d⟩, u, hf, v, t', ⟨he, hw, rfl⟩, ⟨rfl, rfl⟩, rfl⟩
    exact ⟨pa, u, hf, he, hw, rfl⟩
  · rintro ⟨pa, u, hf, he, hw, rfl⟩
    exact ⟨(pa, sdw), u, hf, w, _, ⟨he, hw, rfl⟩, ⟨rfl, rfl⟩, rfl⟩

/-- A write goes through exactly where its address is formed and exists. -/
theorem memWrite_eq_ok {ca : Word18} {acc : Access} {s t : State} {w : Word36} {a : Unit} :
    memWrite ca w acc s = .ok a t ↔ WritesAt s ca acc w t := by
  unfold memWrite WritesAt
  simp only [bind_eq_ok, physWrite_eq_ok]
  constructor
  · rintro ⟨⟨pa, d⟩, u, hf, he, rfl⟩
    exact ⟨pa, d, u, hf, he, rfl⟩
  · rintro ⟨pa, d, u, hf, he, rfl⟩
    exact ⟨(pa, d), u, hf, he, rfl⟩

/-- In ABSOLUTE mode the address is the computed address, and forming it does nothing (R88). -/
theorem formAddress_absolute {s : State} (h : s.addrMode = .absolute) (ca : Word18) (acc : Access) :
    formAddress ca acc s = .ok (ca.setWidth 24, none) s := by
  simp [formAddress, act_bind, h]

/-- In BAR mode the address is relocated, or the access is out of bounds (R90). -/
theorem formAddress_bar {s : State} (h : s.addrMode = .bar) (ca : Word18) (acc : Access) :
    formAddress ca acc s =
      if barBad s.bar ca then .error (.fault (.storeFault .outOfBounds)) s else .ok (barAddress s.bar ca, none) s := by
  cases hb : barBad s.bar ca <;> simp [formAddress, barRelocate, act_bind, act_map, h, hb]

/-- In APPENDING mode the address is translated, with TPR's ring and segment of the moment (R88, R91). -/
theorem formAddress_appending {s : State} (h : s.addrMode = .appending) (ca : Word18) (acc : Access) :
    formAddress ca acc s =
      match translate s.tpr.trr s.tpr.tsr ca acc s with
      | .ok r t => .ok (r.1, some r.2) t
      | .error e t => .error e t := by
  simp only [formAddress, act_bind, act_get, h]
  split <;> simp_all

end Sys2Proof.Machine
end

