-- ==== Sys2Proof/Laws/Appending.lean ====
section
/-! SUPPORT. The appending unit: what each of its operations answers (R280 to R300). -/

namespace Sys2Proof.Machine

/-! ### The SDW (R282 to R288) -/

/-- A hit answers the entry and promotes it, and does nothing else (R322). -/
theorem getSdw_of_hit {s : State} {tsr : Segno} {i : Fin 64} (h : sdwamLookup s.sdwam tsr = some i) :
    getSdw tsr s = .ok (s.sdwam.get i).body { s with sdwam := amPromote s.sdwam i } := by
  simp [getSdw, act_bind, act_map, h, sdwamPromote]

/-- A miss fetches the SDW. -/
theorem getSdw_of_miss {s : State} {tsr : Segno} (h : sdwamLookup s.sdwam tsr = none) : getSdw tsr s = fetchSdw tsr s := by
  simp [getSdw, act_bind, h]

/-- The words of an SDW are read exactly where the descriptor segment reaches it, both can be read and it is valid (R283, R287,
R288). -/
theorem readSdw_eq_ok {s t : State} {tsr : Segno} {p : Word36 × Word36} :
    readSdw tsr s = .ok p t ↔ dsBoundBad s.dsbr tsr = false ∧ ∃ sa u u0, sdwAddress tsr s = .ok sa u ∧
      physRead sa .descriptorRead u = .ok p.1 u0 ∧ physRead (sa + 1#24) .descriptorRead u0 = .ok p.2 t ∧
      descriptorValid p.1 = true := by
  unfold readSdw
  rw [act_bind]
  simp only [read_apply]
  cases dsBoundBad s.dsbr tsr
  · rw [bind_of_ok (raiseIf_false _ s)]
    simp only [bind_eq_ok, true_and]
    refine exists_congr fun sa => exists_congr fun u => ?_
    constructor
    · rintro ⟨ha, w0, u0, h0, w1, u1, h1, ⟨⟩, v, hv, hp⟩
      cases hd : descriptorValid w0 <;> simp only [hd, Bool.not_false, Bool.not_true, raiseIf_true, raiseIf_false] at hv
      · cases hv
      · cases hv; cases hp
        exact ⟨u0, ha, h0, h1, hd⟩
    · rintro ⟨u0, ha, h0, h1, hd⟩
      exact ⟨ha, p.1, u0, h0, p.2, t, h1, (), t, by simp [hd], rfl⟩
  · rw [bind_of_error (raiseIf_true _ s)]
    simp

/-- A fetch answers exactly where the words are read; then the SDW is filled in (R288, R325). -/
theorem fetchSdw_eq_ok {s t : State} {tsr : Segno} {d : Sdw} :
    fetchSdw tsr s = .ok d t ↔ ∃ p u, readSdw tsr s = .ok p u ∧ d = decodeSdw tsr p.1 p.2 ∧
      t = { u with sdwam := (amFill u.sdwam d).2 } := by
  unfold fetchSdw
  simp only [bind_eq_ok, sdwamFill, update_apply, act_pure, EStateM.Result.ok.injEq]
  refine exists_congr fun p => exists_congr fun u => ?_
  constructor
  · rintro ⟨hr, -, v, ⟨-, rfl⟩, rfl, rfl⟩
    exact ⟨hr, rfl, rfl⟩
  · rintro ⟨hr, rfl, rfl⟩
    exact ⟨hr, (), _, ⟨trivial, rfl⟩, rfl, rfl⟩

/-- An unpaged descriptor segment's SDW address needs no access (R284). -/
theorem sdwAddress_unpaged {s : State} (h : s.dsbr.u = true) (tsr : Segno) :
    sdwAddress tsr s = .ok (sdwAddressUnpaged s.dsbr tsr) s := by
  simp [sdwAddress, act_bind, h]

/-! ### Access control (R289 to R295) -/

theorem checkAccess_apply (d : Sdw) (trr : Ring) (ca : Word18) (acc : Access) (s : State) :
    checkAccess d trr ca acc s =
      if violations d trr ca acc = [] then .ok () s
      else .error (.fault (.accessViolation (violations d trr ca acc))) s := by
  unfold checkAccess
  cases violations d trr ca acc <;> simp

theorem mem_codeIf {c : Bool} {v x : AcvCode} : x ∈ codeIf c v ↔ c = true ∧ x = v := by
  cases c <;> simp [codeIf]

/-! ### Translation (R280, R296, R297) -/

/-- A translation answers exactly where its SDW is acquired and passes every check; an unpaged segment's address is then
formed at once, a paged one's by its PTW. -/
theorem translate_eq_ok {s t : State} {trr : Ring} {tsr : Segno} {ca : Word18} {acc : Access} {pa : Word24} {d : Sdw} :
    translate trr tsr ca acc s = .ok (pa, d) t ↔ ∃ u, getSdw tsr s = .ok d u ∧ violations d trr ca acc = [] ∧
      if d.u then pa = unpagedAddress d ca ∧ t = u else pagedAddress d tsr ca acc u = .ok pa t := by
  unfold translate
  rw [bind_eq_ok]
  constructor
  · rintro ⟨e, u, hg, h⟩
    rw [act_bind, checkAccess_apply] at h
    by_cases hv : violations e trr ca acc = []
    · simp only [hv, if_true] at h
      cases hu : e.u
      · simp only [hu, Bool.false_eq_true, if_false, bind_eq_ok, act_pure, EStateM.Result.ok.injEq, Prod.mk.injEq] at h
        obtain ⟨p, v, hp, ⟨rfl, rfl⟩, rfl⟩ := h
        exact ⟨u, hg, hv, by simpa [hu] using hp⟩
      · simp only [hu, if_true, act_pure, EStateM.Result.ok.injEq, Prod.mk.injEq] at h
        obtain ⟨⟨rfl, rfl⟩, rfl⟩ := h
        exact ⟨u, hg, hv, by simp [hu]⟩
    · simp [hv] at h
  · rintro ⟨u, hg, hv, h⟩
    refine ⟨d, u, hg, ?_⟩
    rw [act_bind, checkAccess_apply, if_pos hv]
    cases hu : d.u
    · simp only [hu, Bool.false_eq_true, if_false] at h ⊢
      exact bind_eq_ok.2 ⟨pa, t, h, rfl⟩
    · simp only [hu, if_true] at h ⊢
      obtain ⟨rfl, rfl⟩ := h
      rfl

/-- A page in the PTWAM is promoted and nothing else happens (R297, R330). -/
theorem getPtw_of_hit {s : State} {tsr : Segno} {page : Word18} {pta : Word24} {j : Fin 64}
    (h : ptwamLookup s.ptwam tsr page = some j) :
    getPtw tsr page pta s = .ok j { s with ptwam := amPromote s.ptwam j } := by
  simp [getPtw, act_bind, act_map, h, ptwamPromote]

/-- A page that is not in the PTWAM is fetched (R297). -/
theorem getPtw_of_miss {s : State} {tsr : Segno} {page : Word18} {pta : Word24} (h : ptwamLookup s.ptwam tsr page = none) :
    getPtw tsr page pta s = fetchPtw tsr page pta s := by
  simp [getPtw, act_bind, h]

/-- A PTW's fetch answers exactly where it is read and valid; it is filled in, and its U bit written back where that is
asked for (R297, R298, R300, R331). -/
theorem fetchPtw_eq_ok {s t : State} {tsr : Segno} {page : Word18} {pta : Word24} {j : Fin 64} :
    fetchPtw tsr page pta s = .ok j t ↔ ∃ w u, physRead pta .descriptorRead s = .ok w u ∧ descriptorValid w = true ∧
      j = amVictim u.ptwam ∧
      writeBackUsed pta w { u with ptwam := (amFill u.ptwam (decodePtw tsr page w)).2 } = .ok () t := by
  unfold fetchPtw ptwamFill
  simp only [bind_eq_ok, read_apply, update_apply, act_pure, EStateM.Result.ok.injEq, amFill_index]
  refine exists_congr fun w => exists_congr fun u => ?_
  constructor
  · rintro ⟨hr, ⟨⟩, v, hv, j', v', ⟨am, v'', ⟨rfl, rfl⟩, ⟨⟩, v3, ⟨-, rfl⟩, rfl, rfl⟩, ⟨⟩, v4, hb, rfl, rfl⟩
    cases hd : descriptorValid w <;> simp only [hd, Bool.not_false, Bool.not_true, raiseIf_true, raiseIf_false] at hv
    · cases hv
    · cases hv
      exact ⟨hr, rfl, rfl, hb⟩
  · rintro ⟨hr, hd, rfl, hb⟩
    exact ⟨hr, (), u, by simp [hd], _, _, ⟨_, _, ⟨rfl, rfl⟩, (), _, ⟨trivial, rfl⟩, rfl, rfl⟩, (), t, hb, rfl, rfl⟩

/-! ### The modified bit (R300) -/

/-- The M bit of an existing word that holds a value. -/
theorem inCoreModified_of_written {s : State} {pta : Word24} {w : Word36} (he : pta.toNat < s.config.memSize)
    (hw : memLookup s.mem pta.toNat = some w) : inCoreModified pta s = ptwModified w := by
  simp [inCoreModified, nonexistent, hw, Nat.not_le.2 he]

/-- A word that does not exist holds no M bit. -/
theorem inCoreModified_of_nonexistent {s : State} {pta : Word24} (h : s.config.memSize ≤ pta.toNat) :
    inCoreModified pta s = false := by
  simp [inCoreModified, nonexistent, h]

/-- Marking a page sets its entry's M, and then writes the in-core PTW back where that is asked for and its M is not 1. -/
theorem markModified_apply (j : Fin 64) (pta : Word24) (s : State) : markModified j pta s =
    if s.config.ptwWriteback = true ∧ inCoreModified pta s = false
    then writeBackModified pta { s with ptwam := amModify s.ptwam j fun p => { p with m := true } }
    else .ok () { s with ptwam := amModify s.ptwam j fun p => { p with m := true } } := by
  have hi : inCoreModified pta { s with ptwam := amModify s.ptwam j fun p => { p with m := true } } = inCoreModified pta s := by
    simp only [inCoreModified, nonexistent]
  unfold markModified
  rw [bind_of_ok (update_apply _ s), bind_of_ok (act_get _)]
  simp only [hi]
  cases s.config.ptwWriteback <;> cases inCoreModified pta s <;> rfl

/-- A write-back goes through exactly where the PTW can be read; it leaves it with M and U set (R300). -/
theorem writeBackModified_eq_ok {s t : State} {pta : Word24} : writeBackModified pta s = .ok () t ↔
    ∃ w u, physRead pta .descriptorRead s = .ok w u ∧ physWrite pta (ptwSetUsedModified w) .descriptorWrite u = .ok () t :=
  bind_eq_ok

end Sys2Proof.Machine
end

