-- ==== Sys2Proof/Laws/Modifier.lean ====
section
/-! SUPPORT. The shared operations of the address modifier: when each goes through and what it leaves. -/

namespace Sys2Proof.Machine

/-! ### The chain limit -/

theorem depthBad_eq_true {c : Config} {d : Nat} : depthBad c d = true ↔ ∃ m, c.maxIndirectDepth = some m ∧ m < d := by
  unfold depthBad
  cases c.maxIndirectDepth <;> simp

theorem depthBad_counted {s : State} : depthBad s.config (s.depth + 1) = false ↔ WithinDepth s := by
  rw [← Bool.not_eq_true, depthBad_eq_true]
  simp only [WithinDepth, not_exists, not_and, Nat.not_lt]
  exact ⟨fun h m hm => by have := h m hm; omega, fun h m hm => by have := h m hm; omega⟩

/-- Everything the count of an indirect fetch can do: it counts, or it has counted and the limit is passed (R163). -/
theorem countIndirect_apply (s : State) :
    countIndirect s =
      if depthBad s.config (s.depth + 1) then .error (.fault .indirectChainLimit) (counted s) else .ok () (counted s) := by
  simp [countIndirect, act_bind, raiseIf_apply]

theorem countIndirect_eq_ok {s t : State} {a : Unit} : countIndirect s = .ok a t ↔ WithinDepth s ∧ t = counted s := by
  rw [countIndirect_apply, ← depthBad_counted]
  cases depthBad s.config (s.depth + 1) <;> simp [eq_comm]

/-! ### Indirect and tally words -/

theorem isPointerPair_iff (w : Word36) : isPointerPair w = true ↔ wordTag w = 0o41#6 ∨ wordTag w = 0o43#6 := by
  simp [isPointerPair]

/-- An indirect word leads to its pair, or to its address and tag (R164). -/
theorem acceptIndirect_apply (w : Word36) (sdw : Option Sdw) (u : State) :
    acceptIndirect w sdw u = .ok () (
      if wordTag w = 0o41#6 ∨ wordTag w = 0o43#6 then { u with phase := .pair w, ringTerm := ringTermOf sdw }
      else { u with tpr := { u.tpr with ca := wordY w }, phase := .dispatch (wordTag w) }) := by
  unfold acceptIndirect
  by_cases hp : wordTag w = 0o41#6 ∨ wordTag w = 0o43#6
  · rw [if_pos ((isPointerPair_iff w).2 hp), if_pos hp]; rfl
  · rw [if_neg (mt (isPointerPair_iff w).1 hp), if_neg hp]; rfl

/-- An indirect fetch goes through exactly as `IndirectEnd` says (R164). -/
theorem indirectFetch_eq_ok {s t : State} : indirectFetch s = .ok () t ↔ IndirectEnd s t := by
  unfold indirectFetch IndirectEnd
  simp only [bind_eq_ok, read_apply, EStateM.Result.ok.injEq]
  constructor
  · rintro ⟨⟨⟩, v, hv, ca, v', ⟨rfl, rfl⟩, ⟨w, sdw⟩, u, hr, ha⟩
    obtain ⟨hd, rfl⟩ := countIndirect_eq_ok.1 hv
    rw [acceptIndirect_apply] at ha
    exact ⟨hd, w, sdw, u, memRead_eq_ok.1 hr, (EStateM.Result.ok.inj ha).2.symm⟩
  · rintro ⟨hd, w, sdw, u, hr, rfl⟩
    exact ⟨(), counted s, countIndirect_eq_ok.2 ⟨hd, rfl⟩, _, _, ⟨rfl, rfl⟩, (w, sdw), u, memRead_eq_ok.2 hr,
      acceptIndirect_apply w sdw u⟩

/-- A tally word's fetch goes through exactly as `TallyRead` says, and answers its address and the word (R221). -/
theorem tallyFetch_eq_ok {s u : State} {r : Word18 × Word36} :
    tallyFetch s = .ok r u ↔ r.1 = s.tpr.ca ∧ TallyRead s r.2 u := by
  unfold tallyFetch TallyRead
  simp only [bind_eq_ok, read_apply, EStateM.Result.ok.injEq, act_pure]
  constructor
  · rintro ⟨⟨⟩, v, hv, ca, v', ⟨rfl, rfl⟩, ⟨w, sdw⟩, u', hr, rfl, rfl⟩
    obtain ⟨hd, rfl⟩ := countIndirect_eq_ok.1 hv
    exact ⟨rfl, hd, sdw, memRead_eq_ok.1 hr⟩
  · rintro ⟨h1, hd, sdw, hr⟩
    exact ⟨(), counted s, countIndirect_eq_ok.2 ⟨hd, rfl⟩, _, _, ⟨rfl, rfl⟩, (r.2, sdw), u, memRead_eq_ok.2 hr,
      by rw [counted_tpr, ← h1], rfl⟩

/-- The fetch of an indirect word raises what `FetchFaults` says (R164). -/
theorem indirectFetch_of_faults {s t : State} {f : Fault} (h : FetchFaults s f t) : indirectFetch s = .error (.fault f) t :=
  (bind_of_ok (countIndirect_eq_ok (a := ()).2 ⟨h.1, rfl⟩)).trans ((bind_of_ok (read_apply _ _)).trans (bind_of_error h.2))

/-- The fetch of a tally word raises what `FetchFaults` says (R221). -/
theorem tallyFetch_of_faults {s t : State} {f : Fault} (h : FetchFaults s f t) : tallyFetch s = .error (.fault f) t :=
  (bind_of_ok (countIndirect_eq_ok (a := ()).2 ⟨h.1, rfl⟩)).trans ((bind_of_ok (read_apply _ _)).trans (bind_of_error h.2))

/-- A rewrite of a tally word writes it, then TRO (R224). -/
theorem tallyRewrite_eq_ok {s t : State} {taddr y : Word18} {c : BitVec 12} {l : BitVec 6} {a : Unit} :
    tallyRewrite taddr y c l s = .ok a t ↔
      ∃ v, WritesAt s taddr .indirectWrite (y ++ c ++ l) v ∧ t = { v with tro := decide (c = 0#12) } := by
  unfold tallyRewrite
  simp only [bind_eq_ok, memWrite_eq_ok, update_apply, EStateM.Result.ok.injEq, tallyWord]
  constructor
  · rintro ⟨-, v, hw, -, rfl⟩
    exact ⟨v, hw, rfl⟩
  · rintro ⟨v, hw, rfl⟩
    exact ⟨(), v, hw, trivial, rfl⟩

/-- A rewrite of a tally word raises what its write does, and TRO stays (R224). -/
theorem tallyRewrite_of_fault {s t : State} {taddr y : Word18} {c : BitVec 12} {l : BitVec 6} {f : Fault}
    (h : memWrite taddr (y ++ c ++ l) .indirectWrite s = .error (.fault f) t) : tallyRewrite taddr y c l s = .error (.fault f) t :=
  bind_of_error h

/-- A tally step goes through exactly as `TallyUpdated` says, and answers the word as it was read (R224). -/
theorem tallyStep_eq_ok {s t : State} {fy : Word36 → Word18} {ft : BitVec 12 → BitVec 12} {w : Word36} :
    tallyStep fy ft s = .ok w t ↔ TallyUpdated s w (fy w) (ft (wordTally w)) (wordLow6 w) t := by
  unfold tallyStep TallyUpdated
  simp only [bind_eq_ok, tallyFetch_eq_ok, tallyRewrite_eq_ok, act_pure, EStateM.Result.ok.injEq]
  constructor
  · rintro ⟨⟨a, w'⟩, u, ⟨rfl, hr⟩, -, t', ⟨v, hw, rfl⟩, rfl, rfl⟩
    exact ⟨u, v, hr, hw, rfl⟩
  · rintro ⟨u, v, hr, hw, rfl⟩
    exact ⟨(s.tpr.ca, w), u, ⟨rfl, hr⟩, (), _, ⟨v, hw, rfl⟩, rfl, rfl⟩

/-! ### The terminal states -/

/-- The final word access ends the resolution exactly as `WordEnd` says (R167). -/
theorem finalWord_eq_ok {s t : State} : finalWord s = .ok () t ↔ WordEnd s t := by
  unfold finalWord WordEnd
  simp only [act_bind, read_apply]
  rcases s.op with _ | v | _
  · simp only [finish, bind_eq_ok, update_apply, EStateM.Result.ok.injEq]
    constructor
    · rintro ⟨⟨w, sdw⟩, u, hr, -, rfl⟩
      exact ⟨w, sdw, u, memRead_eq_ok.1 hr, rfl⟩
    · rintro ⟨w, sdw, u, hr, rfl⟩
      exact ⟨(w, sdw), u, memRead_eq_ok.2 hr, trivial, rfl⟩
  · simp only [finish, bind_eq_ok, update_apply, EStateM.Result.ok.injEq, memWrite_eq_ok]
    exact ⟨fun ⟨_, u, hw, _, h⟩ => ⟨u, hw, h.symm⟩, fun ⟨u, hw, h⟩ => ⟨(), u, hw, trivial, h.symm⟩⟩
  · simp [finish, eq_comm]

/-- The final character access ends the resolution exactly as `CharEnd` says (R226). -/
theorem finalChar_eq_ok {s t : State} {sz : CharSize} {cf : BitVec 3} :
    finalChar sz cf s = .ok () t ↔ CharEnd s sz cf t := by
  unfold finalChar CharEnd
  simp only [act_bind, read_apply]
  rcases s.op with _ | v | _
  · simp only [finish, bind_eq_ok, update_apply, EStateM.Result.ok.injEq]
    constructor
    · rintro ⟨⟨w, sdw⟩, u, hr, -, rfl⟩
      exact ⟨w, sdw, u, memRead_eq_ok.1 hr, rfl⟩
    · rintro ⟨w, sdw, u, hr, rfl⟩
      exact ⟨(w, sdw), u, memRead_eq_ok.2 hr, trivial, rfl⟩
  · simp only [finish, bind_eq_ok, update_apply, EStateM.Result.ok.injEq, memWrite_eq_ok]
    constructor
    · rintro ⟨⟨w, sdw⟩, u, hr, -, u', hw, -, rfl⟩
      exact ⟨w, sdw, u, u', memRead_eq_ok.1 hr, hw, rfl⟩
    · rintro ⟨w, sdw, u, u', hr, hw, rfl⟩
      exact ⟨(w, sdw), u, memRead_eq_ok.2 hr, (), u', hw, trivial, rfl⟩
  · simp [finish, eq_comm]

/-- The final word access raises what `WordFaults` says (R167). -/
theorem finalWord_of_faults {s t : State} {f : Fault} (h : WordFaults s f t) : finalWord s = .error (.fault f) t := by
  unfold WordFaults at h
  unfold finalWord
  simp only [act_bind, read_apply]
  cases ho : s.op <;> simp only [ho] at h ⊢
  · exact bind_of_error h
  · exact bind_of_error h

/-- The final character access raises what `CharFaults` says (R226). -/
theorem finalChar_of_faults {s t : State} {sz : CharSize} {cf : BitVec 3} {f : Fault} (h : CharFaults s sz cf f t) :
    finalChar sz cf s = .error (.fault f) t := by
  unfold CharFaults at h
  unfold finalChar
  simp only [act_bind, read_apply]
  cases ho : s.op <;> simp only [ho] at h ⊢
  · exact bind_of_error h
  · rcases h with h | ⟨w, sdw, u, hr, hw⟩
    · exact bind_of_error h
    · rw [bind_of_ok (memRead_eq_ok.2 hr)]
      exact bind_of_error hw

/-- A direct operand: a store is illegal, any other operation ends with the operand and touches nothing (R166). -/
theorem directOperand_apply (td : Designator) (s : State) :
    directOperand td s =
      match s.op with
      | .write _ => .error (.fault (.illegalModifier .directStore)) s
      | _ => .ok () (endWith (.result ⟨s.tpr.ca, .direct, some (directWord td s.tpr.ca)⟩) s) := by
  unfold directOperand
  simp only [act_bind, read_apply]
  rcases s.op with _ | v | _ <;> rfl

/-! ### Pointer pairs -/

/-- The odd word of a pair is read exactly where the mode is not BAR, the pair begins at an even address and the read goes
through (R255 to R257, R264). -/
theorem pairOddWord_eq_ok {s u : State} {odd : Word36} :
    pairOddWord s = .ok odd u ↔ s.addrMode ≠ .bar ∧ s.tpr.ca.getLsbD 0 = false ∧
      ∃ sdw, ReadsAt s (s.tpr.ca + 1#18) .indirectRead odd sdw u := by
  unfold pairOddWord
  simp only [act_bind, act_get, raiseIf_apply]
  by_cases hb : s.addrMode = .bar
  · simp [hb]
  · cases hc : s.tpr.ca.getLsbD 0
    · simp only [hb, beq_iff_eq, if_false, Bool.false_eq_true, ne_eq, not_false_eq_true, true_and]
      rw [← act_bind]
      simp only [bind_eq_ok, act_pure, EStateM.Result.ok.injEq]
      constructor
      · rintro ⟨⟨w, sdw⟩, v, hr, rfl, rfl⟩
        exact ⟨sdw, memRead_eq_ok.1 hr⟩
      · rintro ⟨sdw, hr⟩
        exact ⟨(odd, sdw), u, memRead_eq_ok.2 hr, rfl, rfl⟩
    · simp [hb]

/-! ### The beginning of a resolution -/

/-- The initial TPR: from PPR where the A bit is clear, from the named pointer register where it is set in APPENDING mode; the A
bit outside it is refused (R161). -/
theorem formInitialTpr_apply (s : State) :
    formInitialTpr s =
      if s.instr.a then
        if s.addrMode = .appending then .ok () { s with tpr := tprFromPr s }
        else .error (.refused .pointerRegisterOutsideAppending) s
      else .ok () { s with tpr := tprFromPpr s } := by
  unfold formInitialTpr
  simp only [act_bind, act_get]
  cases s.instr.a <;> simp only [if_true, if_false, Bool.false_eq_true]
  · rfl
  · split <;> rfl

/-- The formation of the initial TPR keeps what a change of TPR keeps. -/
theorem keeps_formInitialTpr {R : State → State → Prop} (hR : Chains R) (tpr : ∀ t s, R s { s with tpr := t }) :
    Keeps R formInitialTpr := by
  intro s
  unfold leaves
  rw [formInitialTpr_apply]
  by_cases ha : s.instr.a = true
  · by_cases hm : s.addrMode = .appending
    · simpa only [if_pos ha, if_pos hm] using tpr _ s
    · simpa only [if_pos ha, if_neg hm] using hR.refl s
  · simpa only [if_neg ha] using tpr _ s

/-- The beginning of a resolution keeps what its changes keep. -/
theorem keeps_beginResolution {R : State → State → Prop} (hR : Chains R) (tpr : ∀ t s, R s { s with tpr := t })
    (enter : ∀ op s, R s (enterResolution op s)) (goOn : ∀ t s, R s (withPhase (.dispatch t) s)) (op : Operation) :
    Keeps R (beginResolution op) := by
  refine keeps_bind hR (keeps_update fun s => enter op s) fun _ => keeps_bind hR (keeps_formInitialTpr hR tpr) fun _ => ?_
  exact keeps_bind hR (keeps_read hR _) fun t => keeps_update fun s => goOn t s

end Sys2Proof.Machine
end

