-- ==== Sys2Proof/Laws/Exec.lean ====
section
/-! SUPPORT. The meanings: which shared operation each instruction is, and what every instruction keeps, said once for any
relation that the primitive changes of the address modifier keep. -/

namespace Sys2Proof.Machine

variable {R : State → State → Prop}

/-! ### Relations kept by the address modifier -/

/-- A chain kept by accesses and by the changes of a final access: TPR.CA and the end of a resolution. -/
structure FinalChain (R : State → State → Prop) : Prop extends Chains R where
  read : ∀ ca acc, Keeps R (memRead ca acc)
  write : ∀ ca w acc, Keeps R (memWrite ca w acc)
  ca : ∀ ca s, R s (withCa ca s)
  ended : ∀ r s, R s (endWith r s)

/-- What keeps the primitive steps of an access keeps the access. -/
theorem finalChain_of_access (h : AccessChain R) (ca : ∀ ca s, R s (withCa ca s)) (ended : ∀ r s, R s (endWith r s)) :
    FinalChain R where
  toChains := h.toChains
  read := keeps_memRead h.toReadChain
  write := keeps_memWrite h
  ca := ca
  ended := ended

/-- A chain that is kept by the phase and the count of fetches as well, so by the changes every family makes. -/
structure ModifierChain (R : State → State → Prop) : Prop extends FinalChain R where
  goOn : ∀ t s, R s (withPhase (.dispatch t) s)
  pair : ∀ w r s, isPointerPair w = true → R s { s with phase := .pair w, ringTerm := r }
  count : ∀ s, R s (counted s)

/-! ### Final accesses -/

theorem keeps_pairOddWord (hR : Chains R) (hr : ∀ ca acc, Keeps R (memRead ca acc)) : Keeps R pairOddWord := by
  refine keeps_bind hR (keeps_get hR) fun s => keeps_bind hR (keeps_raiseIf hR _ _) fun _ => ?_
  exact keeps_bind hR (keeps_raiseIf hR _ _) fun _ => keeps_bind hR (hr _ _) fun _ => keeps_pure hR _

section
variable (h : FinalChain R)
include h

theorem keeps_finish (r : Result) : Keeps R (finish r) := keeps_update fun s => h.ended _ s

theorem keeps_finalWord : Keeps R finalWord := by
  refine keeps_bind h.toChains (keeps_read h.toChains _) fun ca => keeps_bind h.toChains (keeps_read h.toChains _) fun op => ?_
  split
  · exact keeps_bind h.toChains (h.read _ _) fun _ => keeps_finish h _
  · exact keeps_bind h.toChains (h.write _ _ _) fun _ => keeps_finish h _
  · exact keeps_finish h _

theorem keeps_finalChar (sz : CharSize) (cf : BitVec 3) : Keeps R (finalChar sz cf) := by
  refine keeps_bind h.toChains (keeps_read h.toChains _) fun ca => keeps_bind h.toChains (keeps_read h.toChains _) fun op => ?_
  split
  · exact keeps_bind h.toChains (h.read _ _) fun _ => keeps_finish h _
  · refine keeps_bind h.toChains (h.read _ _) fun _ => ?_
    exact keeps_bind h.toChains (h.write _ _ _) fun _ => keeps_finish h _
  · exact keeps_finish h _

theorem keeps_directOperand (td : Designator) : Keeps R (directOperand td) := by
  refine keeps_bind h.toChains (keeps_read h.toChains _) fun ca => keeps_bind h.toChains (keeps_read h.toChains _) fun op => ?_
  split
  · exact keeps_raise h.toChains _
  · exact keeps_finish h _

theorem keeps_registerTag (td : Designator) : Keeps R (registerTag td) := by
  refine keeps_bind h.toChains (keeps_read h.toChains _) fun d => keeps_bind h.toChains (keeps_read h.toChains _) fun v => ?_
  split
  · exact keeps_directOperand h _
  · refine keeps_bind h.toChains (keeps_read h.toChains _) fun ca => ?_
    exact keeps_bind h.toChains (keeps_update fun s => h.ca _ s) fun _ => keeps_finalWord h

theorem keeps_finalWordAt (ca : Word18) : Keeps R (finalWordAt ca) :=
  keeps_bind h.toChains (keeps_update fun s => h.ca ca s) fun _ => keeps_finalWord h

theorem keeps_finalCharAt (ca : Word18) (sz : CharSize) (cf : BitVec 3) : Keeps R (finalCharAt ca sz cf) :=
  keeps_bind h.toChains (keeps_update fun s => h.ca ca s) fun _ => keeps_finalChar h sz cf

theorem keeps_pointerPair (goOn : ∀ t s, R s (withPhase (.dispatch t) s)) {newTpr : Word36 → State → Tpr}
    (escalated : ∀ odd s, R s (escalate { s with tpr := newTpr odd s })) : Keeps R (pointerPair newTpr) := by
  refine keeps_bind h.toChains (keeps_pairOddWord h.toChains h.read) fun odd => ?_
  exact keeps_bind h.toChains (keeps_update fun s => escalated odd s) fun _ => keeps_update fun s => goOn _ s

/-- What an operation keeps, and taking a fault keeps, its completion keeps. -/
theorem complete_keeps {m : Act Unit} (hm : Keeps R m) {s t : State} (hc : complete m s = .next t) : R s t := by
  rcases complete_eq_next.1 hc with ht | ⟨f, u, hu, rfl⟩
  · exact keeps_of_ok hm ht
  · exact h.trans (keeps_of_error hm hu) (h.ended _ u)

end

/-! ### Operations that go on -/

section
variable (h : ModifierChain R)
include h

theorem keeps_countIndirect : Keeps R countIndirect :=
  keeps_bind h.toChains (keeps_update h.count) fun _ =>
    keeps_bind h.toChains (keeps_read h.toChains _) fun _ => keeps_raiseIf h.toChains _ _

theorem keeps_indirectFetch : Keeps R indirectFetch := by
  refine keeps_bind h.toChains (keeps_countIndirect h) fun _ => keeps_bind h.toChains (keeps_read h.toChains _) fun ca => ?_
  refine keeps_bind h.toChains (h.read _ _) fun r => ?_
  unfold acceptIndirect
  split
  · rename_i hp
    exact keeps_update fun s => h.pair _ _ s hp
  · exact keeps_bind h.toChains (keeps_update fun s => h.ca _ s) fun _ => keeps_update fun s => h.goOn _ s

theorem keeps_registerIndirectTag (td : Designator) : Keeps R (registerIndirectTag td) := by
  refine keeps_bind h.toChains (keeps_raiseIf h.toChains _ _) fun _ => keeps_bind h.toChains (keeps_read h.toChains _) fun v => ?_
  refine keeps_bind h.toChains (keeps_read h.toChains _) fun ca => ?_
  exact keeps_bind h.toChains (keeps_update fun s => h.ca _ s) fun _ => keeps_indirectFetch h

theorem keeps_indirectRegisterTag (hold : ∀ td s, R s (holdDesignator td s)) (td : Designator) :
    Keeps R (indirectRegisterTag td) :=
  keeps_bind h.toChains (keeps_update fun s => hold td s) fun _ => keeps_indirectFetch h

theorem keeps_tallyTag (leave : ∀ s, R s (leaveChain s)) {body : Act Unit} (hb : Keeps R body) : Keeps R (tallyTag body) := by
  refine keeps_bind h.toChains (keeps_get h.toChains) fun s => keeps_bind h.toChains (keeps_raiseIf h.toChains _ _) fun _ => ?_
  exact keeps_bind h.toChains (keeps_update leave) fun _ => hb

theorem keeps_tallyFetch : Keeps R tallyFetch := by
  refine keeps_bind h.toChains (keeps_countIndirect h) fun _ => keeps_bind h.toChains (keeps_read h.toChains _) fun ca => ?_
  exact keeps_bind h.toChains (h.read _ _) fun _ => keeps_pure h.toChains _

theorem keeps_tallyRewrite (tro : ∀ b s, R s (withTro b s)) (taddr y : Word18) (c : BitVec 12) (l : BitVec 6) :
    Keeps R (tallyRewrite taddr y c l) :=
  keeps_bind h.toChains (h.write _ _ _) fun _ => keeps_update fun s => tro _ s

theorem keeps_tallyStep (tro : ∀ b s, R s (withTro b s)) (fy : Word36 → Word18) (ft : BitVec 12 → BitVec 12) :
    Keeps R (tallyStep fy ft) := by
  refine keeps_bind h.toChains (keeps_tallyFetch h) fun tw => ?_
  exact keeps_bind h.toChains (keeps_tallyRewrite h tro _ _ _ _) fun _ => keeps_pure h.toChains _

theorem keeps_continueAt (ca : Word18) (ct : BitVec 6) : Keeps R (continueAt ca ct) :=
  keeps_bind h.toChains (keeps_update fun s => h.ca ca s) fun _ => keeps_update fun s => h.goOn _ s

theorem keeps_characterIndirect : Keeps R characterIndirect := by
  refine keeps_bind h.toChains (keeps_tallyFetch h) fun tw => keeps_bind h.toChains (keeps_raiseIf h.toChains _ _) fun _ => ?_
  exact keeps_finalCharAt h.toFinalChain _ _ _

theorem keeps_plainIndirect : Keeps R plainIndirect :=
  keeps_bind h.toChains (keeps_tallyFetch h) fun _ => keeps_finalWordAt h.toFinalChain _

theorem keeps_sequenceCharacter (tro : ∀ b s, R s (withTro b s)) : Keeps R sequenceCharacter := by
  refine keeps_bind h.toChains (keeps_tallyFetch h) fun tw => keeps_bind h.toChains (keeps_raiseIf h.toChains _ _) fun _ => ?_
  exact keeps_bind h.toChains (keeps_tallyRewrite h tro _ _ _ _) fun _ => keeps_finalCharAt h.toFinalChain _ _ _

theorem keeps_sequenceCharacterReverse (tro : ∀ b s, R s (withTro b s)) : Keeps R sequenceCharacterReverse := by
  refine keeps_bind h.toChains (keeps_tallyFetch h) fun tw => keeps_bind h.toChains (keeps_raiseIf h.toChains _ _) fun _ => ?_
  exact keeps_bind h.toChains (keeps_tallyRewrite h tro _ _ _ _) fun _ => keeps_finalCharAt h.toFinalChain _ _ _

end

/-! ### The families -/

/-- The operation an instruction completes. -/
def meaning : Instr → Act Unit
  | .n => registerTag 0#4
  | .au => registerTag 1#4
  | .qu => registerTag 2#4
  | .du => registerTag 3#4
  | .ic => registerTag 4#4
  | .al => registerTag 5#4
  | .ql => registerTag 6#4
  | .dl => registerTag 7#4
  | .x0 => registerTag 8#4
  | .x1 => registerTag 9#4
  | .x2 => registerTag 10#4
  | .x3 => registerTag 11#4
  | .x4 => registerTag 12#4
  | .x5 => registerTag 13#4
  | .x6 => registerTag 14#4
  | .x7 => registerTag 15#4
  | .nStar => registerIndirectTag 0#4
  | .auStar => registerIndirectTag 1#4
  | .quStar => registerIndirectTag 2#4
  | .duStar => registerIndirectTag 3#4
  | .icStar => registerIndirectTag 4#4
  | .alStar => registerIndirectTag 5#4
  | .qlStar => registerIndirectTag 6#4
  | .dlStar => registerIndirectTag 7#4
  | .x0Star => registerIndirectTag 8#4
  | .x1Star => registerIndirectTag 9#4
  | .x2Star => registerIndirectTag 10#4
  | .x3Star => registerIndirectTag 11#4
  | .x4Star => registerIndirectTag 12#4
  | .x5Star => registerIndirectTag 13#4
  | .x6Star => registerIndirectTag 14#4
  | .x7Star => registerIndirectTag 15#4
  | .f1 => tallyTag (raise (.faultTag .f1))
  | .itp => tallyTag (raise (.illegalModifier .reservedIt))
  | .itReserved42 => tallyTag (raise (.illegalModifier .reservedIt))
  | .its => tallyTag (raise (.illegalModifier .reservedIt))
  | .sd => tallyTag subtractDeltaTally
  | .scr => tallyTag sequenceCharacterReverse
  | .f2 => tallyTag (raise (.faultTag .f2))
  | .f3 => tallyTag (raise (.faultTag .f3))
  | .ci => tallyTag characterIndirect
  | .i => tallyTag plainIndirect
  | .sc => tallyTag sequenceCharacter
  | .ad => tallyTag addDeltaTally
  | .di => tallyTag decrementIncrement
  | .dic => tallyTag decrementIncrementContinue
  | .id => tallyTag incrementDecrement
  | .idc => tallyTag incrementDecrementContinue
  | .starN => indirectRegisterTag 0#4
  | .starAu => indirectRegisterTag 1#4
  | .starQu => indirectRegisterTag 2#4
  | .starDu => indirectRegisterTag 3#4
  | .starIc => indirectRegisterTag 4#4
  | .starAl => indirectRegisterTag 5#4
  | .starQl => indirectRegisterTag 6#4
  | .starDl => indirectRegisterTag 7#4
  | .starX0 => indirectRegisterTag 8#4
  | .starX1 => indirectRegisterTag 9#4
  | .starX2 => indirectRegisterTag 10#4
  | .starX3 => indirectRegisterTag 11#4
  | .starX4 => indirectRegisterTag 12#4
  | .starX5 => indirectRegisterTag 13#4
  | .starX6 => indirectRegisterTag 14#4
  | .starX7 => indirectRegisterTag 15#4
  | .itsPair segno rn => pointerPair fun odd t => itsTpr segno rn t.ringTerm odd t.tpr
  | .itpPair prnum => pointerPair fun odd t => itpTpr (getPr t prnum) t.ringTerm odd t.tpr

/-- Every instruction completes its operation. -/
theorem exec_eq_complete (instr : Instr) (s : State) : exec instr s = complete (meaning instr) s := by cases instr <;> rfl

/-- Every instruction keeps what accesses, the modifier's changes and its own family's changes keep. -/
theorem keeps_meaning (h : ModifierChain R) (instr : Instr)
    (hold : instr ∈ indirectRegisterRows.map Prod.fst → ∀ td s, R s (holdDesignator td s))
    (leave : instr ∈ indirectTallyTags → ∀ s, R s (leaveChain s))
    (tro : instr ∈ tallyBearing → ∀ b s, R s (withTro b s))
    (tpr : isPair instr = true → ∀ t s, R s (escalate { s with tpr := t })) : Keeps R (meaning instr) := by
  cases instr
  case n | au | qu | du | ic | al | ql | dl | x0 | x1 | x2 | x3 | x4 | x5 | x6 | x7 =>
    exact keeps_registerTag h.toFinalChain _
  case nStar | auStar | quStar | duStar | icStar | alStar | qlStar | dlStar | x0Star | x1Star | x2Star | x3Star
      | x4Star | x5Star | x6Star | x7Star =>
    exact keeps_registerIndirectTag h _
  case starN | starAu | starQu | starDu | starIc | starAl | starQl | starDl | starX0 | starX1 | starX2 | starX3
      | starX4 | starX5 | starX6 | starX7 =>
    exact keeps_indirectRegisterTag h (hold (by simp [indirectRegisterRows])) _
  case f1 | itp | itReserved42 | its | f2 | f3 =>
    exact keeps_tallyTag h (leave (by simp [indirectTallyTags])) (keeps_raise h.toChains _)
  case ad | sd | di | id =>
    refine keeps_tallyTag h (leave (by simp [indirectTallyTags])) ?_
    exact keeps_bind h.toChains (keeps_tallyStep h (tro (by simp [tallyBearing])) _ _) fun _ => keeps_finalWordAt h.toFinalChain _
  case dic | idc =>
    refine keeps_tallyTag h (leave (by simp [indirectTallyTags])) ?_
    exact keeps_bind h.toChains (keeps_tallyStep h (tro (by simp [tallyBearing])) _ _) fun _ => keeps_continueAt h _ _
  case sc =>
    exact keeps_tallyTag h (leave (by simp [indirectTallyTags])) (keeps_sequenceCharacter h (tro (by simp [tallyBearing])))
  case scr =>
    exact keeps_tallyTag h (leave (by simp [indirectTallyTags])) (keeps_sequenceCharacterReverse h (tro (by simp [tallyBearing])))
  case ci =>
    exact keeps_tallyTag h (leave (by simp [indirectTallyTags])) (keeps_characterIndirect h)
  case i =>
    exact keeps_tallyTag h (leave (by simp [indirectTallyTags])) (keeps_plainIndirect h)
  case itsPair | itpPair =>
    exact keeps_pointerPair h.toFinalChain h.goOn fun _ s => tpr rfl _ s

/-- The same of the next state an instruction answers. -/
theorem exec_keeps (h : ModifierChain R) {instr : Instr}
    (hold : instr ∈ indirectRegisterRows.map Prod.fst → ∀ td s, R s (holdDesignator td s))
    (leave : instr ∈ indirectTallyTags → ∀ s, R s (leaveChain s))
    (tro : instr ∈ tallyBearing → ∀ b s, R s (withTro b s))
    (tpr : isPair instr = true → ∀ t s, R s (escalate { s with tpr := t })) {s t : State}
    (hx : exec instr s = .next t) : R s t := by
  rw [exec_eq_complete] at hx
  exact complete_keeps h.toFinalChain (keeps_meaning h instr hold leave tro tpr) hx

/-! ### Tags in and outside an IR chain -/

/-- A register tag applies its designator outside an IR chain and the held one inside (R165, R182). -/
theorem registerTag_apply (td : Designator) (s : State) : registerTag td s = registerMod (appliedDesignator td s) s := rfl

/-- Register modification with a designator that is no direct operand (R165). -/
theorem registerMod_of_value {td : Designator} {s : State} (hd : (regValue td s).2 = false) :
    registerMod td s = finalWord (withCa (s.tpr.ca + (regValue td s).1) s) := by
  simp [registerMod, act_bind, hd, setCa]

/-- Register modification with a direct operand (R166). -/
theorem registerMod_of_direct {td : Designator} {s : State} (hd : (regValue td s).2 = true) :
    registerMod td s = directOperand td s := by
  simp [registerMod, act_bind, hd]

/-- Register-then-indirect modification with a designator that is no direct operand (R175). -/
theorem registerIndirectTag_of_value {td : Designator} (hd : isDirect td = false) (s : State) :
    registerIndirectTag td s = indirectFetch (withCa (s.tpr.ca + (regValue td s).1) s) := by
  simp [registerIndirectTag, act_bind, hd, setCa]

/-- Register-then-indirect modification with a direct operand faults (R176). -/
theorem registerIndirectTag_of_direct {td : Designator} (hd : isDirect td = true) (s : State) :
    registerIndirectTag td s = .error (.fault (.illegalModifier .directAfterRi)) s := by
  simp [registerIndirectTag, act_bind, hd]

theorem indirectRegisterTag_apply (td : Designator) (s : State) :
    indirectRegisterTag td s = indirectFetch (holdDesignator td s) := rfl

/-- An IT tag that is performed leaves the chain (R185, R220). -/
theorem tallyTag_of_performed {body : Act Unit} {s : State} (hp : TallyPerformed s) :
    tallyTag body s = body (leaveChain s) := by
  have hc : (s.inIr && s.config.irItPolicy == .fault) = false := by
    rcases hp with hp | hp <;> simp [hp]
  simp [tallyTag, act_bind, hc]

/-- An IT tag that is not performed faults (R185). -/
theorem tallyTag_of_refused {body : Act Unit} {s : State} (hp : ¬ TallyPerformed s) :
    tallyTag body s = .error (.fault (.illegalModifier .itInIrChain)) s := by
  have hc : (s.inIr && s.config.irItPolicy == .fault) = true := by
    simp only [TallyPerformed, not_or, Bool.not_eq_false] at hp
    cases hq : s.config.irItPolicy <;> simp_all
  simp [tallyTag, act_bind, hc]

end Sys2Proof.Machine
end

