-- ==== Sys2Proof/Laws/Fields.lean ====
section
/-! SUPPORT. Fields of concatenated words: what lies where, and taking a word apart and putting it together. -/

namespace Sys2Proof

variable {m n : Nat}

/-- A field inside the low part of a concatenation is a field of that part. -/
theorem extract_append_low (x : BitVec m) (y : BitVec n) {k l : Nat} (h : k + l ≤ n) :
    (x ++ y).extractLsb' k l = y.extractLsb' k l := by
  refine BitVec.eq_of_getLsbD_eq fun j hj => ?_
  simp only [BitVec.getLsbD_extractLsb', BitVec.getLsbD_append]
  rw [if_pos (by omega)]

/-- A field inside the high part of a concatenation is a field of that part. -/
theorem extract_append_high (x : BitVec m) (y : BitVec n) {k l : Nat} (h : n ≤ k) :
    (x ++ y).extractLsb' k l = x.extractLsb' (k - n) l := by
  refine BitVec.eq_of_getLsbD_eq fun j hj => ?_
  simp only [BitVec.getLsbD_extractLsb', BitVec.getLsbD_append]
  rw [if_neg (by omega), show k + j - n = k - n + j by omega]

/-- The whole of a bit vector as a field. -/
theorem extract_all (x : BitVec n) : x.extractLsb' 0 n = x := by
  refine BitVec.eq_of_getLsbD_eq fun j hj => ?_
  simp [hj]

/-- Two neighbouring fields side by side are one field. -/
theorem extract_append_extract (x : BitVec n) (k l j : Nat) :
    x.extractLsb' (k + l) j ++ x.extractLsb' k l = x.extractLsb' k (j + l) := by
  refine BitVec.eq_of_getLsbD_eq fun i hi => ?_
  simp only [BitVec.getLsbD_append, BitVec.getLsbD_extractLsb', hi, decide_true, Bool.true_and]
  split
  · rename_i h; simp [h]
  · rename_i h
    rw [show k + l + (i - l) = k + i by omega, show decide (i - l < j) = true by simp; omega, Bool.true_and]

/-- Concatenations are equal exactly when both parts are. -/
theorem append_inj {x x' : BitVec m} {y y' : BitVec n} : x ++ y = x' ++ y' ↔ x = x' ∧ y = y' := by
  refine ⟨fun h => ⟨?_, ?_⟩, by rintro ⟨rfl, rfl⟩; rfl⟩
  · have := congrArg (BitVec.extractLsb' n m) h
    rwa [extract_append_high _ _ le_rfl, extract_append_high _ _ le_rfl, Nat.sub_self, extract_all, extract_all] at this
  · have := congrArg (BitVec.extractLsb' 0 n) h
    rwa [extract_append_low _ _ (by omega), extract_append_low _ _ (by omega), extract_all, extract_all] at this

/-- A tag is its two parts. -/
theorem tagOfParts_parts (t : Tag) : tagOfParts (tagTm t) (tagTd t) = t := by
  rw [tagOfParts, tagTm, tagTd]
  exact (extract_append_extract t 0 4 2).trans (extract_all t)

/-- A tally word is its three fields, so a rewrite that keeps a field keeps its bits (R129, R224). -/
theorem tallyWord_fields (w : Word36) : Machine.tallyWord (Machine.wordY w) (Machine.wordTally w) (Machine.wordLow6 w) = w := by
  simp only [Machine.tallyWord, Machine.wordY, Machine.wordTally, Machine.wordLow6]
  refine BitVec.eq_of_getLsbD_eq fun j hj => ?_
  simp only [BitVec.getLsbD_append, BitVec.getLsbD_extractLsb']
  split
  · rename_i h; simp [h]
  · split
    · rename_i h h'; rw [show decide (j - 6 < 12) = true by simpa using h', Bool.true_and]; congr 1; omega
    · rw [show decide (j - 6 - 12 < 18) = true by simp; omega, Bool.true_and]; congr 1; omega

end Sys2Proof
end

