-- ==== Sys2Proof/Laws/PerInstr.lean ====
section
/-! SUPPORT. Statements about every instruction of the syntax, one lemma per constructor. -/

namespace Sys2Proof.Laws.EncodedTag

/-- The low six bits of an instruction's word are its tag (R126, R131, R132). -/
def Statement (instr : Instr) : Prop := wordTag (encode instr) = tagOf instr

theorem n : Statement .n := rfl
theorem au : Statement .au := rfl
theorem qu : Statement .qu := rfl
theorem du : Statement .du := rfl
theorem ic : Statement .ic := rfl
theorem al : Statement .al := rfl
theorem ql : Statement .ql := rfl
theorem dl : Statement .dl := rfl
theorem x0 : Statement .x0 := rfl
theorem x1 : Statement .x1 := rfl
theorem x2 : Statement .x2 := rfl
theorem x3 : Statement .x3 := rfl
theorem x4 : Statement .x4 := rfl
theorem x5 : Statement .x5 := rfl
theorem x6 : Statement .x6 := rfl
theorem x7 : Statement .x7 := rfl
theorem nStar : Statement .nStar := rfl
theorem auStar : Statement .auStar := rfl
theorem quStar : Statement .quStar := rfl
theorem duStar : Statement .duStar := rfl
theorem icStar : Statement .icStar := rfl
theorem alStar : Statement .alStar := rfl
theorem qlStar : Statement .qlStar := rfl
theorem dlStar : Statement .dlStar := rfl
theorem x0Star : Statement .x0Star := rfl
theorem x1Star : Statement .x1Star := rfl
theorem x2Star : Statement .x2Star := rfl
theorem x3Star : Statement .x3Star := rfl
theorem x4Star : Statement .x4Star := rfl
theorem x5Star : Statement .x5Star := rfl
theorem x6Star : Statement .x6Star := rfl
theorem x7Star : Statement .x7Star := rfl
theorem f1 : Statement .f1 := rfl
theorem itp : Statement .itp := rfl
theorem itReserved42 : Statement .itReserved42 := rfl
theorem its : Statement .its := rfl
theorem sd : Statement .sd := rfl
theorem scr : Statement .scr := rfl
theorem f2 : Statement .f2 := rfl
theorem f3 : Statement .f3 := rfl
theorem ci : Statement .ci := rfl
theorem i : Statement .i := rfl
theorem sc : Statement .sc := rfl
theorem ad : Statement .ad := rfl
theorem di : Statement .di := rfl
theorem dic : Statement .dic := rfl
theorem id : Statement .id := rfl
theorem idc : Statement .idc := rfl
theorem starN : Statement .starN := rfl
theorem starAu : Statement .starAu := rfl
theorem starQu : Statement .starQu := rfl
theorem starDu : Statement .starDu := rfl
theorem starIc : Statement .starIc := rfl
theorem starAl : Statement .starAl := rfl
theorem starQl : Statement .starQl := rfl
theorem starDl : Statement .starDl := rfl
theorem starX0 : Statement .starX0 := rfl
theorem starX1 : Statement .starX1 := rfl
theorem starX2 : Statement .starX2 := rfl
theorem starX3 : Statement .starX3 := rfl
theorem starX4 : Statement .starX4 := rfl
theorem starX5 : Statement .starX5 := rfl
theorem starX6 : Statement .starX6 := rfl
theorem starX7 : Statement .starX7 := rfl
theorem itsPair (segno : Segno) (rn : Ring) : Statement (.itsPair segno rn) := by
  exact (extract_append_low _ _ le_rfl).trans (extract_all _)

theorem itpPair (prnum : BitVec 3) : Statement (.itpPair prnum) := by
  exact (extract_append_low _ _ le_rfl).trans (extract_all _)

end Sys2Proof.Laws.EncodedTag
end

