-- ==== Sys2Proof/Laws/Step.lean ====
section
/-! SUPPORT. The step: what it runs in each phase, and how each kind of request is served. -/

namespace Sys2Proof.Machine

theorem step_dispatch {s : State} {t : Tag} (h : s.phase = .dispatch t) : step s = exec (decodeTag t) s := by
  simp only [step, h]

theorem step_pair {s : State} {w : Word36} (h : s.phase = .pair w) : step s = exec (decodePointerPair w) s := by
  simp only [step, h]

theorem step_idle {s : State} (h : s.phase = .idle) (hr : s.requests = []) : step s = .next s := by
  simp only [step, h, hr]

theorem step_request {s : State} {r : Request} {rs : List Request} (h : s.phase = .idle) (hr : s.requests = r :: rs) :
    step s = serve r (withRequests rs s) := by
  simp only [step, h, hr]

/-- A resolution's request runs its first dispatch in the state in which the resolution has begun. -/
theorem serve_of_begun {r : Request} {m : Act Unit} {s t : State} (h : beginRequest r = some m) (hm : m s = .ok () t) :
    serve r s = exec (decodeTag t.instr.tag) t := by
  simp only [serve, h]
  exact andThen_of_ok hm

/-- An access that answers is answered with its words. -/
theorem serve_access {r : AccessRequest} {ws : List Word36} {s t : State} (h : performAccess r s = .ok ws t) :
    serve (.access r) s = .next (endWith (.words ws) t) := by
  refine complete_of_ok (m := serveAccess r) ?_
  unfold serveAccess
  rw [bind_of_ok h]
  rfl

/-- The fetch of an instruction word reads at PPR.IC with TPR's ring and segment from PPR (R92). -/
theorem fetchInstruction_eq_ok {s t : State} {w : Word36} :
    fetchInstruction s = .ok w t ↔ ∃ sdw, ReadsAt (aimAtProcedure s) s.ppr.ic .instructionFetch w sdw t := by
  unfold fetchInstruction
  simp only [bind_eq_ok, update_apply, read_apply, act_pure, EStateM.Result.ok.injEq]
  constructor
  · rintro ⟨⟨⟩, u, ⟨-, rfl⟩, ic, u', ⟨rfl, rfl⟩, ⟨v, sdw⟩, u'', hr, rfl, rfl⟩
    exact ⟨sdw, memRead_eq_ok.1 hr⟩
  · rintro ⟨sdw, hr⟩
    exact ⟨(), _, ⟨trivial, rfl⟩, _, _, ⟨rfl, rfl⟩, (w, sdw), t, memRead_eq_ok.2 hr, rfl, rfl⟩

/-! ### Requests that stop -/

/-- An operation that stops is a fault taken or a refusal, whatever would have followed it (R369, R371). -/
theorem andThen_of_error {m : Act Unit} {k : State → Host.Outcome State Fault Refusal} {s t : State} {e : Stop}
    (h : m s = .error e t) : andThen m k s = stopOutcome e t := by
  cases e <;> simp [andThen, stopOutcome, h]

/-- A resolution that does not begin ends the step. -/
theorem serve_of_not_begun {r : Request} {m : Act Unit} {s t : State} {e : Stop} (h : beginRequest r = some m)
    (hm : m s = .error e t) : serve r s = stopOutcome e t := by
  simp only [serve, h]
  exact andThen_of_error hm

/-- An access that stops ends the step. -/
theorem serve_access_of_error {r : AccessRequest} {s t : State} {e : Stop} (h : performAccess r s = .error e t) :
    serve (.access r) s = stopOutcome e t := by
  refine andThen_of_error (m := serveAccess r) (k := .next) ?_
  unfold serveAccess
  exact bind_of_error h

/-- An instruction fetch stops where its read does (R92). -/
theorem fetchInstruction_of_error {s t : State} {e : Stop}
    (h : memRead s.ppr.ic .instructionFetch (aimAtProcedure s) = .error e t) : fetchInstruction s = .error e t := by
  unfold fetchInstruction
  rw [bind_of_ok (update_apply aimAtProcedure s), bind_of_ok (read_apply _ _)]
  exact bind_of_error h

/-! ### Runs -/

/-- A run goes on from the state its first step answers. -/
theorem run_of_next {s t : State} (h : step s = .next t) (k : Nat) :
    Host.Core.run Sys2Proof.core (k + 1) s = Host.Core.run Sys2Proof.core k t := by
  have h' : Host.Core.step Sys2Proof.core s = .next t := h
  simp only [Host.Core.run, h']

/-- A run ends where its first step is refused. -/
theorem run_of_refused {s : State} {r : Refusal} (h : step s = .refused r) (k : Nat) :
    Host.Core.run Sys2Proof.core (k + 1) s = .refused r := by
  have h' : Host.Core.step Sys2Proof.core s = .refused r := h
  simp only [Host.Core.run, h']

end Sys2Proof.Machine
end

