-- ==== Sys2Proof/Tests/Slice0.lean ====
section
/-! SUPPORT. Tests: what the well-formedness checks refuse, words decoded by hand, one step of each instruction on the spec's examples,
and for every obligation with hypotheses a concrete state and operands that meet them. A comment names an expected result's source. -/

namespace Sys2Proof.Tests

open Sys2Proof.Machine

/-! ### Well-formedness: a term that each check refuses -/

theorem test_wf_pair_in_tag_position : Instr.wellFormed .tag (.itsPair 5 4) = false ∧ Instr.wellFormed .tag (.itpPair 2) = false := by
  decide

theorem test_wf_reserved_in_indirect_word : Instr.wellFormed .indirectWord .its = false ∧ Instr.wellFormed .indirectWord .itp = false := by
  decide

theorem test_wf_config : Config.default.wellFormed = true ∧ Config.wellFormed { Config.default with memSize := 0 } = false ∧
    Config.wellFormed { Config.default with memSize := 2 ^ 24 + 1 } = false ∧
    Config.wellFormed { Config.default with pageShift := 19 } = false := by
  decide

/-! ### Decoding words written out from R121, R126, R131 and R132 -/

/-- The sixteen tags with Tm = 0 (R), in instruction words with Y = 0o000100 and an opcode in [17:9] (R121, R126). -/
theorem test_decode_register :
    [0o000100235000, 0o000100235001, 0o000100235002, 0o000100235003, 0o000100235004, 0o000100235005, 0o000100235006,
     0o000100235007, 0o000100235010, 0o000100235011, 0o000100235012, 0o000100235013, 0o000100235014, 0o000100235015,
     0o000100235016, 0o000100235017].map (decode .tag) =
    [.n, .au, .qu, .du, .ic, .al, .ql, .dl, .x0, .x1, .x2, .x3, .x4, .x5, .x6, .x7] := by
  decide

/-- The sixteen tags with Tm = 1 (RI), in instruction words with Y = 0o000100 and an opcode in [17:9] (R121, R126). -/
theorem test_decode_register_indirect :
    [0o000100235020, 0o000100235021, 0o000100235022, 0o000100235023, 0o000100235024, 0o000100235025, 0o000100235026,
     0o000100235027, 0o000100235030, 0o000100235031, 0o000100235032, 0o000100235033, 0o000100235034, 0o000100235035,
     0o000100235036, 0o000100235037].map (decode .tag) =
    [.nStar, .auStar, .quStar, .duStar, .icStar, .alStar, .qlStar, .dlStar, .x0Star, .x1Star, .x2Star, .x3Star,
     .x4Star, .x5Star, .x6Star, .x7Star] := by
  decide

/-- The sixteen tags with Tm = 2 (IT), in instruction words with Y = 0o000100 and an opcode in [17:9] (R121, R126). -/
theorem test_decode_indirect_tally :
    [0o000100235040, 0o000100235041, 0o000100235042, 0o000100235043, 0o000100235044, 0o000100235045, 0o000100235046,
     0o000100235047, 0o000100235050, 0o000100235051, 0o000100235052, 0o000100235053, 0o000100235054, 0o000100235055,
     0o000100235056, 0o000100235057].map (decode .tag) =
    [.f1, .itp, .itReserved42, .its, .sd, .scr, .f2, .f3, .ci, .i, .sc, .ad, .di, .dic, .id, .idc] := by
  decide

/-- The sixteen tags with Tm = 3 (IR), in instruction words with Y = 0o000100 and an opcode in [17:9] (R121, R126). -/
theorem test_decode_indirect_register :
    [0o000100235060, 0o000100235061, 0o000100235062, 0o000100235063, 0o000100235064, 0o000100235065, 0o000100235066,
     0o000100235067, 0o000100235070, 0o000100235071, 0o000100235072, 0o000100235073, 0o000100235074, 0o000100235075,
     0o000100235076, 0o000100235077].map (decode .tag) =
    [.starN, .starAu, .starQu, .starDu, .starIc, .starAl, .starQl, .starDl, .starX0, .starX1, .starX2, .starX3,
     .starX4, .starX5, .starX6, .starX7] := by
  decide

/-- R258's example: SEGNO 5 in [32:18], RN 4 in [17:15], tag 0o43; the same word with every ignored bit set. -/
theorem test_decode_its_pair : decode .indirectWord 0o000005400043 = .itsPair 5 4 ∧ decode .indirectWord 0o700005477743 = .itsPair 5 4 := by
  decide

/-- R259's example: PRNUM 2 in [35:33], tag 0o41; the same word with every ignored bit set. -/
theorem test_decode_itp_pair : decode .indirectWord 0o200000000041 = .itpPair 2 ∧ decode .indirectWord 0o277777777741 = .itpPair 2 := by
  decide

/-- An indirect word that starts no pair is its tag (R128, R133). -/
theorem test_decode_indirect_word : decode .indirectWord 0o000200777731 = .x1Star := by decide

/-- The opcode table's word for the tag `*x2`, as the host numbers it; a number that is no 36-bit word is refused. -/
theorem test_decode_table_word : decodeTableWord 8 0o72 = some .starX2 ∧ decodeTableWord 40 (2 ^ 36) = none ∧
    decodeTableWord 6 0o100 = none := by
  decide

/-- R121's fields: Y 0o200010, opcode 0o235, A and I set, tag 0o53. -/
theorem test_decode_fields : decodeFields 0o200010235353 = ⟨0o200010, 0o53, true, true⟩ := by decide

/-! ### One step of each instruction -/

/-- A state in ABSOLUTE mode with a memory, a computed address and an operation. -/
def start (m : Memory) (ca : Word18) (op : Operation := .read) : State := { State.reset with mem := m, op := op, tpr := ⟨0, 0, 0, ca⟩ }

/-- The state an instruction leaves. -/
def after : Host.Outcome State Fault Refusal → State
  | .next t => t
  | _ => State.reset

/-- The effective address handed back. -/
def eaOf (s : State) : Option Word18 :=
  match s.reply with
  | .result r => some r.ea
  | _ => none

/-- Registers with distinct values: A 5 and 7, Q 3 and 4 (upper, lower), IC 0o1000, Xn = 0o20 + n. -/
def withRegs (s : State) : State :=
  { s with a := 0o000005000007, q := 0o000003000004, ppr := ⟨0, 0, false, 0o1000⟩
           x := #v[0o20, 0o21, 0o22, 0o23, 0o24, 0o25, 0o26, 0o27] }

/-- R170 to R174: every R tag's effective address from Y = 0o100; du and dl add nothing. -/
theorem test_register_addresses :
    ([.n, .au, .qu, .du, .ic, .al, .ql, .dl, .x0, .x1, .x2, .x3, .x4, .x5, .x6, .x7] : List Instr).map
      (fun instr => eaOf (after (exec instr (withRegs (start [] 0o100 .prepareOnly))))) =
    [0o100, 0o105, 0o103, 0o100, 0o1100, 0o107, 0o104, 0o100, 0o120, 0o121, 0o122, 0o123, 0o124, 0o125, 0o126, 0o127].map some := by
  decide

/-- R165's example: Y = 1, X1 = 0o777777 wraps to address 0, whose word is read. -/
theorem test_x1_wraps : (after (exec .x1 { start [(0, 0o42)] 1 with x := #v[0, 0o777777, 0, 0, 0, 0, 0, 0] })).reply =
    .result ⟨0, .word, some 0o42⟩ := by
  decide

/-- R166's and R172's examples, and the store that faults; no memory access. -/
theorem test_direct : (after (exec .du (start [] 0o123))).reply = .result ⟨0o123, .direct, some 0o000123000000⟩ ∧
    (after (exec .dl (start [] 0o42))).reply = .result ⟨0o42, .direct, some 0o42⟩ ∧
    (after (exec .du (start [] 0o123 (.write 1)))).reply = .fault (.illegalModifier .directStore) := by
  decide

/-- R182's example: CT_HOLD = x1 = 3, word (Y 0o400, tag 0o05): address 0o403, the `al` not used. -/
theorem test_chain_end : eaOf (after (exec .al { start [] 0o400 .prepareOnly with
    inIr := true, ctHold := 9, a := 0o7, x := #v[0, 3, 0, 0, 0, 0, 0, 0] })) = some 0o403 := by
  decide

/-- R175: every RI tag but du* and dl* reads the indirect word at Y plus its register, takes its Y, and dispatches its tag. -/
theorem test_register_indirect :
    ([(.nStar, 0o100), (.auStar, 0o105), (.quStar, 0o103), (.icStar, 0o1100), (.alStar, 0o107), (.qlStar, 0o104), (.x0Star, 0o120),
      (.x1Star, 0o121), (.x2Star, 0o122), (.x3Star, 0o123), (.x4Star, 0o124), (.x5Star, 0o125), (.x6Star, 0o126),
      (.x7Star, 0o127)] : List (Instr × Nat)).all
      (fun p => let t := after (exec p.1 (withRegs (start [(p.2, 0o000300777731)] 0o100)))
        t.phase == .dispatch 0o31 && t.tpr.ca == 0o300 && t.depth == 1) = true := by
  decide

/-- R176: du* and dl* fault with no event. -/
theorem test_direct_after_ri : ([.duStar, .dlStar] : List Instr).all
    (fun instr => let t := after (exec instr (start [] 0o100)); t.reply == .fault (.illegalModifier .directAfterRi) && t.events == []) = true := by
  decide

/-- R180: every IR tag reads the indirect word at Y, holds its own designator, and dispatches the word's tag in the chain. -/
theorem test_indirect_register :
    ([.starN, .starAu, .starQu, .starDu, .starIc, .starAl, .starQl, .starDl, .starX0, .starX1, .starX2, .starX3, .starX4, .starX5,
      .starX6, .starX7] : List Instr).map
      (fun instr => let t := after (exec instr (withRegs (start [(0o100, 0o000200000073)] 0o100))); (t.ctHold, t.inIr, t.tpr.ca, t.phase)) =
    [0, 1, 2, 3, 4, 5, 6, 7, 8, 9, 10, 11, 12, 13, 14, 15].map fun d => (d, true, 0o200, .dispatch 0o73) := by
  decide

/-- R237 to R240: the reserved designators fault with no event. -/
theorem test_reserved :
    ([.f1, .f2, .f3, .itp, .itReserved42, .its] : List Instr).map (fun instr => (after (exec instr (start [] 0o100))).reply) =
    [.fault (.faultTag .f1), .fault (.faultTag .f2), .fault (.faultTag .f3), .fault (.illegalModifier .reservedIt),
     .fault (.illegalModifier .reservedIt), .fault (.illegalModifier .reservedIt)] := by
  decide

/-- R230's example: (Y 0o200, T 5, DELTA 3): address 0o200; rewritten to (Y 0o203, T 4, DELTA 3); TRO cleared. -/
theorem test_ad : let t := after (exec .ad { start [(0o100, 0o000200000503), (0o200, 0o111)] 0o100 with tro := true })
    memLookup t.mem 0o100 = some 0o000203000403 ∧ t.reply = .result ⟨0o200, .word, some 0o111⟩ ∧ t.tro = false := by
  decide

/-- R231's example: Y and T wrap; TRO set. -/
theorem test_sd : let t := after (exec .sd (start [(0o100, 0o000002777705)] 0o100 .prepareOnly))
    memLookup t.mem 0o100 = some 0o777775000005 ∧ eaOf t = some 0o777775 ∧ t.tro = true := by
  decide

/-- R232's example. -/
theorem test_di : let t := after (exec .di { start [(0o100, 0o000000777600)] 0o100 .prepareOnly with tro := true })
    memLookup t.mem 0o100 = some 0o777777777700 ∧ eaOf t = some 0o777777 ∧ t.tro = false := by
  decide

/-- R233's example: T = 0 wraps to 0o7777 with TRO 0. -/
theorem test_id : let t := after (exec .id { start [(0o100, 0o777777000017)] 0o100 .prepareOnly with tro := true })
    memLookup t.mem 0o100 = some 0o000000777717 ∧ eaOf t = some 0o777777 ∧ t.tro = false := by
  decide

/-- V2: T = 1 gives 0 with TRO 1. -/
theorem test_id_runout : (after (exec .id (start [(0o100, 0o000200000100)] 0o100 .prepareOnly))).tro = true := by decide

/-- R234's example: the word keeps CT 0o20; RI continues as `n*` at 0o300. -/
theorem test_idc : let t := after (exec .idc (start [(0o100, 0o000300000220)] 0o100))
    memLookup t.mem 0o100 = some 0o000301000120 ∧ t.tpr.ca = 0o300 ∧ t.phase = .dispatch 0o20 := by
  decide

/-- R241's example: an IT continuation keeps its designator. -/
theorem test_idc_it : (after (exec .idc (start [(0o100, 0o000300000253)] 0o100))).phase = .dispatch 0o53 := by decide

/-- R236's example: CT 0o11 continues as tag 0o00 at the decremented address. -/
theorem test_dic : let t := after (exec .dic (start [(0o100, 0o000301001011)] 0o100))
    memLookup t.mem 0o100 = some 0o000300001111 ∧ t.tpr.ca = 0o300 ∧ t.phase = .dispatch 0o00 := by
  decide

/-- R228's example: character (0o200, 5) is used, the word moves on to (0o201, 0). -/
theorem test_sc : let t := after (exec .sc (start [(0o100, 0o000200000205), (0o200, 0o010203040506)] 0o100))
    memLookup t.mem 0o100 = some 0o000201000100 ∧ t.reply = .result ⟨0o200, .char .six 5, some 6⟩ ∧ t.tro = false := by
  decide

/-- R229's example: the word moves back to (0o177, 5), and TRO is set. -/
theorem test_scr : let t := after (exec .scr (start [(0o100, 0o000200777700), (0o177, 0o010203040506)] 0o100))
    memLookup t.mem 0o100 = some 0o000177000005 ∧ t.reply = .result ⟨0o177, .char .six 5, some 6⟩ ∧ t.tro = true := by
  decide

/-- R227's example, and V6's first position that is too large. -/
theorem test_ci : (after (exec .ci (start [(0o100, 0o000200000005), (0o200, 0o010203040506)] 0o100))).reply =
      .result ⟨0o200, .char .six 5, some 6⟩ ∧
    (after (exec .ci (start [(0o100, 0o000200000006)] 0o100))).reply = .fault (.illegalModifier .charPosition) := by
  decide

/-- V41: a 9-bit character is written into position 2 of 0o101102103104. -/
theorem test_ci_write : memLookup (after (exec .ci (start [(0o100, 0o000200000042), (0o200, 0o101102103104)] 0o100 (.write 0o777)))).mem
    0o200 = some 0o101102777104 := by
  decide

/-- R235's example: no tally, no rewrite. -/
theorem test_i : let t := after (exec .i (start [(0o100, 0o000250000017)] 0o100 .prepareOnly))
    memLookup t.mem 0o100 = some 0o000250000017 ∧ eaOf t = some 0o250 ∧ t.events.length = 1 := by
  decide

/-- R258's example: TRR 4, TSR 5, TBR 0, CA 0o150; the mode escalates from ABSOLUTE. -/
theorem test_its_pair : let t := after (exec (.itsPair 5 4) (start [(0o101, 0o000150000000)] 0o100))
    t.tpr = ⟨4, 5, 0, 0o150⟩ ∧ t.addrMode = .appending ∧ t.escSaved = some .absolute ∧ t.phase = .dispatch 0 := by
  decide

/-- R259's example: PR2 = (SNR 0o17, RNR 5, WORDNO 0o1000), TRR 4, ring term 4. -/
theorem test_itp_pair : let s := { start [(0o101, 0o000010000000)] 0o100 with
      ringTerm := 4, tpr := ⟨4, 0, 0, 0o100⟩, pr := State.reset.pr.set 2 ⟨0o17, 5, 0o1000, 0⟩ }
    (after (exec (.itpPair 2) s)).tpr = ⟨5, 0o17, 0, 0o1010⟩ := by
  decide

/-- R256 and R264: a pair at an odd address, and one in BAR mode. -/
theorem test_pair_faults : (after (exec (.itsPair 5 4) (start [] 0o101))).reply = .fault (.illegalModifier .pointerPairOdd) ∧
    (after (exec (.itpPair 2) { start [] 0o100 with addrMode := .bar })).reply = .fault (.illegalModifier .pointerPairInBar) := by
  decide

/-! ### The step, the accessor and the appending unit -/

/-- An instruction placed for the host runs as the first one after reset: `n` with Y = 0o200 ends at address 0o200. -/
theorem test_with_fetch_word : let t := after (step (State.reset.withFetchWord 36 0o000200235000))
    eaOf t = some 0o200 ∧ t.instr = ⟨0o200, 0, false, false⟩ := by
  decide

/-- R161 with A = 1: PR2 with WORDNO 0o140 and OFFSET 0o10, the larger of two rings. -/
theorem test_initial_tpr : (tprFromPr { State.reset with instr := ⟨0o200010, 0, true, false⟩, ppr := ⟨4, 0, false, 0⟩
                                                         pr := State.reset.pr.set 2 ⟨5, 2, 0o140, 3⟩ }) = ⟨4, 5, 3, 0o150⟩ := by
  decide

/-- V100 to V102: relocation, the bound, and the wrap modulo 2^18. -/
theorem test_bar : barAddress ⟨0o10, 2⟩ 0o100 = 0o10100 ∧ barBad ⟨0o10, 2⟩ 0o2000 = true ∧ barBad ⟨0o10, 2⟩ 0o1777 = false ∧
    barAddress ⟨0o777, 0o777⟩ 0o1077 = 0o77 := by
  decide

/-- The descriptors of the spec's vectors: segment 5 unpaged, segment 6 paged with its PTW for page 1 at 0o2001; the words they map. -/
def vectors (m : Memory) : State :=
  { State.reset with
    dsbr := ⟨0o1000, 0o17, true, 0⟩, addrMode := .appending
    mem := [(0o1012, 0o001000004444), (0o1013, 0o000177200000), (0o1014, 0o000020004444), (0o1015, 0o003777000000),
            (0o2001, 0o000400000004)] ++ m }

/-- What a translation answers: the address, or why it stopped. -/
def translated (trr : Ring) (tsr : Segno) (ca : Word18) (acc : Access) (s : State) : Word24 ⊕ Stop :=
  match translate trr tsr ca acc s with
  | .ok r _ => .inl r.1
  | .error e _ => .inr e

/-- V80 to V87: ring brackets, permissions and bounds of an unpaged segment, and the descriptor segment's bound. -/
theorem test_translate_unpaged :
    [translated 4 5 0o150 .operandRead (vectors []), translated 5 5 0o150 .operandWrite (vectors []),
      translated 5 5 0o150 .operandRead (vectors []), translated 4 5 0o377 .operandRead (vectors []),
      translated 4 5 0o400 .operandRead (vectors []), translated 3 5 0o150 .instructionFetch (vectors []),
      translated 4 0o200 0 .operandRead (vectors [])] =
    [.inl 0o00100150, .inr (.fault (.accessViolation [.owb])), .inr (.fault (.accessViolation [.orb])), .inl 0o00100377,
      .inr (.fault (.accessViolation [.oosb])), .inr (.fault (.accessViolation [.oeb])),
      .inr (.fault (.accessViolation [.oosb]))] := by
  decide

/-- V88: a paged segment, its SDW and its PTW in entry 0 of each AM with USE 63. -/
theorem test_translate_paged : translated 4 6 0o2345 .operandRead (vectors []) = .inl 0o00040345 := by decide

/-- V90: the two write-backs of a store through a page that is not held. -/
theorem test_write_back :
    (match translate 4 6 0o2345 .operandWrite { vectors [] with config := { Config.default with ptwWriteback := true } } with
      | .ok _ t => t.events.drop 3
      | .error _ _ => []) =
    [.write 0o2001 0o000400001004 .descriptorWrite, .read 0o2001 0o000400001004 .descriptorRead,
      .write 0o2001 0o000400001104 .descriptorWrite] := by
  decide

/-- R300: the in-core PTW's M alone decides the write-back. With the entry's M already 1 and the in-core M 0 the word is read and written;
with the entry's M 0 and the in-core M 1 no access is made. -/
theorem test_in_core_modified :
    (let s (m : Bool) (w : Word36) : State := { State.reset with
        config := { Config.default with ptwWriteback := true }, mem := [(0o2001, w)]
        ptwam := (amFill (amReset ptwZero) ⟨6, 1, 0o000400, m⟩).2 };
      ((leaves (markModified 0 0o2001) (s true 0o000400000004)).events, (leaves (markModified 0 0o2001) (s false 0o000400000104)).events)) =
    ([.read 0o2001 0o000400000004 .descriptorRead, .write 0o2001 0o000400001104 .descriptorWrite], []) := by
  decide

/-- V95: a paged descriptor segment. -/
theorem test_paged_descriptor_segment : translated 4 0o1000 0o150 .operandRead { State.reset with
    dsbr := ⟨0o3000, 0o17777, false, 0⟩
    mem := [(0o3001, 0o000500000004), (0o50000, 0o001000004444), (0o50001, 0o000177200000)] } = .inl 0o00100150 := by
  decide

/-- V98: the tally rewrite faults after the word is read, and TRO keeps its value. -/
theorem test_rewrite_fault : let s := { vectors [(0o100100, 0o000200000503)] with
      mem := [(0o1016, 0o001000004444), (0o1017, 0o000176200000), (0o100100, 0o000200000503)]
      tpr := ⟨4, 7, 0, 0o100⟩, tro := true }
    let t := after (exec .ad s)
    t.reply = .fault (.accessViolation [.wOff]) ∧ memLookup t.mem 0o100100 = some 0o000200000503 ∧ t.tro = true := by
  decide

/-! ### States and operands that meet the hypotheses of the obligations -/

/-- No event of a list writes a page table word back. -/
def noWriteBack (es : List Event) : Bool :=
  es.all fun e => match e with
    | .write _ _ .descriptorWrite => false
    | _ => true

theorem not_wroteBack {s t : State} (h : noWriteBack (newEvents s t) = true) (a : Nat) : ¬ WroteBack s t a := by
  rintro ⟨pa, w, hm, -⟩
  simpa using List.all_eq_true.1 h _ hm

/-- After one fill of an empty memory one entry alone is full. -/
theorem filled_once {α : Type} {b d : α} {i j : Fin 64} (hi : ((amFill (amReset b) d).2.get i).full = true)
    (hj : ((amFill (amReset b) d).2.get j).full = true) : i = j := by
  simp only [amFill_full, amReset_get, Bool.false_eq_true, or_false] at hi hj
  rw [hi, hj]

/-- No entry of an empty memory is full. -/
theorem empty_at_reset {α : Type} {b : α} (i : Fin 64) : ((amReset b).get i).full ≠ true := by
  simp [amReset_get]

/-- The counters of an empty memory are a permutation. -/
theorem reset_permutation {α : Type} (b : α) : UsePermutation (amReset b) := by
  intro i j h
  have := congrArg BitVec.toNat h
  simp only [amReset_get, BitVec.toNat_ofNat] at this
  omega

/-- A tally word is read in the mode it was asked for in. -/
theorem tallyRead_mode {s u : State} {w : Word36} (h : TallyRead s w u) : u.addrMode = s.addrMode := by
  obtain ⟨-, sdw, hr⟩ := h
  rw [memRead_accessOnly (memRead_eq_ok.2 hr)]
  rfl

/-- In ABSOLUTE mode the rewrite of a tally word stores at the word's own address. -/
theorem rewrite_absolute {s u v : State} {w : Word36} {r : Word24 × Option Sdw} {ca : Word18} {acc : Access} (hm : s.addrMode = .absolute)
    (h : TallyRead s w u) (hf : formAddress ca acc u = .ok r v) : r.1 = ca.setWidth 24 := by
  rw [formAddress_absolute ((tallyRead_mode h).trans hm)] at hf
  cases hf
  rfl

/-! #### Encoding -/

theorem witness_DecodeEncodeAgree : Instr.wellFormed .tag .idc = true ∧ Instr.wellFormed .indirectWord (.itsPair 0o77777 7) = true := by
  decide

theorem witness_DecodeReadsExactlyTheFields : Instr.wellFormed .indirectWord (.itpPair 7) = true ∧
    (0o777777777741 : Word36) &&& encodingMask (.itpPair 7) = encode (.itpPair 7) := by
  decide

/-! #### The step and the interface -/

theorem witness_StepRunsDecodedInstruction : { start [] 0o100 with phase := .dispatch 0o53 }.phase = .dispatch 0o53 ∧
    { start [] 0o100 with phase := .pair 0o000005400043 }.phase = .pair 0o000005400043 ∧ wordTag 0o000005400043 = 0o43 ∧
    { start [] 0o100 with phase := .pair 0o200000000041 }.phase = .pair 0o200000000041 ∧ wordTag 0o200000000041 = 0o41 := by
  decide

theorem witness_StepRunsDecodedInstruction_resolve : let s := { State.reset with requests := [.resolve .read] }
    s.phase = .idle ∧ s.requests = [.resolve .read] ∧ ∃ u, beginResolution .read { s with requests := [] } = .ok () u :=
  ⟨rfl, rfl, _, rfl⟩

theorem witness_StepRunsDecodedInstruction_execute :
    let s := { State.reset with mem := [(0, 0o000200235020)], requests := [.execute .read] }
    s.phase = .idle ∧ s.requests = [.execute .read] ∧ ∃ u v,
      ReadsAt { s with requests := [], tpr := { s.tpr with trr := s.ppr.prr, tsr := s.ppr.psr } } s.ppr.ic .instructionFetch
        0o000200235020 none u ∧
      beginResolution .read { u with instr := decodeFields 0o000200235020 } = .ok () v :=
  ⟨rfl, rfl, _, _, ⟨_, _, rfl, by decide, rfl, rfl⟩, rfl⟩

theorem witness_ResolutionBegins : { State.reset with instr := ⟨0o100, 0, false, false⟩ }.instr.a = false ∧
    (let s := { vectors [] with instr := ⟨0o777777, 0, true, false⟩ };
      s.instr.a = true ∧ s.addrMode = .appending ∧ getPr s (s.instr.address.extractLsb' 15 3) = s.pr[7]) ∧
    (let s := { State.reset with instr := ⟨0o200010, 0, true, false⟩, requests := [.resolve .read] };
      s.instr.a = true ∧ s.addrMode ≠ .appending ∧ s.phase = .idle ∧ s.requests = [.resolve .read]) := by
  decide

theorem witness_ResolutionBegins_fetched : let s := { State.reset with mem := [(0, 0o100)], requests := [.execute .read] }
    s.addrMode ≠ .appending ∧ s.phase = .idle ∧ s.requests = [.execute .read] ∧ (0o100 : Word36).getLsbD 6 = true ∧
    ∃ u, ReadsAt { s with requests := [], tpr := ⟨0, 0, 0, 0⟩ } 0 .instructionFetch 0o100 none u :=
  ⟨by decide, rfl, rfl, by decide, _, _, _, rfl, by decide, rfl, rfl⟩

theorem witness_IdleCoreWaits : State.reset.phase = .idle ∧ State.reset.requests = [] := ⟨rfl, rfl⟩

theorem witness_ResetAndResetEvent : let s := { vectors [] with requests := [.reset, .resolve .read] }
    s.phase = .idle ∧ s.requests = [.reset, .resolve .read] :=
  ⟨rfl, rfl⟩

theorem witness_CollaboratorWrites : { vectors [] with requests := [.invalidateSdwam] }.phase = .idle ∧
    { vectors [] with requests := [.invalidateSdwam] }.requests = [.invalidateSdwam] ∧
    { vectors [] with requests := [.invalidatePtwam] }.requests = [.invalidatePtwam] ∧
    { vectors [] with requests := [.register (.x 7 5)] }.requests = [.register (.x 7 5)] ∧
    { vectors [] with requests := [.register (.dsbr ⟨0o2000, 0, true, 0⟩)] }.requests = [.register (.dsbr ⟨0o2000, 0, true, 0⟩)] ∧
    (0o77777777 : Word24).toNat < (vectors []).config.memSize ∧
    (let s := { vectors [] with config := { Config.default with memSize := 0o1000 }, requests := [.loadWord 0o1000 3] };
      s.phase = .idle ∧ s.requests = [.loadWord 0o1000 3] ∧ s.config.memSize ≤ (0o1000 : Word24).toNat) := by
  decide

/-- A state with a request, and the words 1 and 2 at 0o100 and 0o101, 3 at 0 and 4 at 0o777777. -/
def asked (r : AccessRequest) : State :=
  { State.reset with mem := [(0, 3), (0o100, 1), (0o101, 2), (0o777777, 4)], requests := [.access r] }

theorem witness_AccessRequestsAnswered_fetch : (asked .fetch).phase = .idle ∧ (asked .fetch).requests = [.access .fetch] ∧
    ∃ u, ReadsAt { asked .fetch with requests := [], tpr := ⟨0, 0, 0, 0⟩ } 0 .instructionFetch 3 none u :=
  ⟨rfl, rfl, _, _, _, rfl, by decide, rfl, rfl⟩

theorem witness_AccessRequestsAnswered_memRead : let s := asked (.memRead 0o777777 .operandRead)
    s.phase = .idle ∧ s.requests = [.access (.memRead 0o777777 .operandRead)] ∧
    ∃ u, ReadsAt { s with requests := [] } 0o777777 .operandRead 4 none u :=
  ⟨rfl, rfl, _, _, _, rfl, by decide, rfl, rfl⟩

theorem witness_AccessRequestsAnswered_memWrite : let s := asked (.memWrite 0 7 .operandWrite)
    s.phase = .idle ∧ s.requests = [.access (.memWrite 0 7 .operandWrite)] ∧ ∃ u, WritesAt { s with requests := [] } 0 .operandWrite 7 u :=
  ⟨rfl, rfl, _, _, _, _, rfl, by decide, rfl⟩

theorem witness_AccessRequestsAnswered_readPair : let s := asked (.readPair 0o101 .operandRead)
    s.phase = .idle ∧ s.requests = [.access (.readPair 0o101 .operandRead)] ∧ ∃ u v,
      ReadsAt { s with requests := [] } (0o101 &&& 0o777776#18) .operandRead 1 none u ∧ ReadsAt u (0o101 ||| 1#18) .operandRead 2 none v :=
  ⟨rfl, rfl, _, _, ⟨_, _, rfl, by decide, rfl, rfl⟩, _, _, rfl, by decide, rfl, rfl⟩

theorem witness_AccessRequestsAnswered_readN : let s := asked (.readN 0o777777 2 .operandRead)
    s.phase = .idle ∧ s.requests = [.access (.readN 0o777777 2 .operandRead)] ∧ ([4, 3] : List Word36).length = 2 ∧
    ∃ u, ReadsRun { s with requests := [] } 0o777777 .operandRead [4, 3] u :=
  ⟨rfl, rfl, rfl, _, none, _, ⟨_, _, rfl, by decide, rfl, rfl⟩, none, _, ⟨_, _, rfl, by decide, rfl, rfl⟩, rfl⟩

theorem witness_AccessRequestsAnswered_fetch_stops : let s := { asked .fetch with mem := [], requests := [.execute .read] }
    s.phase = .idle ∧ s.requests = [.execute .read] ∧ ∃ e u, memRead s.ppr.ic .instructionFetch
      { s with requests := [], tpr := { s.tpr with trr := s.ppr.prr, tsr := s.ppr.psr } } = .error e u :=
  ⟨rfl, rfl, _, _, rfl⟩

theorem witness_AccessRequestsAnswered_first_stops : let s := { asked (.readPair 0o777 .operandRead) with
      config := { Config.default with memSize := 0o776 } }
    (∃ e u, memRead (0o777 &&& 0o777776#18) .operandRead { s with requests := [] } = .error e u) ∧
    (∃ e u, memRead 0o776 .operandRead { s with requests := [] } = .error e u) ∧
    ∃ e u, memWrite 0o776 7 .operandWrite { s with requests := [] } = .error e u :=
  ⟨⟨_, _, rfl⟩, ⟨_, _, rfl⟩, _, _, rfl⟩

theorem witness_AccessRequestsAnswered_later_stops : let s := { asked (.readN 0o100 2 .operandRead) with
      config := { Config.default with memSize := 0o101 } }
    ∃ u, ReadsAt { s with requests := [] } (0o101 &&& 0o777776#18) .operandRead 1 none u ∧
      (∃ e v, memRead (0o101 ||| 1#18) .operandRead u = .error e v) ∧
      ReadsRun { s with requests := [] } 0o100 .operandRead [1] u ∧ [(1 : Word36)].length < 2 ∧
      ∃ e v, memRead (0o100 + BitVec.ofNat 18 [(1 : Word36)].length) .operandRead u = .error e v :=
  ⟨_, ⟨_, _, rfl, by decide, rfl, rfl⟩, ⟨_, _, rfl⟩, ⟨none, _, ⟨_, _, rfl, by decide, rfl, rfl⟩, rfl⟩, by decide, _, _, rfl⟩

/-! #### Physical memory and the addressing modes -/

/-- A machine with 0o1000 words, the last of them holding 5. -/
def small : State := { State.reset with config := { Config.default with memSize := 0o1000 }, mem := [(0o777, 5)] }

theorem witness_PhysicalAccess : small.config.memSize ≤ (0o1000 : Word24).toNat ∧ (0o777 : Word24).toNat < small.config.memSize ∧
    memLookup small.mem (0o777 : Word24).toNat = some 5 ∧ (0o776 : Word24).toNat < small.config.memSize ∧
    memLookup small.mem (0o776 : Word24).toNat = none := by
  decide

theorem witness_MemoryReadsWhatWasWritten : Memory.wf (memStore [(0o200, 2)] 0o100 1) ∧ Memory.wf [(0o100, 1), (0o200, 2)] ∧
    ∀ a, memLookup (memStore [(0o200, 2)] 0o100 1) a = memLookup [(0o100, 1), (0o200, 2)] a :=
  ⟨by decide, by decide, fun _ => rfl⟩

theorem witness_AddressFormedByMode_bar : let s := { State.reset with addrMode := .bar, bar := ⟨0o10, 2⟩ }
    s.addrMode = .bar ∧ s.bar.bound ≤ (0o2000 : Word18).extractLsb' 9 9 ∧ (0o1777 : Word18).extractLsb' 9 9 < s.bar.bound := by
  decide

theorem witness_AddressFormedByMode : State.reset.addrMode = .absolute ∧
    (let s := { vectors [] with tpr := ⟨4, 5, 0, 0⟩ };
      s.addrMode = .appending ∧ (∃ pa d t, translate s.tpr.trr s.tpr.tsr 0o377 .operandRead s = .ok (pa, d) t) ∧
      ∃ e t, translate s.tpr.trr s.tpr.tsr 0o400 .operandRead s = .error e t) :=
  ⟨rfl, rfl, ⟨_, _, _, rfl⟩, _, _, rfl⟩

/-! #### The appending unit -/

/-- The SDW of the unpaged segment 5 of the vectors, read, write and execute in rings up to 4. -/
def sdw5 : Sdw := decodeSdw 5 0o001000004444 0o000177200000

/-- The SDW of the paged segment 6. -/
def sdw6 : Sdw := decodeSdw 6 0o000020004444 0o003777000000

/-- The vectors' state with segment 5 in the SDWAM, and page 1 of segment 6 in the PTWAM. -/
def held : State :=
  { vectors [] with sdwam := (amFill (amReset sdwZero) sdw5).2, ptwam := (amFill (amReset ptwZero) ⟨6, 1, 0o000400, false⟩).2 }

theorem witness_HeldSegmentAndUnpagedAddress : ((held.sdwam.get 0).full = true ∧ (held.sdwam.get 0).body = sdw5 ∧
    SdwamUnique held.sdwam) ∧ (∃ u, getSdw 5 held = .ok sdw5 u) ∧ violations sdw5 4 0o377 .operandWrite = [] ∧ sdw5.u = true :=
  ⟨⟨by decide, by decide, fun _ _ hi hj => fun _ => filled_once hi hj⟩, ⟨_, rfl⟩, by decide, by decide⟩

theorem witness_SegmentDescriptorFetched_bound : (∀ i, ((vectors []).sdwam.get i).full = true →
      ((vectors []).sdwam.get i).body.pointer ≠ 0o200) ∧ (vectors []).dsbr.bnd.toNat < 2 * (0o200 : Segno).toNat / 16 :=
  ⟨fun i h => absurd h (empty_at_reset i), by decide⟩

theorem witness_SegmentDescriptorFetched : let s := vectors [(0o1376, 0o001000004444), (0o1377, 0o000177200000)]
    let sa := BitVec.ofNat 24 (s.dsbr.addr.toNat + 2 * (0o177 : Segno).toNat)
    (∀ i, (s.sdwam.get i).full = true → (s.sdwam.get i).body.pointer ≠ 0o177) ∧
    2 * (0o177 : Segno).toNat / 16 ≤ s.dsbr.bnd.toNat ∧ s.dsbr.u = true ∧ sa.toNat < s.config.memSize ∧
    (sa + 1).toNat < s.config.memSize ∧ memLookup s.mem sa.toNat = some 0o001000004444 ∧
    memLookup s.mem (sa + 1).toNat = some 0o000177200000 ∧ (0o001000004444 : Word36).getLsbD 2 = true :=
  ⟨fun i h => absurd h (empty_at_reset i), by decide, rfl, by decide, by decide, by decide, by decide, by decide⟩

theorem witness_SegmentDescriptorFetched_invalid : let s := vectors [(0o1016, 0o000030004442), (0o1017, 0)]
    let sa := BitVec.ofNat 24 (s.dsbr.addr.toNat + 2 * (7 : Segno).toNat)
    (∀ i, (s.sdwam.get i).full = true → (s.sdwam.get i).body.pointer ≠ 7) ∧
    2 * (7 : Segno).toNat / 16 ≤ s.dsbr.bnd.toNat ∧ s.dsbr.u = true ∧ sa.toNat < s.config.memSize ∧
    (sa + 1).toNat < s.config.memSize ∧ memLookup s.mem sa.toNat = some 0o000030004442 ∧
    memLookup s.mem (sa + 1).toNat = some 0 ∧ (0o000030004442 : Word36).getLsbD 2 = false :=
  ⟨fun i h => absurd h (empty_at_reset i), by decide, rfl, by decide, by decide, by decide, by decide, by decide⟩

/-- V95 with an invalid descriptor-segment PTW after the valid one, and an invalid SDW for segment 0o1001. -/
def pagedDs : State :=
  { State.reset with
    dsbr := ⟨0o3000, 0o17777, false, 0⟩
    mem := [(0o3001, 0o000500000004), (0o3002, 0o000500000003), (0o50000, 0o001000004444), (0o50001, 0o000177200000),
            (0o50002, 0o000030004442), (0o50003, 0)] }

theorem witness_PagedDescriptorSegment : pagedDs.dsbr.u = false ∧
    (0o3001 : Word24) = BitVec.ofNat 24 (pagedDs.dsbr.addr.toNat + 2 * (0o1000 : Segno).toNat / pagedDs.config.pageSize) ∧
    (0o3001 : Word24) = BitVec.ofNat 24 (pagedDs.dsbr.addr.toNat + 2 * (0o1777 : Segno).toNat / pagedDs.config.pageSize) ∧
    memLookup pagedDs.mem (0o3001 : Word24).toNat = some 0o000500000004 ∧ (0o3001 : Word24).toNat < pagedDs.config.memSize ∧
    (0o000500000004 : Word36).getLsbD 2 = true ∧ 2 * (0o1000 : Segno).toNat / 16 ≤ pagedDs.dsbr.bnd.toNat ∧
    (0o50000 : Word24) = BitVec.ofNat 24 (((0o000500000004 : Word36).extractLsb' 18 18).toNat * 64 +
      2 * (0o1000 : Segno).toNat % pagedDs.config.pageSize) ∧
    memLookup pagedDs.mem (0o50000 : Word24).toNat = some 0o001000004444 ∧
    memLookup pagedDs.mem (0o50000 + 1 : Word24).toNat = some 0o000177200000 ∧ (0o001000004444 : Word36).getLsbD 2 = true ∧
    (∀ i, (pagedDs.sdwam.get i).full = true → (pagedDs.sdwam.get i).body.pointer ≠ 0o1000) :=
  ⟨rfl, by decide, by decide, by decide, by decide, by decide, by decide, by decide, by decide, by decide, by decide,
    fun i h => absurd h (empty_at_reset i)⟩

theorem witness_PagedDescriptorSegment_invalid :
    (0o3002 : Word24) = BitVec.ofNat 24 (pagedDs.dsbr.addr.toNat + 2 * (0o2000 : Segno).toNat / pagedDs.config.pageSize) ∧
    memLookup pagedDs.mem (0o3002 : Word24).toNat = some 0o000500000003 ∧ (0o000500000003 : Word36).getLsbD 2 = false ∧
    2 * (0o2000 : Segno).toNat / 16 ≤ pagedDs.dsbr.bnd.toNat ∧
    (0o50002 : Word24) = BitVec.ofNat 24 (((0o000500000004 : Word36).extractLsb' 18 18).toNat * 64 +
      2 * (0o1001 : Segno).toNat % pagedDs.config.pageSize) ∧
    memLookup pagedDs.mem (0o50002 : Word24).toNat = some 0o000030004442 ∧
    memLookup pagedDs.mem (0o50002 + 1 : Word24).toNat = some 0 ∧ (0o000030004442 : Word36).getLsbD 2 = false := by
  decide

theorem witness_AccessChecks : (∃ u, getSdw 5 (vectors []) = .ok sdw5 u) ∧ violations sdw5 5 0o400 .operandWrite = [.owb, .oosb] :=
  ⟨⟨_, rfl⟩, by decide⟩

theorem witness_PageTranslates_held : (1 : Word18) = BitVec.ofNat 18 ((0o3777 : Word18).toNat / held.config.pageSize) ∧
    (0o2001 : Word24) = BitVec.ofNat 24 (sdw6.addr.toNat + (0o3777 : Word18).toNat / held.config.pageSize) ∧
    isWrite .indirectRead = false ∧ isWrite .operandWrite = true ∧
    (∃ v, markModified 0 0o2001 { held with ptwam := amPromote held.ptwam 0 } = .ok () v) ∧
    (held.ptwam.get 0).full = true ∧ (held.ptwam.get 0).body.pointer = 6 ∧
    (held.ptwam.get 0).body.pageno = 1 ∧ PtwamUnique held.ptwam :=
  ⟨by decide, by decide, rfl, rfl, ⟨_, rfl⟩, by decide, by decide, by decide, fun _ _ hi hj _ _ => filled_once hi hj⟩

theorem witness_PageTranslates_fetched : let s := vectors [(0o2002, 0o000500000001)]
    (0o2001 : Word24) = BitVec.ofNat 24 (sdw6.addr.toNat + (0o2345 : Word18).toNat / s.config.pageSize) ∧
    (0o2002 : Word24) = BitVec.ofNat 24 (sdw6.addr.toNat + (0o4000 : Word18).toNat / s.config.pageSize) ∧
    (∀ j, (s.ptwam.get j).full = true → (s.ptwam.get j).body.pointer = 6 → (s.ptwam.get j).body.pageno ≠ 1) ∧
    (∀ j, (s.ptwam.get j).full = true → (s.ptwam.get j).body.pointer = 6 → (s.ptwam.get j).body.pageno ≠ 2) ∧
    memLookup s.mem (0o2001 : Word24).toNat = some 0o000400000004 ∧ (0o000400000004 : Word36).getLsbD 2 = true ∧
    memLookup s.mem (0o2002 : Word24).toNat = some 0o000500000001 ∧ (0o000500000001 : Word36).getLsbD 2 = false ∧
    (0o2002 : Word24).toNat < s.config.memSize :=
  ⟨by decide, by decide, fun j h => absurd h (empty_at_reset j), fun j h => absurd h (empty_at_reset j), by decide, by decide,
    by decide, by decide, by decide⟩

theorem witness_WrittenPageIsModified : held.config.ptwWriteback = false ∧
    (let s := { held with config := { Config.default with ptwWriteback := true, memSize := 0o2002 } };
      s.config.ptwWriteback = true ∧ (0o2001 : Word24).toNat < s.config.memSize ∧
      memLookup s.mem (0o2001 : Word24).toNat = some 0o000400000004 ∧ s.config.memSize ≤ (0o2002 : Word24).toNat) := by
  decide

theorem witness_TranslationFrame : (∃ r t, translate 4 6 0o2345 .operandWrite (vectors []) = .ok r t) ∧
    ∃ e t, translate 4 5 0o400 .operandRead (vectors []) = .error e t :=
  ⟨⟨_, _, rfl⟩, _, _, rfl⟩

/-! #### The associative memories -/

theorem witness_CountersAgeAndStayPermutation : UsePermutation (amReset sdwZero) := reset_permutation _

theorem witness_VictimChoice_empty : let m := (amFill (amReset sdwZero) sdw5).2
    (m.get 1).full = false ∧ ∀ j < (1 : Fin 64), (m.get j).full = true := by
  refine ⟨by decide, fun j hj => ?_⟩
  have : j = 0 := by omega
  subst this
  decide

theorem witness_VictimChoice_full : let m : Am Sdw := Vector.ofFn fun i => ⟨true, BitVec.ofNat 6 (63 - i.val), sdw5⟩
    UsePermutation m ∧ ∀ i, (m.get i).full = true := by
  refine ⟨fun i j h => ?_, fun i => by simp⟩
  have := congrArg BitVec.toNat h
  simp only [am_get_ofFn, BitVec.toNat_ofNat] at this
  omega

theorem witness_FillOrderAfterReset : (List.replicate 64 sdw5).length ≤ 64 ∧ ([] : List Sdw).length ≤ 64 := by decide

/-! #### How accesses go through in ABSOLUTE mode -/

/-- The state a read of `w` at `ca` leaves in ABSOLUTE mode. -/
def readState (ca : Word18) (acc : Access) (w : Word36) (s : State) : State := withEvent (.read (ca.setWidth 24) w (.logical acc)) s

/-- The state a write of `w` at `ca` leaves in ABSOLUTE mode. -/
def writtenState (ca : Word18) (acc : Access) (w : Word36) (s : State) : State :=
  withEvent (.write (ca.setWidth 24) w (.logical acc)) (withWord (ca.setWidth 24) w s)

/-- The address exists in ABSOLUTE mode, and the chain is not limited. -/
def plain (s : State) (ca : Word18) : Bool :=
  decide (s.addrMode = .absolute) && decide ((ca.setWidth 24 : Word24).toNat < s.config.memSize) &&
    decide (s.config.maxIndirectDepth = none)

theorem readsAt_plain {s : State} {ca : Word18} {acc : Access} {w : Word36} (h : plain s ca = true)
    (hw : memLookup s.mem (ca.setWidth 24 : Word24).toNat = some w) : ReadsAt s ca acc w none (readState ca acc w s) := by
  simp only [plain, Bool.and_eq_true, decide_eq_true_eq] at h
  exact ⟨_, s, formAddress_absolute h.1.1 ca acc, h.1.2, hw, rfl⟩

theorem writesAt_plain {s : State} {ca : Word18} {acc : Access} {w : Word36} (h : plain s ca = true) :
    WritesAt s ca acc w (writtenState ca acc w s) := by
  simp only [plain, Bool.and_eq_true, decide_eq_true_eq] at h
  exact ⟨_, none, s, formAddress_absolute h.1.1 ca acc, h.1.2, rfl⟩

theorem tallyRead_plain {s : State} {w : Word36} (h : plain s s.tpr.ca = true)
    (hw : memLookup s.mem (s.tpr.ca.setWidth 24 : Word24).toNat = some w) :
    TallyRead s w (readState s.tpr.ca .indirectRead w (counted s)) := by
  refine ⟨fun m hm => ?_, none, readsAt_plain (s := counted s) h hw⟩
  simp only [plain, Bool.and_eq_true, decide_eq_true_eq] at h
  rw [h.2] at hm
  cases hm

theorem tallyUpdated_plain {s : State} {w : Word36} (y : Word18) (c : BitVec 12) (l : BitVec 6) (h : plain s s.tpr.ca = true)
    (hw : memLookup s.mem (s.tpr.ca.setWidth 24 : Word24).toNat = some w) :
    TallyUpdated s w y c l { writtenState s.tpr.ca .indirectWrite (y ++ c ++ l)
      (readState s.tpr.ca .indirectRead w (counted s)) with tro := decide (c = 0#12) } :=
  ⟨_, _, tallyRead_plain h hw, writesAt_plain (s := readState s.tpr.ca .indirectRead w (counted s)) h, rfl⟩

theorem wordEnd_read {s : State} {w : Word36} (ho : s.op = .read) (h : plain s s.tpr.ca = true)
    (hw : memLookup s.mem (s.tpr.ca.setWidth 24 : Word24).toNat = some w) :
    WordEnd s (endWith (.result ⟨s.tpr.ca, .word, some w⟩) (readState s.tpr.ca .operandRead w s)) := by
  unfold WordEnd
  rw [ho]
  exact ⟨w, none, _, readsAt_plain h hw, rfl⟩

theorem wordEnd_write {s : State} {v : Word36} (ho : s.op = .write v) (h : plain s s.tpr.ca = true) :
    WordEnd s (endWith (.result ⟨s.tpr.ca, .word, none⟩) (writtenState s.tpr.ca .operandWrite v s)) := by
  unfold WordEnd
  rw [ho]
  exact ⟨_, writesAt_plain h, rfl⟩

theorem wordEnd_prepare {s : State} (ho : s.op = .prepareOnly) : WordEnd s (endWith (.result ⟨s.tpr.ca, .word, none⟩) s) := by
  unfold WordEnd
  rw [ho]

theorem charEnd_read {s : State} {w : Word36} (sz : CharSize) (cf : BitVec 3) (ho : s.op = .read) (h : plain s s.tpr.ca = true)
    (hw : memLookup s.mem (s.tpr.ca.setWidth 24 : Word24).toNat = some w) :
    CharEnd s sz cf (endWith (.result ⟨s.tpr.ca, .char sz cf, some (charAt w sz cf.toNat)⟩)
      (readState s.tpr.ca .operandRead w s)) := by
  unfold CharEnd
  rw [ho]
  exact ⟨w, none, _, readsAt_plain h hw, rfl⟩

theorem indirectEnd_plain {s : State} {w : Word36} (h : plain s s.tpr.ca = true)
    (hw : memLookup s.mem (s.tpr.ca.setWidth 24 : Word24).toNat = some w) : ∃ t, IndirectEnd s t := by
  obtain ⟨hd, -⟩ := tallyRead_plain h hw
  exact ⟨_, hd, w, none, _, readsAt_plain (s := counted s) h hw, rfl⟩

/-! #### Rows of the tables -/

def rowN : Instr × Instr × Instr × Designator × (State → Word18) := (.n, .nStar, .starN, 0, fun _ => 0)
def rowX1 : Instr × Instr × Instr × Designator × (State → Word18) := (.x1, .x1Star, .starX1, 9, fun s => s.x[1])
def rowAu : Instr × Instr × Instr × Designator × (State → Word18) := (.au, .auStar, .starAu, 1, fun s => s.a.extractLsb' 18 18)
def rowDu : Instr × Instr × Instr × Designator × (Word18 → Word36) := (.du, .duStar, .starDu, 3, fun ca => ca ++ 0#18)
def rowDl : Instr × Instr × Instr × Designator × (Word18 → Word36) := (.dl, .dlStar, .starDl, 7, fun ca => 0#18 ++ ca)
def rowAd : Instr × (Word36 → Word18) × (Word36 → BitVec 12) × (Word36 → Word18) :=
  (.ad, fun w => wordY w + (wordLow6 w).setWidth 18, fun w => wordTally w - 1, fun w => wordY w)
def rowDic : Instr × (Word36 → Word18) × (Word36 → BitVec 12) × (Word36 → Word18) :=
  (.dic, fun w => wordY w - 1, fun w => wordTally w + 1, fun w => wordY w - 1)

theorem rowN_mem : rowN ∈ registerRows := by simp [registerRows, rowN]
theorem rowX1_mem : rowX1 ∈ registerRows := by simp [registerRows, rowX1]
theorem rowAu_mem : rowAu ∈ registerRows := by simp [registerRows, rowAu]
theorem rowDu_mem : rowDu ∈ directRows := by simp [directRows, rowDu]
theorem rowDl_mem : rowDl ∈ directRows := by simp [directRows, rowDl]
theorem rowAd_mem : rowAd ∈ wordTallyRows := by simp [wordTallyRows, rowAd]
theorem rowDic_mem : rowDic ∈ continueTallyRows := by simp [continueTallyRows, rowDic]

/-! #### Register modification and indirection -/

/-- R165's example in an operation: X1 is 0o777777, so Y = 1 wraps to 0, where 0o42 stands. -/
def wraps (op : Operation) : State := { start [(0, 0o42)] 1 op with x := #v[0, 0o777777, 0, 0, 0, 0, 0, 0] }

theorem witness_RegisterTagCompletes :
    rowX1 ∈ registerRows ∧ (wraps .read).inIr = false ∧
    (∃ t, WordEnd (withCa ((wraps .read).tpr.ca + (wraps .read).x[1]) (wraps .read)) t) ∧
    (∃ t, WordEnd (withCa ((wraps (.write 7)).tpr.ca + (wraps (.write 7)).x[1]) (wraps (.write 7))) t) ∧
    ∃ t, WordEnd (withCa ((wraps .prepareOnly).tpr.ca + (wraps .prepareOnly).x[1]) (wraps .prepareOnly)) t :=
  ⟨rowX1_mem, rfl, ⟨_, wordEnd_read (w := 0o42) rfl (by decide) (by decide)⟩, ⟨_, wordEnd_write rfl (by decide)⟩,
    _, wordEnd_prepare rfl⟩

theorem witness_DirectOperandCompletes : rowDu ∈ directRows ∧
    (start [] 0o123).inIr = false ∧ (∀ v, (start [] 0o123).op ≠ .write v) ∧ (start [] 0o123 (.write 1)).op = .write 1 :=
  ⟨rowDu_mem, rfl, fun _ h => (by cases h), rfl⟩

/-- A state in an IR chain that holds a designator. -/
def chained (td : Designator) (op : Operation) : State := { wraps op with inIr := true, ctHold := td }

theorem witness_ChainEndsWithHeldDesignator : .al ∈ registerTags ∧ (chained 9 .read).inIr = true ∧
    rowX1 ∈ registerRows ∧ (chained 9 .read).ctHold = 9 ∧
    (∃ t, WordEnd (withCa ((chained 9 .read).tpr.ca + (chained 9 .read).x[1]) (chained 9 .read)) t) ∧
    rowDl ∈ directRows ∧ (chained 7 .read).ctHold = 7 ∧
    (∀ v, (chained 7 .read).op ≠ .write v) ∧ (chained 7 (.write 1)).op = .write 1 :=
  ⟨by decide, rfl, rowX1_mem, rfl, ⟨_, wordEnd_read (w := 0o42) rfl (by decide) (by decide)⟩, rowDl_mem, rfl,
    fun _ h => (by cases h), rfl⟩

theorem witness_RegisterIndirectCompletes : let s := { start [(0o105, 0o000200777731)] 0o100 with a := 0o000005000007 }
    rowAu ∈ registerRows ∧
    ∃ t, IndirectEnd (withCa (s.tpr.ca + s.a.extractLsb' 18 18) s) t :=
  ⟨rowAu_mem, indirectEnd_plain (w := 0o000200777731) (by decide) (by decide)⟩

theorem witness_DirectAfterRiFaults : rowDl ∈ directRows := rowDl_mem

theorem witness_IndirectRegisterCompletes : (.starX2, 10) ∈ indirectRegisterRows ∧
    ∃ t, IndirectEnd { start [(0o100, 0o000005400043)] 0o100 with ctHold := 10, inIr := true } t :=
  ⟨by decide, indirectEnd_plain (w := 0o000005400043) (by decide) (by decide)⟩

theorem witness_ChainLimitFaults : let s := { start [] 0o100 with config := { Config.default with maxIndirectDepth := some 3 }, depth := 3 }
    s.config.maxIndirectDepth = some 3 ∧ 3 ≤ s.depth ∧ rowN ∈ registerRows ∧
    (.starN, 0) ∈ indirectRegisterRows ∧ .ci ∈ tallyBearing ++ [.ci, .i] ∧ TallyPerformed s :=
  ⟨rfl, by decide, rowN_mem, by decide, by decide, .inl rfl⟩

/-! #### Indirect-tally modification -/

/-- R230's example in an operation, with the operand 0o111. -/
def tallied (op : Operation) : State := start [(0o100, 0o000200000503), (0o200, 0o111)] 0o100 op

theorem witness_WordTallyCompletes :
    rowAd ∈ wordTallyRows ∧
    TallyPerformed (tallied .read) ∧ ∃ u t,
      TallyUpdated { tallied .read with inIr := false } 0o000200000503 0o203 4 3 u ∧ WordEnd (withCa 0o200 u) t :=
  ⟨rowAd_mem, .inl rfl, _, _, tallyUpdated_plain 0o203 4 3 (by decide) (by decide),
    wordEnd_read (w := 0o111) rfl (by decide) (by decide)⟩

theorem witness_ContinueTallyCompletes : let s := start [(0o100, 0o000301001011)] 0o100
    rowDic ∈ continueTallyRows ∧ TallyPerformed s ∧
    ∃ u, TallyUpdated { s with inIr := false } 0o000301001011 0o300 0o11 0o11 u :=
  ⟨rowDic_mem, .inl rfl, _, tallyUpdated_plain 0o300 0o11 0o11 (by decide) (by decide)⟩

theorem witness_SequenceCharacterCompletes : let s := start [(0o100, 0o000200000205), (0o200, 0o010203040506)] 0o100
    let w : Word36 := 0o000200000205
    TallyPerformed s ∧ (CharSize.six, 6) = (if w.getLsbD 5 then (.nine, 4) else (.six, 6)) ∧ (wordCf w).toNat < 6 ∧ ∃ u t,
      TallyUpdated { s with inIr := false } w (if (wordCf w).toNat + 1 = 6 then wordY w + 1 else wordY w) (wordTally w - 1)
        (wordSz w ++ if (wordCf w).toNat + 1 = 6 then 0#3 else wordCf w + 1) u ∧ CharEnd (withCa (wordY w) u) .six (wordCf w) t :=
  ⟨.inl rfl, by decide, by decide, _, _, tallyUpdated_plain _ _ _ (by decide) (by decide),
    charEnd_read (w := 0o010203040506) .six _ rfl (by decide) (by decide)⟩

theorem witness_SequenceCharacterReverseCompletes : let s := start [(0o100, 0o000200000042), (0o200, 0o101102103104)] 0o100
    let w : Word36 := 0o000200000042
    TallyPerformed s ∧ (CharSize.nine, 4) = (if w.getLsbD 5 then (.nine, 4) else (.six, 6)) ∧ (wordCf w).toNat < 4 ∧
    0o200 = (if wordCf w = 0 then wordY w - 1 else wordY w) ∧ 1 = (if wordCf w = 0 then BitVec.ofNat 3 (4 - 1) else wordCf w - 1) ∧
    ∃ u t, TallyUpdated { s with inIr := false } w 0o200 (wordTally w + 1) (wordSz w ++ 1#3) u ∧
      CharEnd (withCa 0o200 u) .nine 1 t :=
  ⟨.inl rfl, by decide, by decide, by decide, by decide, _, _, tallyUpdated_plain _ _ _ (by decide) (by decide),
    charEnd_read (w := 0o101102103104) .nine _ rfl (by decide) (by decide)⟩

theorem witness_TallyFreeCompletes : let s := start [(0o100, 0o000200000043), (0o200, 0o101102103104)] 0o100
    let w : Word36 := 0o000200000043
    TallyPerformed s ∧ ∃ u, TallyRead { s with inIr := false } w u ∧
      ((CharSize.nine, 4) = (if w.getLsbD 5 then (.nine, 4) else (.six, 6)) ∧ (wordCf w).toNat < 4 ∧
        ∃ t, CharEnd (withCa (wordY w) u) .nine (wordCf w) t) ∧ ∃ t, WordEnd (withCa (wordY w) u) t :=
  ⟨.inl rfl, _, tallyRead_plain (by decide) (by decide),
    ⟨by decide, by decide, _, charEnd_read (w := 0o101102103104) .nine _ rfl (by decide) (by decide)⟩,
    _, wordEnd_read (w := 0o101102103104) rfl (by decide) (by decide)⟩

theorem witness_CharPositionFaults : let w : Word36 := 0o000200000006
    .scr ∈ [Instr.ci, .sc, .scr] ∧ TallyPerformed (start [(0o100, w)] 0o100) ∧
    (∃ u, TallyRead { start [(0o100, w)] 0o100 with inIr := false } w u) ∧ (if w.getLsbD 5 then 4 else 6) ≤ (wordCf w).toNat :=
  ⟨by decide, .inl rfl, ⟨_, tallyRead_plain (by decide) (by decide)⟩, by decide⟩

theorem witness_ReservedDesignatorsFault : (Instr.its, Fault.illegalModifier .reservedIt) ∈
      [(Instr.f1, Fault.faultTag .f1), (.f2, .faultTag .f2), (.f3, .faultTag .f3), (.itp, .illegalModifier .reservedIt),
       (.itReserved42, .illegalModifier .reservedIt), (.its, .illegalModifier .reservedIt)] ∧
    TallyPerformed (start [] 0o100) ∧
    TallyPerformed { chained 9 .read with config := { Config.default with irItPolicy := .performIt } } :=
  ⟨by decide, .inl rfl, .inr rfl⟩

theorem witness_TallyInChainFaults : .id ∈ indirectTallyTags ∧ (chained 9 .read).inIr = true ∧
    (chained 9 .read).config.irItPolicy = .fault := by
  decide

theorem witness_CharacterReadAndInsert : 5 < 6 ∧ 3 < 4 ∧ (0o010203040506 : Word36).extractLsb' (30 - 6 * 5) 6 = 0o06 ∧
    (0o101102103104 : Word36).extractLsb' (27 - 9 * 3) 9 = 0o104 := by
  decide

/-! #### Pointer pairs -/

theorem witness_ItsPairCompletes : let s := start [(0o101, 0o000150000000)] 0o100
    s.addrMode ≠ .bar ∧ s.tpr.ca.getLsbD 0 = false ∧ ∃ u, ReadsAt s (s.tpr.ca + 1) .indirectRead 0o000150000000 none u :=
  ⟨by decide, by decide, _, readsAt_plain (by decide) (by decide)⟩

theorem witness_ItpPairCompletes : let s := { start [(0o101, 0o000010000000)] 0o100 with pr := State.reset.pr.set 2 ⟨0o17, 5, 0o1000, 0⟩ }
    s.addrMode ≠ .bar ∧ s.tpr.ca.getLsbD 0 = false ∧ (∃ u, ReadsAt s (s.tpr.ca + 1) .indirectRead 0o000010000000 none u) ∧
    s.pr[(2 : BitVec 3).toNat] = ⟨0o17, 5, 0o1000, 0⟩ :=
  ⟨by decide, by decide, ⟨_, readsAt_plain (by decide) (by decide)⟩, by decide⟩

theorem witness_PairFaults : isPair (.itsPair 5 4) = true ∧ { start [] 0o100 with addrMode := .bar }.addrMode = .bar ∧
    (start [] 0o101).addrMode ≠ .bar ∧ (start [] 0o101).tpr.ca.getLsbD 0 = true := by
  decide

/-- A state in which an ITS pair has escalated from ABSOLUTE mode, about to end in a direct operand. -/
def escalated : State := { start [] 0o123 with addrMode := .appending, escSaved := some .absolute }

theorem witness_EscalationEndsWithResolution :
    (exec .du escalated = .next (after (exec .du escalated)) ∧ (after (exec .du escalated)).phase = .idle) ∧
    (let s := start [(0o100, 0o000200000000)] 0o100;
      exec .nStar s = .next (after (exec .nStar s)) ∧ (after (exec .nStar s)).phase ≠ .idle ∧ isPair .nStar = false) :=
  ⟨⟨rfl, rfl⟩, rfl, by decide, rfl⟩

/-! #### Faults -/

theorem witness_FaultsAreTaken_refusal : exec .n (start [] 0o100) = .refused (.unwritten 0o100) := rfl

/-- R230's example where memory ends before the operand. -/
def tallyAtLimit (op : Operation) : Prop :=
  let s := { tallied op with config := { Config.default with memSize := 0o200 } }
  rowAd ∈ wordTallyRows ∧ TallyPerformed s ∧ s.config.ptwWriteback = false ∧ ∃ u v,
    TallyUpdated { s with inIr := false } 0o000200000503 0o203 4 3 u ∧ WordFaults (withCa 0o200 u) (.nonexistentMemory 0o200) v

theorem witness_OperandFaultKeepsRewrite : tallyAtLimit .read ∧ tallyAtLimit (.write 5) :=
  ⟨⟨rowAd_mem, .inl rfl, rfl, _, _, tallyUpdated_plain 0o203 4 3 (by decide) (by decide), rfl⟩,
    rowAd_mem, .inl rfl, rfl, _, _, tallyUpdated_plain 0o203 4 3 (by decide) (by decide), rfl⟩

/-- R228's example where memory ends before the character's word. -/
def sequenceAtLimit (op : Operation) : Prop :=
  let s := { start [(0o100, 0o000200000205)] 0o100 op with config := { Config.default with memSize := 0o200 } }
  let w : Word36 := 0o000200000205
  TallyPerformed s ∧ (wordCf w).toNat < charsOf w ∧ ∃ u v, TallyUpdated { s with inIr := false } w 0o201 1 0 u ∧
    CharFaults (withCa 0o200 u) .six 5 (.nonexistentMemory 0o200) v

theorem witness_OperandFaultKeepsRewrite_character : sequenceAtLimit .read ∧ sequenceAtLimit (.write 5) :=
  ⟨⟨.inl rfl, by decide, _, _, tallyUpdated_plain 0o201 1 0 (by decide) (by decide), rfl⟩,
    .inl rfl, by decide, _, _, tallyUpdated_plain 0o201 1 0 (by decide) (by decide), .inl rfl⟩

/-- A paged segment 6 whose pages 0 and 1 are held, the last word of memory the PTW of page 0; the PTW of page 1 would lie above it. -/
def edge (op : Operation) : State :=
  { vectors [] with
    config := { Config.default with memSize := 0o4000, ptwWriteback := true }
    sdwam := (amFill (amReset sdwZero) (decodeSdw 6 0o000037774444 0o003777000000)).2
    ptwam := (amFill (amFill (amReset ptwZero) ⟨6, 0, 0, true⟩).2 ⟨6, 1, 0o20, false⟩).2
    mem := [(0o100, 0o002100000205), (0o2100, 0o010203040506), (0o3777, 0o000000000104)]
    op := op, tpr := ⟨4, 6, 0, 0o100⟩ }

/-- What an action answers, or why it stops. -/
def answer {α : Type} (m : Act α) (s : State) : α ⊕ Stop :=
  match m s with
  | .ok a _ => .inl a
  | .error e _ => .inr e

theorem ok_of_answer {α : Type} {m : Act α} {s : State} {a : α} (h : answer m s = .inl a) : m s = .ok a (leaves m s) := by
  unfold answer at h
  unfold leaves
  cases hm : m s <;> simp_all

theorem error_of_answer {α : Type} {m : Act α} {s : State} {e : Stop} (h : answer m s = .inr e) : m s = .error e (leaves m s) := by
  unfold answer at h
  unfold leaves
  cases hm : m s <;> simp_all

/-- The instruction `sc` at the edge has read and rewritten its tally word. -/
def edgeRewritten (op : Operation) : State :=
  leaves (tallyRewrite 0o100 0o2101 1 0) (leaves tallyFetch (edge op))

theorem edge_rewritten (op : Operation) (h : answer tallyFetch (edge op) = .inl (0o100, 0o002100000205))
   (h' : answer (tallyRewrite 0o100 0o2101 1 0) (leaves tallyFetch (edge op)) = .inl ()) :
   TallyUpdated (edge op) 0o002100000205 0o2101 1 0 (edgeRewritten op) := by
  obtain ⟨v, hv, ht⟩ := tallyRewrite_eq_ok.1 (ok_of_answer h')
  exact ⟨_, v, (tallyFetch_eq_ok.1 (ok_of_answer h)).2, hv, ht⟩

theorem witness_OperandFaultKeepsRewrite_store : .sc ∈ sequenceRows.map Prod.fst ∧ TallyPerformed (edge (.write 0o77)) ∧
    (wordCf 0o002100000205).toNat < charsOf 0o002100000205 ∧
    TallyUpdated (edge (.write 0o77)) 0o002100000205 0o2101 1 0 (edgeRewritten (.write 0o77)) ∧
      ∃ v, CharFaults (withCa 0o2100 (edgeRewritten (.write 0o77))) .six 5 (.nonexistentMemory 0o4000) v := by
  refine ⟨by decide, .inl rfl, by decide, edge_rewritten _ (by decide) (by decide), ?_⟩
  have hr : answer (memRead 0o2100 .operandRead) (withCa 0o2100 (edgeRewritten (.write 0o77))) =
     .inl (0o010203040506, some (decodeSdw 6 0o000037774444 0o003777000000)) := by decide
  have hw : answer (memWrite 0o2100 (charInsert 0o010203040506 .six 5 0o77) .operandWrite)
     (leaves (memRead 0o2100 .operandRead) (withCa 0o2100 (edgeRewritten (.write 0o77)))) = .inr (.fault (.nonexistentMemory 0o4000)) := by decide
  have ho : (withCa 0o2100 (edgeRewritten (.write 0o77))).op = .write 0o77 := by decide
  unfold CharFaults
  rw [ho]
  exact ⟨_, .inr ⟨_, _, _, memRead_eq_ok.1 (ok_of_answer hr), error_of_answer hw⟩⟩

/-- Some fault of an access is raised. -/
def SomeRaised (instr : Instr) (s : State) : Prop := ∃ f t, AccessRaises instr s f t

/-- The word at 0o100 of a memory that ends before 0o200. -/
def limited (w : Word36) (op : Operation) : State :=
  { start [(0o100, w)] 0o100 op with config := { Config.default with memSize := 0o200 } }

/-- The first word after a memory that ends before 0o100. -/
def absent (op : Operation := .read) : State := { start [] 0o100 op with config := { Config.default with memSize := 0o100 } }

theorem within_absent (op : Operation) : WithinDepth (absent op) := fun _ h => (by cases h)

theorem witness_FaultsAreTaken_register : SomeRaised .n (absent .read) ∧ SomeRaised .n (absent (.write 5)) ∧
    SomeRaised .du { absent .read with inIr := true, ctHold := 0 } :=
  ⟨⟨_, _, .register 0 (by decide) rfl rfl rfl⟩, ⟨_, _, .register 0 (by decide) rfl rfl rfl⟩,
    _, _, .register 0 (by decide) rfl rfl rfl⟩

theorem witness_FaultsAreTaken_fetch : SomeRaised .nStar absent ∧ SomeRaised .starDu absent ∧ SomeRaised .ci absent ∧
    SomeRaised (.itpPair 2) { absent with config := { Config.default with memSize := 0o101 } } :=
  ⟨⟨_, _, .registerIndirect rowN_mem ⟨within_absent .read, rfl⟩⟩, ⟨_, _, .indirectRegister (td := 3) (by decide) ⟨within_absent .read, rfl⟩⟩,
    ⟨_, _, .tallyFetch (by decide) (.inl rfl) ⟨within_absent .read, rfl⟩⟩, _, _, .pairOdd rfl (by decide) rfl rfl⟩

theorem witness_FaultsAreTaken_operand :
    (SomeRaised .ad (limited 0o000200000503 .read) ∧ SomeRaised .ad (limited 0o000200000503 (.write 5))) ∧
    (SomeRaised .sc (limited 0o000200000205 .read) ∧ SomeRaised .sc (limited 0o000200000205 (.write 5))) ∧
    (SomeRaised .i (limited 0o000200000000 .read) ∧ SomeRaised .i (limited 0o000200000000 (.write 5))) ∧
    SomeRaised .ci (limited 0o000200000043 .read) ∧ SomeRaised .ci (limited 0o000200000043 (.write 5)) := by
  refine ⟨⟨?_, ?_⟩, ⟨?_, ?_⟩, ⟨?_, ?_⟩, ?_, ?_⟩
  iterate 2 exact ⟨.nonexistentMemory 0o200, _, .tallyOperand (w := 0o000200000503) (.head _) (.inl rfl)
      (tallyUpdated_plain 0o203 4 3 (by decide) (by decide)) rfl⟩
  · exact ⟨_, _, .tallyCharacter (w := 0o000200000205) (.head _) (.inl rfl) (by decide)
      (tallyUpdated_plain 0o201 1 0 (by decide) (by decide)) rfl⟩
  · exact ⟨_, _, .tallyCharacter (w := 0o000200000205) (.head _) (.inl rfl) (by decide)
      (tallyUpdated_plain 0o201 1 0 (by decide) (by decide)) (.inl rfl)⟩
  iterate 2 exact ⟨_, _, .indirectOperand (w := 0o000200000000) (.inl rfl) (tallyRead_plain (by decide) (by decide)) rfl⟩
  · exact ⟨_, _, .indirectCharacter (w := 0o000200000043) (.inl rfl) (tallyRead_plain (by decide) (by decide))
      (by decide) rfl⟩
  · exact ⟨_, _, .indirectCharacter (w := 0o000200000043) (.inl rfl) (tallyRead_plain (by decide) (by decide))
      (by decide) (.inl rfl)⟩

/-- V98's segment, that may be read and not written, with a tally word at its word 0o100. -/
def readOnly (w : Word36) : State :=
  { vectors [] with
    mem := [(0o1016, 0o001000004444), (0o1017, 0o000176200000), (0o100100, w)]
    tpr := ⟨4, 7, 0, 0o100⟩ }

/-- The tally word of `readOnly` is read. -/
theorem readOnly_read {w : Word36} (h : answer tallyFetch (readOnly w) = .inl (0o100, w)) :
    TallyRead { readOnly w with inIr := false } w (leaves tallyFetch (readOnly w)) :=
  (tallyFetch_eq_ok.1 (ok_of_answer h)).2

theorem witness_FaultsAreTaken_rewrite : SomeRaised .ad (readOnly 0o000200000503) ∧ SomeRaised .sc (readOnly 0o000200000205) := by
  have h1 : answer (memWrite 0o100 0o000203000403 .indirectWrite) (leaves tallyFetch (readOnly 0o000200000503)) =
      .inr (.fault (.accessViolation [.wOff])) := by decide
  have h2 : answer (memWrite 0o100 0o000201000100 .indirectWrite) (leaves tallyFetch (readOnly 0o000200000205)) =
      .inr (.fault (.accessViolation [.wOff])) := by decide
  exact ⟨⟨_, _, .rewrite (w := 0o000200000503) (.head _) (.inl rfl) (readOnly_read (by decide)) (error_of_answer h1)⟩,
    _, _, .rewriteCharacter (w := 0o000200000205) (.head _) (.inl rfl) (readOnly_read (by decide)) (by decide) (error_of_answer h2)⟩

/-! #### Frames -/

theorem witness_InputsNeverWritten : exec .ad (tallied .read) = .next (after (exec .ad (tallied .read))) ∧
    (tallied .read).addrMode ≠ .appending :=
  ⟨rfl, by decide⟩

theorem witness_RingNeverFalls : exec .ad (tallied .read) = .next (after (exec .ad (tallied .read))) ∧ isPair .ad = false := ⟨rfl, rfl⟩

theorem witness_IndicatorAndHoldFrame : exec .n (wraps .prepareOnly) = .next (after (exec .n (wraps .prepareOnly))) ∧ .n ∉ tallyBearing ∧
    .n ∉ indirectRegisterRows.map Prod.fst ∧ .n ∈ registerTags ++ [.f1, .f2, .f3, .itp, .itReserved42, .its] :=
  ⟨rfl, by decide, by decide, by decide⟩

theorem witness_MemoryFollowsEvents : exec .ad (tallied (.write 7)) = .next (after (exec .ad (tallied (.write 7)))) := rfl

theorem witness_NonStoringFrame : let s := start [(0o100, 0o000250000017)] 0o100 .prepareOnly
    exec .i s = .next (after (exec .i s)) ∧ .i ∉ tallyBearing ∧ (∀ v, s.op ≠ .write v) ∧ ¬ WroteBack s (after (exec .i s)) 0o100 :=
  ⟨rfl, by decide, fun _ h => (by cases h), not_wroteBack (by decide) _⟩

theorem witness_RegisterStoreFrame : let s := wraps (.write 7)
    let ca : Word18 := 0
    .x1 ∈ registerTags ∧ s.op = .write 7 ∧ ca = s.tpr.ca + (regValue (if s.inIr then s.ctHold else tagTd (tagOf .x1)) s).1 ∧
    exec .x1 s = .next (after (exec .x1 s)) ∧ ¬ WroteBack s (after (exec .x1 s)) 1 ∧
    ∀ r u, formAddress ca .operandWrite (withCa ca s) = .ok r u → r.1.toNat ≠ 1 := by
  refine ⟨by decide, rfl, by decide, rfl, not_wroteBack (by decide) _, fun r u h => ?_⟩
  rw [formAddress_absolute rfl] at h
  cases h
  decide

theorem witness_TallyRewriteFrame : let s := tallied .prepareOnly
    .ad ∈ tallyBearing ∧ (∀ v, s.op ≠ .write v) ∧ exec .ad s = .next (after (exec .ad s)) ∧
    ¬ WroteBack s (after (exec .ad s)) 0o200 ∧
    ∀ w u r v, TallyRead { s with inIr := false } w u → formAddress s.tpr.ca .indirectWrite u = .ok r v → r.1.toNat ≠ 0o200 := by
  refine ⟨by decide, fun _ h => (by cases h), rfl, not_wroteBack (by decide) _, fun w u r v h hf => ?_⟩
  rw [rewrite_absolute rfl h hf]
  decide

/-- The store at the address used, after the rewrite, in ABSOLUTE mode. -/
theorem store_absolute {s u v : State} {w : Word36} {y ca ca' : Word18} {c : BitVec 12} {l : BitVec 6} {acc : Access}
    {r : Word24 × Option Sdw} (hm : s.addrMode = .absolute) (h : TallyUpdated s w y c l u)
    (hf : formAddress ca acc (withCa ca' u) = .ok r v) : r.1 = ca.setWidth 24 := by
  obtain ⟨u', v', hr, hw, rfl⟩ := h
  have hv := memWrite_accessOnly (memWrite_eq_ok.2 hw)
  have hmode : v'.addrMode = .absolute := by rw [hv]; exact (tallyRead_mode hr).trans hm
  have he := formAddress_absolute (s := withCa ca' { v' with tro := decide (c = 0#12) }) hmode ca acc
  rw [he] at hf
  cases hf
  rfl

theorem witness_WordTallyStoreFrame : let s := tallied (.write 7)
    let a := 0o300
    rowAd ∈ wordTallyRows ∧
    s.op = .write 7 ∧ exec .ad s = .next (after (exec .ad s)) ∧ ¬ WroteBack s (after (exec .ad s)) a ∧
    (∀ w u r v, TallyRead { s with inIr := false } w u → formAddress s.tpr.ca .indirectWrite u = .ok r v → r.1.toNat ≠ a) ∧
    ∀ u r v, TallyUpdated { s with inIr := false } 0o000200000503 0o203 4 3 u →
      formAddress 0o200 .operandWrite (withCa 0o200 u) = .ok r v → r.1.toNat ≠ a := by
  refine ⟨rowAd_mem, rfl, rfl, not_wroteBack (by decide) _, fun w u r v h hf => ?_, fun u r v h hf => ?_⟩
  · rw [rewrite_absolute rfl h hf]; decide
  · rw [store_absolute rfl h hf]; decide

/-- The store after a tally word is read with no rewrite, in ABSOLUTE mode. -/
theorem free_store_absolute {s u v : State} {w : Word36} {ca ca' : Word18} {acc : Access} {r : Word24 × Option Sdw}
    (hm : s.addrMode = .absolute) (h : TallyRead s w u) (hf : formAddress ca acc (withCa ca' u) = .ok r v) : r.1 = ca.setWidth 24 := by
  have he := formAddress_absolute (s := withCa ca' u) ((tallyRead_mode h).trans hm) ca acc
  rw [he] at hf
  cases hf
  rfl

theorem witness_TallyFreeStoreFrame : let w : Word36 := 0o000200000042
    let s := start [(0o100, w), (0o200, 0o101102103104)] 0o100 (.write 0o777)
    s.op = .write 0o777 ∧ exec .i s = .next (after (exec .i s)) ∧ ¬ WroteBack s (after (exec .i s)) 0o100 ∧
    (∀ u r v, TallyRead { s with inIr := false } w u → formAddress 0o200 .operandWrite (withCa 0o200 u) = .ok r v → r.1.toNat ≠ 0o100) ∧
    exec .ci s = .next (after (exec .ci s)) ∧ ¬ WroteBack s (after (exec .ci s)) 0o100 ∧
    ∀ u c sdw u' r v, TallyRead { s with inIr := false } w u → ReadsAt (withCa 0o200 u) 0o200 .operandRead c sdw u' →
      formAddress 0o200 .operandWrite u' = .ok r v → r.1.toNat ≠ 0o100 := by
  refine ⟨rfl, rfl, not_wroteBack (by decide) _, fun u r v h hf => ?_, rfl, not_wroteBack (by decide) _, fun u c sdw u' r v h hr hf => ?_⟩
  · rw [free_store_absolute rfl h hf]; decide
  · have hu := memRead_accessOnly (memRead_eq_ok.2 hr)
    have hm : u'.addrMode = .absolute := by rw [hu]; exact tallyRead_mode h
    rw [formAddress_absolute hm] at hf
    cases hf
    decide

theorem witness_SequenceStoreFrame : let w : Word36 := 0o000200000205
    let s := start [(0o100, w), (0o200, 0o010203040506)] 0o100 (.write 0o77)
    .sc ∈ sequenceRows.map Prod.fst ∧ s.op = .write 0o77 ∧ exec .sc s = .next (after (exec .sc s)) ∧
    ¬ WroteBack s (after (exec .sc s)) 0o300 ∧
    (∀ w u r v, TallyRead { s with inIr := false } w u → formAddress s.tpr.ca .indirectWrite u = .ok r v → r.1.toNat ≠ 0o300) ∧
    ∀ u c sdw u' r v, TallyUpdated { s with inIr := false } w 0o201 1 0o00 u → ReadsAt (withCa 0o200 u) 0o200 .operandRead c sdw u' →
      formAddress 0o200 .operandWrite u' = .ok r v → r.1.toNat ≠ 0o300 := by
  refine ⟨by decide, rfl, rfl, not_wroteBack (by decide) _, fun w u r v h hf => ?_, fun u c sdw u' r v h hr hf => ?_⟩
  · rw [rewrite_absolute rfl h hf]; decide
  · obtain ⟨a, b, ha, hb, rfl⟩ := h
    have hv := memWrite_accessOnly (memWrite_eq_ok.2 hb)
    have hu := memRead_accessOnly (memRead_eq_ok.2 hr)
    have hm : u'.addrMode = .absolute := by
      rw [hu]
      show b.addrMode = _
      rw [hv]
      exact tallyRead_mode ha
    rw [formAddress_absolute hm] at hf
    cases hf
    decide

/-! #### Whole-machine statements -/

/-- A resolution in progress: the indirect word at 0o100 is about to be fetched, with at most `m` fetches. -/
def running (m : Option Nat) : State :=
  { start [(0o100, 0o000100000020)] 0o100 with phase := .dispatch 0o20, config := { Config.default with maxIndirectDepth := m } }

theorem witness_InvariantKept : Inv (running (some 3)) ∧ step (running (some 3)) = .next (after (step (running (some 3)))) :=
  ⟨{ config := by decide
     memCanonical := by decide
     memExists := fun a w h => by
       simp only [running, start, List.mem_singleton, Prod.mk.injEq] at h
       rw [h.1]
       decide
     sdwamUse := reset_permutation _
     ptwamUse := reset_permutation _
     sdwamUnique := fun i _ h => absurd h (empty_at_reset i)
     ptwamUnique := fun i _ h => absurd h (empty_at_reset i)
     pagenoFits := fun i h => absurd h (empty_at_reset i)
     escalation := fun _ h => by cases h
     idleMode := fun h => by cases h
     pairTag := fun _ h => by cases h
     withinLimit := fun _ m h => by cases h; decide }, rfl⟩

theorem witness_BoundedResolutionEnds : (running (some 0)).config.maxIndirectDepth = some 0 ∧ (running (some 0)).phase ≠ .idle ∧
    (running (some 3)).config.maxIndirectDepth = some 3 ∧ (running (some 3)).phase ≠ .idle := by
  decide

theorem witness_SelfIndirectionNeverEnds : (running none).config.maxIndirectDepth = none ∧ (running none).phase = .dispatch 0o20 ∧
    (running none).addrMode = .absolute ∧ (running none).tpr.ca.toNat < (running none).config.memSize ∧
    memLookup (running none).mem (running none).tpr.ca.toNat = some 0o000100000020 ∧
    wordY 0o000100000020 = (running none).tpr.ca ∧ wordTag 0o000100000020 = 0o20 := by
  decide

end Sys2Proof.Tests
end

section
/-! SUPPORT. What stops an instruction: the one refusal, and the faults of its memory accesses (O45). -/

namespace Sys2Proof.Machine

/-! ### The one refusal (R369, R401) -/

/-- The one refusal an action answers is that of an existing word that holds no value in the state it stops in. -/
def RefusesOnlyUnwritten {α : Type} (m : Act α) : Prop :=
  ∀ s r t, m s = .error (.refused r) t → ∃ pa, r = .unwritten pa ∧ pa.toNat < t.config.memSize ∧ memLookup t.mem pa.toNat = none

namespace RefusesOnlyUnwritten

variable {α β : Type}

protected theorem pure (a : α) : RefusesOnlyUnwritten (pure a : Act α) :=
  fun _ _ _ h => by simp at h

protected theorem read (f : State → α) : RefusesOnlyUnwritten (read f) :=
  fun _ _ _ h => by simp at h

protected theorem get : RefusesOnlyUnwritten (get : Act State) :=
  fun _ _ _ h => by simp at h

protected theorem update (f : State → State) : RefusesOnlyUnwritten (update f) :=
  fun _ _ _ h => by simp at h

protected theorem raise (f : Fault) : RefusesOnlyUnwritten (raise f : Act α) :=
  fun _ _ _ h => by simp at h

protected theorem raiseIf (c : Bool) (f : Fault) : RefusesOnlyUnwritten (raiseIf c f) := by
  cases c
  · exact .pure ()
  · exact .raise f

protected theorem bind {m : Act α} {f : α → Act β} (hm : RefusesOnlyUnwritten m) (hf : ∀ a, RefusesOnlyUnwritten (f a)) :
    RefusesOnlyUnwritten (m >>= f) := by
  intro s r t h
  rcases bind_eq_error.1 h with h | ⟨a, u, -, h⟩
  · exact hm s r t h
  · exact hf a u r t h

protected theorem ite (c : Prop) [Decidable c] {m n : Act α} (hm : RefusesOnlyUnwritten m) (hn : RefusesOnlyUnwritten n) :
    RefusesOnlyUnwritten (if c then m else n) := by
  split <;> assumption

/-! #### Accesses -/

/-- The refusal of a physical read, the source of every refusal of an instruction. -/
theorem physRead (pa : Word24) (acc : AccessType) : RefusesOnlyUnwritten (physRead pa acc) := by
  intro s r t h
  rcases physRead_cases pa acc s with ⟨-, h'⟩ | ⟨he, hm, h'⟩ | ⟨w, -, -, h'⟩ <;> rw [h'] at h
  · nomatch h
  · cases h
    exact ⟨pa, rfl, he, hm⟩
  · nomatch h

theorem physWrite (pa : Word24) (w : Word36) (acc : AccessType) : RefusesOnlyUnwritten (physWrite pa w acc) :=
  .bind (.bind (.read _) fun _ => .raiseIf _ _) fun _ => .bind (.update _) fun _ => .update _

theorem sdwAddress (tsr : Segno) : RefusesOnlyUnwritten (sdwAddress tsr) :=
  .bind (.read _) fun _ => .ite _ (.pure _) <| .bind (.read _) fun _ => .bind (.read _) fun _ =>
    .bind (physRead _ _) fun _ => .bind (.raiseIf _ _) fun _ => .pure _

theorem readSdw (tsr : Segno) : RefusesOnlyUnwritten (readSdw tsr) :=
  .bind (.read _) fun _ => .bind (.raiseIf _ _) fun _ => .bind (sdwAddress tsr) fun _ => .bind (physRead _ _) fun _ =>
    .bind (physRead _ _) fun _ => .bind (.raiseIf _ _) fun _ => .pure _

theorem getSdw (tsr : Segno) : RefusesOnlyUnwritten (getSdw tsr) := by
  refine .bind (.read _) fun am => ?_
  split
  · exact .bind (.update _) fun _ => .pure _
  · exact .bind (readSdw tsr) fun _ => .bind (.update _) fun _ => .pure _

theorem fetchPtw (tsr : Segno) (page : Word18) (pta : Word24) : RefusesOnlyUnwritten (fetchPtw tsr page pta) :=
  .bind (physRead _ _) fun _ => .bind (.raiseIf _ _) fun _ =>
    .bind (.bind (.read _) fun _ => .bind (.update _) fun _ => .pure _) fun _ =>
    .bind (.bind (.read _) fun _ => .ite _ (physWrite _ _ _) (.pure _)) fun _ => .pure _

theorem getPtw (tsr : Segno) (page : Word18) (pta : Word24) : RefusesOnlyUnwritten (getPtw tsr page pta) := by
  refine .bind (.read _) fun am => ?_
  split
  · exact .bind (.update _) fun _ => .pure _
  · exact fetchPtw tsr page pta

theorem markModified (j : Fin 64) (pta : Word24) : RefusesOnlyUnwritten (markModified j pta) :=
  .bind (.update _) fun _ => .bind .get fun _ =>
    .ite _ (.bind (physRead _ _) fun _ => physWrite _ _ _) (.pure _)

theorem pagedAddress (d : Sdw) (tsr : Segno) (ca : Word18) (acc : Access) : RefusesOnlyUnwritten (pagedAddress d tsr ca acc) :=
  .bind (.read _) fun _ => .bind (getPtw _ _ _) fun _ => .bind (.ite _ (markModified _ _) (.pure _)) fun _ =>
    .bind (.read _) fun _ => .pure _

theorem translate (trr : Ring) (tsr : Segno) (ca : Word18) (acc : Access) : RefusesOnlyUnwritten (translate trr tsr ca acc) :=
  .bind (getSdw tsr) fun _ => .bind (.raiseIf _ _) fun _ =>
    .ite _ (.pure _) (.bind (pagedAddress _ _ _ _) fun _ => .pure _)

theorem formAddress (ca : Word18) (acc : Access) : RefusesOnlyUnwritten (formAddress ca acc) := by
  refine .bind .get fun s => ?_
  split
  · exact .pure _
  · exact .bind (translate _ _ _ _) fun _ => .pure _
  · exact .bind (.bind (.read _) fun _ => .bind (.raiseIf _ _) fun _ => .pure _) fun _ => .pure _

theorem memRead (ca : Word18) (acc : Access) : RefusesOnlyUnwritten (memRead ca acc) :=
  .bind (formAddress ca acc) fun _ => .bind (physRead _ _) fun _ => .pure _

theorem memWrite (ca : Word18) (w : Word36) (acc : Access) : RefusesOnlyUnwritten (memWrite ca w acc) :=
  .bind (formAddress ca acc) fun _ => physWrite _ _ _

/-! #### The address modifier -/

theorem countIndirect : RefusesOnlyUnwritten countIndirect :=
  .bind (.update _) fun _ => .bind (.read _) fun _ => .raiseIf _ _

theorem indirectFetch : RefusesOnlyUnwritten indirectFetch :=
  .bind countIndirect fun _ => .bind (.read _) fun _ => .bind (memRead _ _) fun _ =>
    .ite _ (.update _) (.bind (.update _) fun _ => .update _)

theorem tallyFetch : RefusesOnlyUnwritten tallyFetch :=
  .bind countIndirect fun _ => .bind (.read _) fun _ => .bind (memRead _ _) fun _ => .pure _

theorem tallyRewrite (taddr y : Word18) (c : BitVec 12) (l : BitVec 6) : RefusesOnlyUnwritten (tallyRewrite taddr y c l) :=
  .bind (memWrite _ _ _) fun _ => .update _

theorem tallyStep (fy : Word36 → Word18) (ft : BitVec 12 → BitVec 12) : RefusesOnlyUnwritten (tallyStep fy ft) :=
  .bind tallyFetch fun _ => .bind (tallyRewrite _ _ _ _) fun _ => .pure _

theorem finalWord : RefusesOnlyUnwritten finalWord := by
  refine .bind (.read _) fun ca => .bind (.read _) fun op => ?_
  split
  · exact .bind (memRead _ _) fun _ => .update _
  · exact .bind (memWrite _ _ _) fun _ => .update _
  · exact .update _

theorem finalChar (sz : CharSize) (cf : BitVec 3) : RefusesOnlyUnwritten (finalChar sz cf) := by
  refine .bind (.read _) fun ca => .bind (.read _) fun op => ?_
  split
  · exact .bind (memRead _ _) fun _ => .update _
  · exact .bind (memRead _ _) fun _ => .bind (memWrite _ _ _) fun _ => .update _
  · exact .update _

theorem directOperand (td : Designator) : RefusesOnlyUnwritten (directOperand td) := by
  refine .bind (.read _) fun ca => .bind (.read _) fun op => ?_
  split
  · exact .raise _
  · exact .update _

theorem finalWordAt (ca : Word18) : RefusesOnlyUnwritten (finalWordAt ca) := .bind (.update _) fun _ => finalWord

theorem finalCharAt (ca : Word18) (sz : CharSize) (cf : BitVec 3) : RefusesOnlyUnwritten (finalCharAt ca sz cf) :=
  .bind (.update _) fun _ => finalChar sz cf

theorem continueAt (ca : Word18) (ct : BitVec 6) : RefusesOnlyUnwritten (continueAt ca ct) :=
  .bind (.update _) fun _ => .update _

theorem registerTag (td : Designator) : RefusesOnlyUnwritten (registerTag td) :=
  .bind (.read _) fun _ => .bind (.read _) fun _ =>
    .ite _ (directOperand _) (.bind (.read _) fun _ => .bind (.update _) fun _ => finalWord)

theorem registerIndirectTag (td : Designator) : RefusesOnlyUnwritten (registerIndirectTag td) :=
  .bind (.raiseIf _ _) fun _ => .bind (.read _) fun _ => .bind (.read _) fun _ => .bind (.update _) fun _ => indirectFetch

theorem indirectRegisterTag (td : Designator) : RefusesOnlyUnwritten (indirectRegisterTag td) :=
  .bind (.update _) fun _ => indirectFetch

theorem tallyTag {body : Act Unit} (hb : RefusesOnlyUnwritten body) : RefusesOnlyUnwritten (tallyTag body) :=
  .bind .get fun _ => .bind (.raiseIf _ _) fun _ => .bind (.update _) fun _ => hb

theorem pointerPair (newTpr : Word36 → State → Tpr) : RefusesOnlyUnwritten (pointerPair newTpr) :=
  .bind (.bind .get fun _ => .bind (.raiseIf _ _) fun _ => .bind (.raiseIf _ _) fun _ => .bind (memRead _ _) fun _ => .pure _)
    fun _ => .bind (.update _) fun _ => .update _

/-- Of every instruction, family by family. -/
theorem meaning (instr : Instr) : RefusesOnlyUnwritten (meaning instr) := by
  cases instr
  case n | au | qu | du | ic | al | ql | dl | x0 | x1 | x2 | x3 | x4 | x5 | x6 | x7 => exact registerTag _
  case nStar | auStar | quStar | duStar | icStar | alStar | qlStar | dlStar | x0Star | x1Star | x2Star | x3Star
      | x4Star | x5Star | x6Star | x7Star => exact registerIndirectTag _
  case starN | starAu | starQu | starDu | starIc | starAl | starQl | starDl | starX0 | starX1 | starX2 | starX3
      | starX4 | starX5 | starX6 | starX7 => exact indirectRegisterTag _
  case f1 | itp | itReserved42 | its | f2 | f3 => exact tallyTag (.raise _)
  case ad | sd | di | id => exact tallyTag (.bind (tallyStep _ _) fun _ => finalWordAt _)
  case dic | idc => exact tallyTag (.bind (tallyStep _ _) fun _ => continueAt _ _)
  case sc | scr =>
    exact tallyTag (.bind tallyFetch fun _ => .bind (.raiseIf _ _) fun _ => .bind (tallyRewrite _ _ _ _) fun _ => finalCharAt _ _ _)
  case ci => exact tallyTag (.bind tallyFetch fun _ => .bind (.raiseIf _ _) fun _ => finalCharAt _ _ _)
  case i => exact tallyTag (.bind tallyFetch fun _ => finalWordAt _)
  case itsPair | itpPair => exact pointerPair _

end RefusesOnlyUnwritten

/-! ### No instruction takes a word's value away -/

/-- The parameters stay, and a word that holds a value goes on holding one. -/
def MemoryGrows (s t : State) : Prop :=
  t.config = s.config ∧ ∀ a, memLookup t.mem a = none → memLookup s.mem a = none

theorem memoryGrows_chains : Chains MemoryGrows where
  refl _ := ⟨rfl, fun _ => id⟩
  trans := by
    rintro s t u ⟨hc, hm⟩ ⟨hc', hm'⟩
    exact ⟨hc'.trans hc, fun a h => hm a (hm' a h)⟩

/-- What changes neither the parameters nor memory lets memory grow. -/
theorem memoryGrows_of_eq {s t : State} (hc : t.config = s.config) (hm : t.mem = s.mem) : MemoryGrows s t :=
  ⟨hc, fun a h => by rwa [hm] at h⟩

theorem memoryGrows_withWord (pa : Word24) (w : Word36) (s : State) : MemoryGrows s (withWord pa w s) := by
  refine ⟨rfl, fun a h => ?_⟩
  rw [withWord_mem, memLookup_memStore] at h
  split at h
  · nomatch h
  · exact h

theorem memoryGrows_access : AccessChain MemoryGrows :=
  accessChain_of_any memoryGrows_chains (fun _ _ _ _ => memoryGrows_of_eq rfl rfl) (fun pa w _ s _ => memoryGrows_withWord pa w s)
    (fun _ _ => memoryGrows_of_eq rfl rfl) (fun _ _ => memoryGrows_of_eq rfl rfl)

theorem memoryGrows_modifier : ModifierChain MemoryGrows where
  toFinalChain := finalChain_of_access memoryGrows_access (fun _ _ => memoryGrows_of_eq rfl rfl) fun _ _ => memoryGrows_of_eq rfl rfl
  goOn _ _ := memoryGrows_of_eq rfl rfl
  pair _ _ _ _ := memoryGrows_of_eq rfl rfl
  count _ := memoryGrows_of_eq rfl rfl

theorem memoryGrows_meaning (instr : Instr) : Keeps MemoryGrows (meaning instr) :=
  keeps_meaning memoryGrows_modifier instr (fun _ _ _ => memoryGrows_of_eq rfl rfl) (fun _ _ => memoryGrows_of_eq rfl rfl)
    (fun _ _ _ => memoryGrows_of_eq rfl rfl) fun _ _ _ => memoryGrows_of_eq rfl rfl

/-- The one refusal of an instruction is the read of an existing word that nothing had written before it (R369, R401): the word
holds no value where the instruction stops, so it held none where it began. -/
theorem exec_refused {instr : Instr} {s : State} {r : Refusal} (h : exec instr s = .refused r) :
    ∃ pa, r = .unwritten pa ∧ pa.toNat < s.config.memSize ∧ memLookup s.mem pa.toNat = none := by
  rw [exec_eq_complete] at h
  obtain ⟨t, ht⟩ := complete_eq_refused.1 h
  obtain ⟨pa, hr, he, hm⟩ := RefusesOnlyUnwritten.meaning instr s r t ht
  obtain ⟨hc, hg⟩ := keeps_of_error (memoryGrows_meaning instr) ht
  exact ⟨pa, hr, hc ▸ he, hg _ hm⟩

/-! ### What the instructions of the tables are -/

/-- A designator gives a direct operand exactly where it is du or dl (R172). -/
theorem regValue_direct (td : Designator) (s : State) : (regValue td s).2 = isDirect td := by
  obtain ⟨⟨k, hk⟩⟩ := td
  interval_cases k <;> rfl

theorem meaning_of_registerTags : ∀ instr ∈ registerTags, meaning instr = registerTag (tagTd (tagOf instr)) := by
  intro instr h
  fin_cases h <;> rfl

theorem meaning_of_registerRows : ∀ row ∈ registerRows, meaning row.2.1 = registerIndirectTag row.2.2.2.1 ∧
    isDirect row.2.2.2.1 = false ∧ ∀ s, (regValue row.2.2.2.1 s).1 = row.2.2.2.2 s := by
  intro row h
  fin_cases h <;> exact ⟨rfl, rfl, fun _ => rfl⟩

theorem meaning_of_indirectRegisterRows : ∀ row ∈ indirectRegisterRows, meaning row.1 = indirectRegisterTag row.2 := by
  intro row h
  fin_cases h <;> rfl

/-- The shape of the eight tally-bearing instructions: the tally word is fetched and checked, its fields are rewritten by `fy`, `ft`
and `fl`, and `k` goes on with the word as it was read (R221, R224). -/
def tallyUpdate (check : Word36 → Act Unit) (fy : Word36 → Word18) (ft : Word36 → BitVec 12) (fl : Word36 → BitVec 6)
    (k : Word36 → Act Unit) : Act Unit := do
  let tw ← tallyFetch
  check tw.2
  tallyRewrite tw.1 (fy tw.2) (ft tw.2) (fl tw.2)
  k tw.2

/-- A tally step with what follows it is a tally update that checks nothing and keeps the low six bits. -/
theorem tallyStep_bind (fy : Word36 → Word18) (ft : BitVec 12 → BitVec 12) (k : Word36 → Act Unit) :
    tallyStep fy ft >>= k = tallyUpdate (fun _ => pure ()) fy (fun w => ft (wordTally w)) wordLow6 k := by
  simp only [tallyStep, tallyUpdate, act_assoc, act_pure_bind]

theorem meaning_of_wordTallyRows : ∀ row ∈ wordTallyRows, meaning row.1 =
    tallyTag (tallyUpdate (fun _ => pure ()) row.2.1 row.2.2.1 wordLow6 fun w => finalWordAt (row.2.2.2 w)) := by
  intro row h
  fin_cases h <;> exact congrArg tallyTag (tallyStep_bind _ _ _)

theorem meaning_of_continueTallyRows : ∀ row ∈ continueTallyRows, meaning row.1 =
    tallyTag (tallyUpdate (fun _ => pure ()) row.2.1 row.2.2.1 wordLow6 fun w => continueAt (row.2.2.2 w) (wordLow6 w)) := by
  intro row h
  fin_cases h <;> exact congrArg tallyTag (tallyStep_bind _ _ _)

/-- The character count of a tally word's size (R225). -/
theorem charCount_wordCharSize (w : Word36) : charCount (wordCharSize w) = charsOf w := by
  unfold wordCharSize charsOf
  split <;> rfl

/-- The position and address after SC's character, as the table of the sequence instructions has them (R228). -/
theorem charNext_word (w : Word36) : charNext (wordCharSize w) (wordY w) (wordCf w) =
    (if (wordCf w).toNat + 1 = charsOf w then wordY w + 1 else wordY w,
      if (wordCf w).toNat + 1 = charsOf w then 0#3 else wordCf w + 1) := by
  unfold charNext
  rw [charCount_wordCharSize]
  split <;> rfl

/-- The position and address of SCR's character, as the table of the sequence instructions has them (R229). -/
theorem charPrev_word (w : Word36) : charPrev (wordCharSize w) (wordY w) (wordCf w) =
    (if wordCf w = 0 then wordY w - 1 else wordY w,
      if wordCf w = 0 then BitVec.ofNat 3 (charsOf w - 1) else wordCf w - 1) := by
  simp only [charPrev, charCount_wordCharSize, BitVec.ofNat_eq_ofNat]
  split <;> rfl

theorem meaning_of_sequenceRows : ∀ row ∈ sequenceRows, meaning row.1 =
    tallyTag (tallyUpdate checkCharPosition row.2.1 row.2.2.1 row.2.2.2.1 fun w =>
      finalCharAt (row.2.2.2.2.1 w) (wordCharSize w) (row.2.2.2.2.2 w)) := by
  intro row h
  fin_cases h
  · simp only [meaning, sequenceCharacter, charNext_word]; rfl
  · simp only [meaning, sequenceCharacterReverse, charPrev_word]; rfl

/-- The ten instructions that fetch a tally word fetch it first (R221). -/
theorem meaning_of_tallyFetching : ∀ instr ∈ tallyBearing ++ [.ci, .i], ∃ k, meaning instr = tallyTag (tallyFetch >>= k) := by
  intro instr h
  cases instr
  case sc | scr | ci | i => exact ⟨_, rfl⟩
  case ad | sd | di | id | dic | idc => exact ⟨_, congrArg tallyTag (tallyStep_bind _ _ _)⟩
  all_goals simp [tallyBearing] at h

theorem meaning_of_isPair {instr : Instr} (h : isPair instr = true) : ∃ newTpr, meaning instr = pointerPair newTpr := by
  cases instr
  case itsPair | itpPair => exact ⟨_, rfl⟩
  all_goals nomatch h

/-! ### The fault of an access is the operation's -/

/-- A character position within its size passes the check (R225). -/
theorem checkCharPosition_of_lt {w : Word36} (h : (wordCf w).toNat < charsOf w) (s : State) :
    checkCharPosition w s = .ok () s := by
  have hb : charPositionBad (wordCharSize w) (wordCf w) = false := by
    simpa only [charPositionBad, charCount_wordCharSize, decide_eq_false_iff_not, Nat.not_le] using h
  rw [checkCharPosition, hb, raiseIf_false]

section
variable {check : Word36 → Act Unit} {fy : Word36 → Word18} {ft : Word36 → BitVec 12} {fl : Word36 → BitVec 6}
  {k : Word36 → Act Unit} {s u : State} {w : Word36}

/-- A tally update whose rewrite faults stops there (R224). -/
theorem tallyUpdate_of_rewriteFault {t : State} {f : Fault} (hr : TallyRead s w u) (hc : check w u = .ok () u)
    (hw : memWrite s.tpr.ca (fy w ++ ft w ++ fl w) .indirectWrite u = .error (.fault f) t) :
    tallyUpdate check fy ft fl k s = .error (.fault f) t :=
  (bind_of_ok (tallyFetch_eq_ok (r := (s.tpr.ca, w)).2 ⟨rfl, hr⟩)).trans <|
    (bind_of_ok hc).trans (bind_of_error (tallyRewrite_of_fault hw))

/-- A tally update that goes through lets what follows it run, with the word as it was read (R224). -/
theorem tallyUpdate_of_updated (hu : TallyUpdated s w (fy w) (ft w) (fl w) u) (hc : ∀ v, check w v = .ok () v) :
    tallyUpdate check fy ft fl k s = k w u := by
  obtain ⟨v, v', hr, hw, rfl⟩ := hu
  exact (bind_of_ok (tallyFetch_eq_ok (r := (s.tpr.ca, w)).2 ⟨rfl, hr⟩)).trans <|
    (bind_of_ok (hc v)).trans (bind_of_ok (tallyRewrite_eq_ok (a := ()).2 ⟨v', hw, rfl⟩))

end

/-- The odd word of a pair that may be read raises what its read does (R257). -/
theorem pairOddWord_of_fault {s t : State} {f : Fault} (hb : s.addrMode ≠ .bar) (hc : s.tpr.ca.getLsbD 0 = false)
    (hr : memRead (s.tpr.ca + 1#18) .indirectRead s = .error (.fault f) t) : pairOddWord s = .error (.fault f) t := by
  have hb' : (s.addrMode == .bar) = false := by simpa using hb
  simp only [pairOddWord, act_bind, act_get, hb', hc, raiseIf_false, hr]

/-- Every access that the families list is one the instruction makes: its fault is the fault of the whole operation, in the state
the access leaves (R13, R371). -/
theorem meaning_of_accessRaises {instr : Instr} {s t : State} {f : Fault} (h : AccessRaises instr s f t) :
    meaning instr s = .error (.fault f) t := by
  cases h with
  | register td hmem htd hd hf =>
    rw [meaning_of_registerTags _ hmem, registerTag_apply, appliedDesignator, ← htd,
      registerMod_of_value ((regValue_direct td s).trans hd)]
    exact finalWord_of_faults hf
  | registerIndirect hmem hf =>
    obtain ⟨hm, hd, hv⟩ := meaning_of_registerRows _ hmem
    rw [hm, registerIndirectTag_of_value hd, hv]
    exact indirectFetch_of_faults hf
  | indirectRegister hmem hf =>
    rw [meaning_of_indirectRegisterRows _ hmem, indirectRegisterTag_apply]
    exact indirectFetch_of_faults hf
  | tallyFetch hmem hp hf =>
    obtain ⟨k, hm⟩ := meaning_of_tallyFetching _ hmem
    rw [hm, tallyTag_of_performed hp]
    exact bind_of_error (tallyFetch_of_faults hf)
  | rewrite hmem hp hr hw =>
    rcases List.mem_append.1 hmem with hmem | hmem
    · rw [meaning_of_wordTallyRows _ hmem, tallyTag_of_performed hp]
      exact tallyUpdate_of_rewriteFault hr rfl hw
    · rw [meaning_of_continueTallyRows _ hmem, tallyTag_of_performed hp]
      exact tallyUpdate_of_rewriteFault hr rfl hw
  | rewriteCharacter hmem hp hr hcf hw =>
    rw [meaning_of_sequenceRows _ hmem, tallyTag_of_performed hp]
    exact tallyUpdate_of_rewriteFault hr (checkCharPosition_of_lt hcf _) hw
  | tallyOperand hmem hp hu hf =>
    rw [meaning_of_wordTallyRows _ hmem, tallyTag_of_performed hp]
    exact (tallyUpdate_of_updated hu fun _ => rfl).trans (finalWord_of_faults hf)
  | tallyCharacter hmem hp hcf hu hf =>
    rw [meaning_of_sequenceRows _ hmem, tallyTag_of_performed hp]
    exact (tallyUpdate_of_updated hu (checkCharPosition_of_lt hcf)).trans (finalChar_of_faults hf)
  | indirectOperand hp hr hf =>
    refine (tallyTag_of_performed hp).trans ?_
    exact (bind_of_ok (tallyFetch_eq_ok (r := (_, _)).2 ⟨rfl, hr⟩)).trans (finalWord_of_faults hf)
  | indirectCharacter hp hr hcf hf =>
    refine (tallyTag_of_performed hp).trans ?_
    exact (bind_of_ok (tallyFetch_eq_ok (r := (_, _)).2 ⟨rfl, hr⟩)).trans <|
      (bind_of_ok (checkCharPosition_of_lt hcf _)).trans (finalChar_of_faults hf)
  | pairOdd hi hb hc hr =>
    obtain ⟨newTpr, hm⟩ := meaning_of_isPair hi
    rw [hm]
    exact bind_of_error (pairOddWord_of_fault hb hc hr)

/-- The fault of an access of an instruction is taken in a next state (R360, R371). -/
theorem exec_of_accessRaises {instr : Instr} {s t : State} {f : Fault} (h : AccessRaises instr s f t) :
    exec instr s = .next (takeFault f t) :=
  (exec_eq_complete instr s).trans (complete_of_fault (meaning_of_accessRaises h))

/-- Settles O45: faults are taken by `complete`, the one refusal is `exec_refused`, an access's fault is `exec_of_accessRaises`. -/
theorem faultsAreTaken : Obligations.FaultsAreTaken :=
  ⟨fun _ _ => rfl, fun instr s =>
    ⟨fun f => exec_eq_complete instr s ▸ complete_ne_fault (meaning instr) s f, fun _ => exec_refused,
      fun _ _ => exec_of_accessRaises⟩⟩

end Sys2Proof.Machine
end

section
/-! SUPPORT. The invariant (O57): the stored part of a state, which accesses change, its mode, and the count of indirect fetches. -/

namespace Sys2Proof.Machine

/-! ### The associative memories (R45, R46, R323, R326) -/

section
variable {α κ : Type} {key : α → κ} {fits : α → Prop} {m : Am α}

/-- What the invariant says of one associative memory: its counters are a permutation, its full entries have different keys, and
their descriptors are in range. -/
structure AmGood (key : α → κ) (fits : α → Prop) (m : Am α) : Prop where
  use : UsePermutation m
  unique : ∀ i j, (m.get i).full = true → (m.get j).full = true → key (m.get i).body = key (m.get j).body → i = j
  fits : ∀ i, (m.get i).full = true → fits (m.get i).body

theorem amPromote_use (m : Am α) (i k : Fin 64) : ((amPromote m i).get k).use =
    if k = i then useMax else if (m.get i).use < (m.get k).use then (m.get k).use - 1#6 else (m.get k).use := by
  by_cases h : k = i
  · subst k; simp [amPromote_same]
  · simp [amPromote_other h, h]

/-- A promotion keeps the counters a permutation: it moves the promoted one to the top and closes the gap (R323). -/
theorem usePermutation_amPromote (h : UsePermutation m) (i : Fin 64) : UsePermutation (amPromote m i) := by
  intro j k hjk
  rw [amPromote_use, amPromote_use, useMax] at hjk
  by_contra hne
  have hij : j ≠ i → (m.get j).use ≠ (m.get i).use := fun hn hu => hn (h _ _ hu)
  have hik : k ≠ i → (m.get k).use ≠ (m.get i).use := fun hn hu => hn (h _ _ hu)
  have hu : (m.get j).use ≠ (m.get k).use := fun hu => hne (h _ _ hu)
  -- One case is that both are entry i; in the others the order of the counters before gives a contradiction.
  split_ifs at hjk with hj hk hlt hk hlt hlt' hlt' hk
  · exact hne (hj.trans hk.symm)
  all_goals bv_omega

theorem AmGood.promote (h : AmGood key fits m) (i : Fin 64) : AmGood key fits (amPromote m i) where
  use := usePermutation_amPromote h.use i
  unique j k := by simpa using h.unique j k
  fits j := by simpa using h.fits j

/-- The counters do not depend on the contents. -/
theorem usePermutation_congr {m' : Am α} (hu : ∀ k, (m'.get k).use = (m.get k).use) (h : UsePermutation m) : UsePermutation m' :=
  fun i j hij => h i j (by rwa [hu, hu] at hij)

/-- A fill of a descriptor in range that no full entry holds (R325, R331). -/
theorem AmGood.fill (h : AmGood key fits m) {b : α} (hb : fits b)
    (hmiss : ∀ i, (m.get i).full = true → key (m.get i).body ≠ key b) : AmGood key fits (amFill m b).2 where
  use := by
    refine usePermutation_amPromote (usePermutation_congr (fun k => ?_) h.use) (amVictim m)
    rw [am_get_ofFn]
    split <;> rfl
  unique i j hi hj hk := by
    rw [amFill_full] at hi hj
    rw [amFill_body, amFill_body] at hk
    split_ifs at hk with hiv hjv hjv
    · rw [hiv, hjv]
    · exact absurd hk.symm (hmiss j (hj.resolve_left hjv))
    · exact absurd hk (hmiss i (hi.resolve_left hiv))
    · exact h.unique i j (hi.resolve_left hiv) (hj.resolve_left hjv) hk
  fits i hi := by
    rw [amFill_full] at hi
    rw [amFill_body]
    split_ifs with hiv
    · exact hb
    · exact h.fits i (hi.resolve_left hiv)

theorem amModify_body (m : Am α) (i k : Fin 64) (f : α → α) :
    ((amModify m i f).get k).body = if k = i then f (m.get k).body else (m.get k).body := by
  by_cases h : k = i
  · subst k; simp [amModify_same]
  · simp [amModify_other f h, h]

/-- A change of a descriptor that keeps its key and its range (R300). -/
theorem AmGood.modify (h : AmGood key fits m) (i : Fin 64) {f : α → α} (hkey : ∀ b, key (f b) = key b)
    (hfits : ∀ b, fits b → fits (f b)) : AmGood key fits (amModify m i f) where
  use := usePermutation_congr (fun k => amModify_use m i k f) h.use
  unique j k hj hk hjk := by
    have hb : ∀ l, key ((amModify m i f).get l).body = key (m.get l).body := fun l => by
      rw [amModify_body]; split <;> simp [hkey]
    rw [amModify_full] at hj hk
    exact h.unique j k hj hk (by rwa [hb, hb] at hjk)
  fits j hj := by
    rw [amModify_full] at hj
    rw [amModify_body]
    split
    · exact hfits _ (h.fits j hj)
    · exact h.fits j hj

/-- An associative memory without a full entry, its counters a permutation. -/
theorem AmGood.of_empty (hu : UsePermutation m) (he : ∀ i, (m.get i).full = false) : AmGood key fits m where
  use := hu
  unique i _ hi := by simp [he] at hi
  fits i hi := by simp [he] at hi

theorem AmGood.invalidate (h : AmGood key fits m) : AmGood key fits (amInvalidate m) :=
  .of_empty (usePermutation_congr (by simp) h.use) (by simp)

theorem AmGood.reset (b : α) : AmGood key fits (amReset b) := by
  refine .of_empty (fun i j hij => ?_) (by simp [amReset_get])
  simp only [amReset_get] at hij
  bv_omega

end

/-- The key of a PTWAM entry (R46, R330). -/
def ptwKey (p : Ptw) : Segno × Word18 := (p.pointer, p.pageno)

/-- A page number within the bits of PAGENO (R46). -/
def PageInRange (c : Config) (p : Ptw) : Prop := p.pageno.toNat < 2 ^ (18 - c.pageShift)

theorem ptwamUnique_iff (m : Am Ptw) : PtwamUnique m ↔
    ∀ i j, (m.get i).full = true → (m.get j).full = true → ptwKey (m.get i).body = ptwKey (m.get j).body → i = j := by
  simp only [PtwamUnique, ptwKey, Prod.mk.injEq, and_imp]

/-- The page number of an offset fits where the page size divides 2^18 (R9, R10). -/
theorem pageNumber_inRange {c : Config} (hc : c.wellFormed = true) (ca : Word18) :
    (pageNumber c ca).toNat < 2 ^ (18 - c.pageShift) := by
  simp only [Config.wellFormed, Bool.and_eq_true, decide_eq_true_eq] at hc
  have hdiv : ca.toNat / c.pageSize < 2 ^ (18 - c.pageShift) := by
    rw [Config.pageSize, Nat.div_lt_iff_lt_mul (Nat.two_pow_pos _), ← pow_add, Nat.sub_add_cancel hc.2]
    exact ca.isLt
  exact (Nat.mod_le _ _).trans_lt hdiv

/-! ### The stored part: the parameters, memory and the associative memories -/

/-- The clauses of the invariant on the parameters, memory and the associative memories. -/
structure GoodStore (c : Config) (mem : Memory) (sdwam : Am Sdw) (ptwam : Am Ptw) : Prop where
  config : c.wellFormed = true
  memCanonical : Memory.wf mem
  memExists : ∀ a w, (a, w) ∈ mem → a < c.memSize
  sdwam : AmGood Sdw.pointer (fun _ => True) sdwam
  ptwam : AmGood ptwKey (PageInRange c) ptwam

/-- The stored part of a state is good. -/
abbrev StoreGood (s : State) : Prop := GoodStore s.config s.mem s.sdwam s.ptwam

theorem storeGood_withWord {s : State} (h : StoreGood s) {pa : Word24} (he : pa.toNat < s.config.memSize) (w : Word36) :
    StoreGood (withWord pa w s) :=
  { h with
    memCanonical := wf_memStore h.memCanonical _ _
    memExists := fun a v hm => by
      rcases mem_of_mem_memStore hm with ⟨rfl, -⟩ | hm
      · exact he
      · exact h.memExists a v hm }

/-- A segment that the lookup misses is in no full entry (R320). -/
theorem pointer_ne_of_miss {m : Am Sdw} {tsr : Segno} (h : sdwamLookup m tsr = none) (i : Fin 64) (hi : (m.get i).full = true) :
    (m.get i).body.pointer ≠ tsr :=
  fun hk => absurd (sdwMatches_iff.2 ⟨hi, hk⟩) (Bool.eq_false_iff.1 (amFind_eq_none.1 h i))

/-- A page that the lookup misses is in no full entry (R330). -/
theorem ptwKey_ne_of_miss {m : Am Ptw} {tsr : Segno} {page : Word18} (h : ptwamLookup m tsr page = none) (i : Fin 64)
    (hi : (m.get i).full = true) : ptwKey (m.get i).body ≠ (tsr, page) :=
  fun hk => absurd (ptwMatches_iff.2 ⟨hi, Prod.mk.inj hk⟩) (Bool.eq_false_iff.1 (amFind_eq_none.1 h i))

theorem GoodStore.with_sdwam {c : Config} {mem : Memory} {m m' : Am Sdw} {p : Am Ptw} (h : GoodStore c mem m p)
    (hm : AmGood Sdw.pointer (fun _ => True) m') : GoodStore c mem m' p :=
  ⟨h.config, h.memCanonical, h.memExists, hm, h.ptwam⟩

theorem GoodStore.with_ptwam {c : Config} {mem : Memory} {m : Am Sdw} {p p' : Am Ptw} (h : GoodStore c mem m p)
    (hp : AmGood ptwKey (PageInRange c) p') : GoodStore c mem m p' :=
  ⟨h.config, h.memCanonical, h.memExists, h.sdwam, hp⟩

theorem storeGood_access : AccessChain fun s t => StoreGood s → StoreGood t where
  toChains := chains_imp StoreGood
  event _ _ _ _ := id
  writeBack _ w _ he h := storeGood_withWord h he w
  store _ w _ _ he h := storeGood_withWord h he w
  sdwPromote i _ h := have hm := h.sdwam.promote i; h.with_sdwam hm
  sdwFill _ _ hl h := have hm := h.sdwam.fill trivial (pointer_ne_of_miss hl); h.with_sdwam hm
  ptwPromote j _ h := have hm := h.ptwam.promote j; h.with_ptwam hm
  ptwFill tsr ca w s hl h :=
    have hm := h.ptwam.fill (b := decodePtw tsr (pageNumber s.config ca) w) (pageNumber_inRange h.config ca) (ptwKey_ne_of_miss hl)
    h.with_ptwam hm
  ptwModify j _ h :=
    have hm := h.ptwam.modify j (f := fun p => { p with m := true }) (fun _ => rfl) fun _ => id
    h.with_ptwam hm

theorem storeGood_modifier : ModifierChain fun s t => StoreGood s → StoreGood t where
  toFinalChain := finalChain_of_access storeGood_access (fun _ _ => id) fun _ _ => id
  goOn _ _ := id
  pair _ _ _ _ := id
  count _ := id

/-! ### The mode part: the escalation and the pending pair -/

/-- The clauses of the invariant on the escalation record, the mode and the phase. -/
structure GoodMode (c : Config) (mode : AddrMode) (saved : Option AddrMode) (phase : Phase) : Prop where
  escalation : ∀ m, saved = some m → m = .absolute ∧ mode = .appending ∧ c.itsEscalationSticky = false
  idleMode : phase = .idle → saved = none
  pairTag : ∀ w, phase = .pair w → isPointerPair w = true

/-- The mode part of a state is good. -/
abbrev ModeGood (s : State) : Prop := GoodMode s.config s.addrMode s.escSaved s.phase

/-- Without an escalation, and with no pair pending, the mode part is good. -/
theorem goodMode_of_none {c : Config} {mode : AddrMode} {p : Phase} (hp : ∀ w, p ≠ .pair w) : GoodMode c mode none p where
  escalation _ h := nomatch h
  idleMode _ := rfl
  pairTag w h := absurd h (hp w)

theorem modeGood_withDispatch {s : State} (t : Tag) (h : ModeGood s) : ModeGood (withPhase (.dispatch t) s) where
  escalation := h.escalation
  idleMode hp := nomatch hp
  pairTag _ hp := nomatch hp

theorem modeGood_access : AccessChain fun s t => ModeGood s → ModeGood t :=
  accessChain_of_any (chains_imp ModeGood) (fun _ _ _ _ => id) (fun _ _ _ _ _ => id) (fun _ _ => id) fun _ _ => id

theorem modeGood_modifier : ModifierChain fun s t => ModeGood s → ModeGood t where
  toFinalChain := finalChain_of_access modeGood_access (fun _ _ => id) fun _ _ _ => goodMode_of_none fun _ h => nomatch h
  goOn t _ := modeGood_withDispatch t
  pair _ _ _ hw h :=
    { escalation := h.escalation
      idleMode := fun hp => nomatch hp
      pairTag := fun _ hp => Phase.pair.inj hp ▸ hw }
  count _ := id

/-- An escalation that goes on records ABSOLUTE mode and sets APPENDING mode, where it is not sticky (R262). -/
theorem modeGood_escalate {s : State} (t : Tag) (h : ModeGood s) : ModeGood (withPhase (.dispatch t) (escalate s)) where
  escalation m hm := by
    simp only [withPhase, escalate] at hm ⊢
    split_ifs at hm with he
    · obtain ⟨ha, hs, -⟩ := he
      exact ⟨(Option.some.inj hm).symm, if_pos ha, hs⟩
    · obtain ⟨hm, ha, hs⟩ := h.escalation m hm
      exact ⟨hm, by simp [ha], hs⟩
  idleMode hp := nomatch hp
  pairTag _ hp := nomatch hp

/-- A pointer pair escalates only where it goes on, so no escalation outlives the resolution (R262, R263). -/
theorem keeps_pointerPair_mode (newTpr : Word36 → State → Tpr) :
    Keeps (fun s t => ModeGood s → ModeGood t) (pointerPair newTpr) :=
  keeps_bind (chains_imp ModeGood) (keeps_pairOddWord (chains_imp ModeGood) modeGood_modifier.read) fun odd s h =>
    modeGood_escalate (s := { s with tpr := newTpr odd s }) (pairMod odd) h

theorem exec_modeGood {instr : Instr} {s t : State} (hx : exec instr s = .next t) (h : ModeGood s) : ModeGood t := by
  cases hp : isPair instr
  · exact exec_keeps modeGood_modifier (fun _ _ _ => id) (fun _ _ => id) (fun _ _ _ => id) (fun hp' => by simp [hp] at hp') hx h
  · obtain ⟨newTpr, hm⟩ := meaning_of_isPair hp
    rw [exec_eq_complete, hm] at hx
    exact complete_keeps modeGood_modifier.toFinalChain (keeps_pointerPair_mode newTpr) hx h

end Sys2Proof.Machine
end

section
/-! SUPPORT. How many indirect fetches an instruction counts: none, or one that stayed within the limit where it goes on (R163). -/

namespace Sys2Proof.Machine

variable {R : State → State → Prop}

/-! ### The families, as shapes -/

/-- A property of actions that each family's shape has (R165, R175, R180, R220, R255). -/
structure OfFamilies (P : Act Unit → Prop) : Prop where
  register : ∀ td, P (registerTag td)
  registerIndirect : ∀ td, P (registerIndirectTag td)
  indirectRegister : ∀ td, P (indirectRegisterTag td)
  faultTag : ∀ f, P (tallyTag (raise f))
  tallyWord : ∀ (fy : Word36 → Word18) (ft : Word36 → BitVec 12) (fa : Word36 → Word18),
    P (tallyTag (tallyUpdate (fun _ => pure ()) fy ft wordLow6 fun w => finalWordAt (fa w)))
  tallyContinue : ∀ (fy : Word36 → Word18) (ft : Word36 → BitVec 12) (fa : Word36 → Word18),
    P (tallyTag (tallyUpdate (fun _ => pure ()) fy ft wordLow6 fun w => continueAt (fa w) (wordLow6 w)))
  tallyChar : ∀ (fy : Word36 → Word18) (ft : Word36 → BitVec 12) (fl : Word36 → BitVec 6) (fa : Word36 → Word18)
      (fk : Word36 → BitVec 3),
    P (tallyTag (tallyUpdate checkCharPosition fy ft fl fun w => finalCharAt (fa w) (wordCharSize w) (fk w)))
  character : P (tallyTag characterIndirect)
  plain : P (tallyTag plainIndirect)
  pair : ∀ newTpr, P (pointerPair newTpr)

/-- What the shapes of the families have, every instruction's operation has. -/
theorem OfFamilies.meaning {P : Act Unit → Prop} (h : OfFamilies P) (instr : Instr) : P (meaning instr) := by
  have word : ∀ row ∈ wordTallyRows, P (Machine.meaning row.1) := fun row hr =>
    (meaning_of_wordTallyRows row hr).symm ▸ h.tallyWord _ _ _
  have cont : ∀ row ∈ continueTallyRows, P (Machine.meaning row.1) := fun row hr =>
    (meaning_of_continueTallyRows row hr).symm ▸ h.tallyContinue _ _ _
  have sequence : ∀ row ∈ sequenceRows, P (Machine.meaning row.1) := fun row hr =>
    (meaning_of_sequenceRows row hr).symm ▸ h.tallyChar _ _ _ _ _
  cases instr
  case n | au | qu | du | ic | al | ql | dl | x0 | x1 | x2 | x3 | x4 | x5 | x6 | x7 => exact h.register _
  case nStar | auStar | quStar | duStar | icStar | alStar | qlStar | dlStar | x0Star | x1Star | x2Star | x3Star
      | x4Star | x5Star | x6Star | x7Star => exact h.registerIndirect _
  case starN | starAu | starQu | starDu | starIc | starAl | starQl | starDl | starX0 | starX1 | starX2 | starX3
      | starX4 | starX5 | starX6 | starX7 => exact h.indirectRegister _
  case f1 | itp | itReserved42 | its | f2 | f3 => exact h.faultTag _
  case ad => exact word _ (.head _)
  case sd => exact word _ (.tail _ (.head _))
  case di => exact word _ (.tail _ (.tail _ (.head _)))
  case id => exact word _ (.tail _ (.tail _ (.tail _ (.head _))))
  case dic => exact cont _ (.head _)
  case idc => exact cont _ (.tail _ (.head _))
  case sc => exact sequence _ (.head _)
  case scr => exact sequence _ (.tail _ (.head _))
  case ci => exact h.character
  case i => exact h.plain
  case itsPair | itpPair => exact h.pair _

/-- A sequence leaves what its second action leaves, where its first answers. -/
theorem leaves_bind_of_ok {α β : Type} {m : Act α} {f : α → Act β} {s t : State} {a : α} (h : m s = .ok a t) :
    leaves (m >>= f) s = leaves (f a) t := by
  rw [leaves, leaves, bind_of_ok h]

/-! ### Between the count and the end of a resolution -/

/-- A chain kept by the changes of a resolution that goes on, other than the count of a fetch. -/
structure GoingChain (R : State → State → Prop) : Prop extends Chains R where
  read : ∀ ca acc, Keeps R (memRead ca acc)
  write : ∀ ca w acc, Keeps R (memWrite ca w acc)
  ca : ∀ ca s, R s (withCa ca s)
  tro : ∀ b s, R s (withTro b s)
  goOn : ∀ t s, R s (withPhase (.dispatch t) s)
  pair : ∀ w r s, R s { s with phase := .pair w, ringTerm := r }

/-- `IndirectFetch` after its count (R164). -/
def fetchIndirectWord : Act Unit := do
  let ca ← read (·.tpr.ca)
  let r ← memRead ca .indirectRead
  acceptIndirect r.1 r.2

theorem indirectFetch_eq : indirectFetch = countIndirect >>= fun _ => fetchIndirectWord := rfl

/-- `TallyFetch` after its count (R221). -/
def fetchTallyWord : Act (Word18 × Word36) := do
  let taddr ← read (·.tpr.ca)
  let r ← memRead taddr .indirectRead
  return (taddr, r.1)

theorem tallyFetch_eq : tallyFetch = countIndirect >>= fun _ => fetchTallyWord := rfl

section
variable (h : GoingChain R)
include h

theorem GoingChain.fetchIndirectWord : Keeps R fetchIndirectWord := by
  refine keeps_bind h.toChains (keeps_read h.toChains _) fun ca => keeps_bind h.toChains (h.read _ _) fun r => ?_
  unfold acceptIndirect
  refine keeps_ite _ (keeps_update fun s => h.pair _ _ s) ?_
  exact keeps_bind h.toChains (keeps_update fun s => h.ca _ s) fun _ => keeps_update fun s => h.goOn _ s

theorem GoingChain.fetchTallyWord : Keeps R fetchTallyWord :=
  keeps_bind h.toChains (keeps_read h.toChains _) fun _ => keeps_bind h.toChains (h.read _ _) fun _ => keeps_pure h.toChains _

theorem GoingChain.tallyRewrite (taddr y : Word18) (c : BitVec 12) (l : BitVec 6) : Keeps R (tallyRewrite taddr y c l) :=
  keeps_bind h.toChains (h.write _ _ _) fun _ => keeps_update fun s => h.tro _ s

theorem GoingChain.continueAt (ca : Word18) (ct : BitVec 6) : Keeps R (continueAt ca ct) :=
  keeps_bind h.toChains (keeps_update fun s => h.ca ca s) fun _ => keeps_update fun s => h.goOn _ s

end

/-! ### The depth -/

/-- The depth and the parameters are the same. -/
def SameDepth (s t : State) : Prop := t.depth = s.depth ∧ t.config = s.config

theorem sameDepth_access : AccessChain SameDepth :=
  accessChain_of_any ⟨fun _ => ⟨rfl, rfl⟩, fun h k => ⟨k.1.trans h.1, k.2.trans h.2⟩⟩ (fun _ _ _ _ => ⟨rfl, rfl⟩)
    (fun _ _ _ _ _ => ⟨rfl, rfl⟩) (fun _ _ => ⟨rfl, rfl⟩) fun _ _ => ⟨rfl, rfl⟩

theorem sameDepth_final : FinalChain SameDepth :=
  finalChain_of_access sameDepth_access (fun _ _ => ⟨rfl, rfl⟩) fun _ _ => ⟨rfl, rfl⟩

theorem sameDepth_chains : Chains SameDepth := sameDepth_final.toChains

theorem sameDepth_going : GoingChain SameDepth where
  toChains := sameDepth_chains
  read := sameDepth_final.read
  write := sameDepth_final.write
  ca _ _ := ⟨rfl, rfl⟩
  tro _ _ := ⟨rfl, rfl⟩
  goOn _ _ := ⟨rfl, rfl⟩
  pair _ _ _ := ⟨rfl, rfl⟩

theorem SameDepth.within_iff {s t : State} (h : SameDepth s t) : WithinDepth t ↔ WithinDepth s := by
  rw [WithinDepth, WithinDepth, h.1, h.2]

/-- An action counts no fetch, or one; and where it counted one and answers, the fetch was within the limit. -/
def CountsOnce {α : Type} (m : Act α) : Prop :=
  ∀ s, SameDepth s (leaves m s) ∨ SameDepth (counted s) (leaves m s) ∧ ∀ a t, m s = .ok a t → WithinDepth s

namespace CountsOnce

variable {α β : Type}

theorem of_same {m : Act α} (h : Keeps SameDepth m) : CountsOnce m := fun s => .inl (h s)

theorem countIndirect : CountsOnce countIndirect := by
  refine fun s => .inr ⟨?_, fun _ _ h => (countIndirect_eq_ok.1 h).1⟩
  rw [leaves, countIndirect_apply]
  cases depthBad s.config (s.depth + 1) <;> exact ⟨rfl, rfl⟩

/-- The count may come after actions that count nothing. -/
theorem bind_left {m : Act α} {f : α → Act β} (hm : Keeps SameDepth m) (hf : ∀ a, CountsOnce (f a)) :
    CountsOnce (m >>= f) := by
  intro s
  have hs := hm s
  cases h : m s with
  | error e t =>
    rw [leaves_of_error h] at hs
    rw [leaves_of_error (bind_of_error h)]
    exact .inl hs
  | ok a t =>
    rw [leaves_of_ok h] at hs
    rw [leaves_bind_of_ok h, bind_of_ok h]
    refine (hf a t).imp (sameDepth_chains.trans hs) fun ⟨hc, hw⟩ => ⟨?_, fun b u hb => hs.within_iff.1 (hw b u hb)⟩
    exact ⟨hc.1.trans (congrArg (· + 1) hs.1), hc.2.trans hs.2⟩

/-- The count may come before actions that count nothing. -/
theorem bind_right {m : Act α} {f : α → Act β} (hm : CountsOnce m) (hf : ∀ a, Keeps SameDepth (f a)) :
    CountsOnce (m >>= f) := by
  intro s
  have hs := hm s
  cases h : m s with
  | error e t =>
    rw [leaves_of_error h] at hs
    rw [leaves_of_error (bind_of_error h)]
    exact hs.imp id fun ⟨hc, _⟩ => ⟨hc, fun b u hb => by rw [bind_of_error h] at hb; nomatch hb⟩
  | ok a t =>
    rw [leaves_of_ok h] at hs
    rw [leaves_bind_of_ok h]
    exact hs.imp (sameDepth_chains.trans · (hf a t)) fun ⟨hc, hw⟩ =>
      ⟨sameDepth_chains.trans hc (hf a t), fun _ _ _ => hw a t h⟩

theorem indirectFetch : CountsOnce indirectFetch :=
  countIndirect.bind_right fun _ => sameDepth_going.fetchIndirectWord

theorem tallyFetch : CountsOnce tallyFetch :=
  countIndirect.bind_right fun _ => sameDepth_going.fetchTallyWord

theorem registerIndirectTag (td : Designator) : CountsOnce (registerIndirectTag td) :=
  .bind_left (keeps_raiseIf sameDepth_chains _ _) fun _ => .bind_left (keeps_read sameDepth_chains _) fun _ =>
    .bind_left (keeps_read sameDepth_chains _) fun _ => .bind_left (keeps_update (sameDepth_final.ca _)) fun _ => indirectFetch

theorem indirectRegisterTag (td : Designator) : CountsOnce (indirectRegisterTag td) :=
  .bind_left (keeps_update fun _ => ⟨rfl, rfl⟩) fun _ => indirectFetch

/-- The entry of an IT tag counts nothing. -/
theorem tallyTag {body : Act Unit} (hb : CountsOnce body) : CountsOnce (tallyTag body) :=
  .bind_left (keeps_get sameDepth_chains) fun _ => .bind_left (keeps_raiseIf sameDepth_chains _ _) fun _ =>
    .bind_left (keeps_update fun _ => ⟨rfl, rfl⟩) fun _ => hb

theorem tallyUpdate {check : Word36 → Act Unit} {fy : Word36 → Word18} {ft : Word36 → BitVec 12} {fl : Word36 → BitVec 6}
    {k : Word36 → Act Unit} (hc : ∀ w, Keeps SameDepth (check w)) (hk : ∀ w, Keeps SameDepth (k w)) :
    CountsOnce (tallyUpdate check fy ft fl k) :=
  tallyFetch.bind_right fun _ => keeps_bind sameDepth_chains (hc _) fun _ =>
    keeps_bind sameDepth_chains (sameDepth_going.tallyRewrite _ _ _ _) fun _ => hk _

/-- Every instruction counts at most one fetch. -/
theorem families : OfFamilies CountsOnce where
  register td := .of_same (keeps_registerTag sameDepth_final td)
  registerIndirect := registerIndirectTag
  indirectRegister := indirectRegisterTag
  faultTag _ := tallyTag (.of_same (keeps_raise sameDepth_chains _))
  tallyWord _ _ _ := tallyTag (tallyUpdate (fun _ => keeps_pure sameDepth_chains _) fun _ => keeps_finalWordAt sameDepth_final _)
  tallyContinue _ _ _ := tallyTag (tallyUpdate (fun _ => keeps_pure sameDepth_chains _) fun _ => sameDepth_going.continueAt _ _)
  tallyChar _ _ _ _ _ :=
    tallyTag (tallyUpdate (fun _ => keeps_raiseIf sameDepth_chains _ _) fun _ => keeps_finalCharAt sameDepth_final _ _ _)
  character := tallyTag <| tallyFetch.bind_right fun _ =>
    keeps_bind sameDepth_chains (keeps_raiseIf sameDepth_chains _ _) fun _ => keeps_finalCharAt sameDepth_final _ _ _
  plain := tallyTag <| tallyFetch.bind_right fun _ => keeps_finalWordAt sameDepth_final _
  pair _ := .of_same (keeps_pointerPair sameDepth_final (fun _ _ => ⟨rfl, rfl⟩) fun _ _ => ⟨rfl, rfl⟩)

end CountsOnce

/-- An instruction raises the depth by at most one. -/
theorem exec_depth_le {instr : Instr} {s t : State} (hx : exec instr s = .next t) : t.depth ≤ s.depth + 1 := by
  have hle : (leaves (meaning instr) s).depth ≤ s.depth + 1 := by
    rcases CountsOnce.families.meaning instr s with ⟨hd, -⟩ | ⟨⟨hd, -⟩, -⟩
    · omega
    · exact hd.le
  rw [exec_eq_complete] at hx
  rcases complete_eq_next.1 hx with h | ⟨f, u, h, rfl⟩
  · rwa [leaves_of_ok h] at hle
  · rwa [leaves_of_error h] at hle

/-- The fetches counted are within MAX_INDIRECT_DEPTH (R163). -/
def DepthGood (s : State) : Prop := ∀ m, s.config.maxIndirectDepth = some m → s.depth ≤ m

/-- An instruction that goes on has stayed within the limit: passing it is a fault, which ends the resolution (R163, R368). -/
theorem exec_depthGood {instr : Instr} {s t : State} (hx : exec instr s = .next t) (hp : t.phase ≠ .idle) (h : DepthGood s) :
    DepthGood t := by
  rw [exec_eq_complete] at hx
  rcases complete_eq_next.1 hx with hok | ⟨f, u, -, rfl⟩
  · have hc := CountsOnce.families.meaning instr s
    rw [leaves_of_ok hok] at hc
    rcases hc with ⟨hd, hcfg⟩ | ⟨⟨hd, hcfg⟩, hw⟩
    · simpa only [DepthGood, hd, hcfg] using h
    · intro m hm
      exact hd.le.trans (hw () t hok m (hcfg ▸ hm))
  · exact absurd rfl hp

end Sys2Proof.Machine
end

section
/-! SUPPORT. Every step keeps the invariant (O57). -/

namespace Sys2Proof.Machine

/-- The invariant is its three parts: the store, the mode, and the depth of a resolution in progress. -/
theorem inv_iff (s : State) : Inv s ↔ StoreGood s ∧ ModeGood s ∧ (s.phase ≠ .idle → DepthGood s) := by
  constructor
  · intro h
    exact ⟨⟨h.config, h.memCanonical, h.memExists, ⟨h.sdwamUse, h.sdwamUnique, fun _ _ => trivial⟩,
      ⟨h.ptwamUse, (ptwamUnique_iff _).1 h.ptwamUnique, h.pagenoFits⟩⟩,
      ⟨h.escalation, h.idleMode, h.pairTag⟩, h.withinLimit⟩
  · rintro ⟨hs, hm, hd⟩
    exact ⟨hs.config, hs.memCanonical, hs.memExists, hs.sdwam.use, hs.ptwam.use, hs.sdwam.unique,
      (ptwamUnique_iff _).2 hs.ptwam.unique, hs.ptwam.fits, hm.escalation, hm.idleMode, hm.pairTag, hd⟩

/-! ### Instructions -/

theorem exec_storeGood {instr : Instr} {s t : State} (hx : exec instr s = .next t) (h : StoreGood s) : StoreGood t :=
  exec_keeps storeGood_modifier (fun _ _ _ => id) (fun _ _ => id) (fun _ _ _ => id) (fun _ _ _ => id) hx h

/-- An instruction of a resolution in progress keeps the invariant. -/
theorem exec_inv {instr : Instr} {s t : State} (hx : exec instr s = .next t) (hp : s.phase ≠ .idle) (h : Inv s) : Inv t := by
  obtain ⟨hs, hm, hd⟩ := (inv_iff s).1 h
  exact (inv_iff t).2 ⟨exec_storeGood hx hs, exec_modeGood hx hm, fun ht => exec_depthGood hx ht (hd hp)⟩

/-! ### Between resolutions -/

/-- A good store between resolutions, with no escalation in effect: what the invariant says where the core is idle. -/
def AtRest (s : State) : Prop := StoreGood s ∧ s.phase = .idle ∧ s.escSaved = none

theorem atRest_of_inv {s : State} (h : Inv s) (hp : s.phase = .idle) : AtRest s :=
  ⟨((inv_iff s).1 h).1, hp, h.idleMode hp⟩

theorem AtRest.inv {s : State} (h : AtRest s) : Inv s := by
  obtain ⟨hs, hp, he⟩ := h
  refine (inv_iff s).2 ⟨hs, ?_, fun hn => absurd hp hn⟩
  rw [ModeGood, he, hp]
  exact goodMode_of_none fun _ h => nomatch h

/-- A resolution or an access that ends with a good store leaves the core at rest (R168, R263). -/
theorem atRest_endWith (r : Reply) {s : State} (h : StoreGood s) : AtRest (endWith r s) := ⟨h, rfl, rfl⟩

/-- What keeps the store good, and an access leaves alone otherwise, keeps the core at rest. -/
theorem keeps_atRest {α : Type} {m : Act α} (hs : Keeps (fun s t => StoreGood s → StoreGood t) m) (ha : Keeps AccessOnly m) :
    Keeps (fun s t => AtRest s → AtRest t) m := by
  rintro s ⟨hg, hp, he⟩
  have hk := ha s
  exact ⟨hs s hg, by rw [hk]; exact hp, by rw [hk]; exact he⟩

theorem atRest_final : FinalChain fun s t => AtRest s → AtRest t where
  toChains := chains_imp AtRest
  read ca acc :=
    keeps_atRest (keeps_memRead storeGood_access.toReadChain ca acc) (keeps_memRead accessOnly_chain.toReadChain ca acc)
  write ca w acc := keeps_atRest (keeps_memWrite storeGood_access ca w acc) (keeps_memWrite accessOnly_chain ca w acc)
  ca _ _ := id
  ended r _ h := atRest_endWith r h.1

section
variable {R : State → State → Prop} (h : FinalChain R)
include h

theorem keeps_fetchInstruction (aim : ∀ s, R s (aimAtProcedure s)) : Keeps R fetchInstruction :=
  keeps_bind h.toChains (keeps_update aim) fun _ => keeps_bind h.toChains (keeps_read h.toChains _) fun _ =>
    keeps_bind h.toChains (h.read _ _) fun _ => keeps_pure h.toChains _

theorem keeps_readN (ca : Word18) (acc : Access) (n : Nat) : Keeps R (readN ca acc n) := by
  induction n generalizing ca with
  | zero => exact keeps_pure h.toChains _
  | succ n ih => exact keeps_bind h.toChains (h.read _ _) fun _ => keeps_bind h.toChains (ih _) fun _ => keeps_pure h.toChains _

theorem keeps_performAccess (aim : ∀ s, R s (aimAtProcedure s)) (r : AccessRequest) : Keeps R (performAccess r) := by
  cases r with
  | fetch => exact keeps_bind h.toChains (keeps_fetchInstruction h aim) fun _ => keeps_pure h.toChains _
  | memRead => exact keeps_bind h.toChains (h.read _ _) fun _ => keeps_pure h.toChains _
  | memWrite => exact keeps_bind h.toChains (h.write _ _ _) fun _ => keeps_pure h.toChains _
  | readPair =>
    exact keeps_bind h.toChains (keeps_bind h.toChains (h.read _ _) fun _ => keeps_bind h.toChains (h.read _ _) fun _ =>
      keeps_pure h.toChains _) fun _ => keeps_pure h.toChains _
  | readN => exact keeps_readN h _ _ _

end

/-- Everything a collaborator's own memory write can do: it stores the word, or faults with the state unchanged (log entry 5). -/
theorem loadWord_cases (pa : Word24) (w : Word36) (s : State) :
    (s.config.memSize ≤ pa.toNat ∧ loadWord pa w s = .error (.fault (.nonexistentMemory pa)) s) ∨
    (pa.toNat < s.config.memSize ∧ loadWord pa w s = .ok () (withWord pa w s)) := by
  by_cases he : s.config.memSize ≤ pa.toNat
  · exact .inl ⟨he, by simp [loadWord, checkExists, act_bind, nonexistent, he]⟩
  · exact .inr ⟨by omega, by simp [loadWord, checkExists, act_bind, nonexistent, he]⟩

theorem keeps_loadWord (pa : Word24) (w : Word36) : Keeps (fun s t => AtRest s → AtRest t) (loadWord pa w) := by
  intro s h
  unfold leaves
  rcases loadWord_cases pa w s with ⟨-, h'⟩ | ⟨he, h'⟩ <;> rw [h']
  · exact h
  · exact ⟨storeGood_withWord h.1 he w, h.2⟩

theorem atRest_writeRegister (r : RegisterWrite) {s : State} (h : AtRest s) : AtRest (writeRegister r s) := by
  cases r <;> exact h

theorem atRest_invalidateSdwam {s : State} (h : AtRest s) : AtRest (invalidateSdwam s) := by
  have hg := h.1.with_sdwam h.1.sdwam.invalidate
  simpa only [AtRest, StoreGood, invalidateSdwam_config, invalidateSdwam_mem, invalidateSdwam_sdwam, invalidateSdwam_ptwam,
    invalidateSdwam_phase, invalidateSdwam_escSaved] using And.intro hg h.2

theorem atRest_invalidatePtwam {s : State} (h : AtRest s) : AtRest (invalidatePtwam s) := by
  have hg := h.1.with_ptwam h.1.ptwam.invalidate
  simpa only [AtRest, StoreGood, invalidatePtwam_config, invalidatePtwam_mem, invalidatePtwam_sdwam, invalidatePtwam_ptwam,
    invalidatePtwam_phase, invalidatePtwam_escSaved] using And.intro hg h.2

/-- The reset event keeps memory and the parameters, and leaves empty AMs whose counters are a permutation (R400). -/
theorem atRest_resetCore {s : State} (h : AtRest s) : AtRest (resetCore s) :=
  ⟨⟨h.1.config, h.1.memCanonical, h.1.memExists, .reset sdwZero, .reset ptwZero⟩, rfl, rfl⟩

/-- Every request served whole keeps the core at rest. -/
theorem keeps_serveRequest (r : Request) : Keeps (fun s t => AtRest s → AtRest t) (serveRequest r) := by
  have hR := chains_imp AtRest
  cases r with
  | access r =>
    exact keeps_bind hR (keeps_performAccess atRest_final (fun _ => id) r) fun _ => keeps_update (atRest_final.ended _)
  | register r => exact keeps_update fun _ => atRest_writeRegister r
  | loadWord pa w => exact keeps_loadWord pa w
  | invalidateSdwam => exact keeps_update fun _ => atRest_invalidateSdwam
  | invalidatePtwam => exact keeps_update fun _ => atRest_invalidatePtwam
  | reset => exact keeps_update fun _ => atRest_resetCore
  | resolve | execute => exact keeps_pure hR ()

/-! ### The beginning of a resolution -/

/-- A resolution that begins stands at its first dispatch with depth 0, the store and the escalation record as they were (R160). -/
def Begun (s t : State) : Prop :=
  (StoreGood s → StoreGood t) ∧ t.escSaved = s.escSaved ∧ t.depth = 0 ∧ ∃ tag, t.phase = .dispatch tag

theorem begun_of_beginResolution {op : Operation} {s t : State} (h : beginResolution op s = .ok () t) : Begun s t := by
  unfold beginResolution at h
  rw [bind_of_ok (update_apply _ s), act_bind, formInitialTpr_apply] at h
  split_ifs at h
  all_goals
    cases h
    exact ⟨id, rfl, rfl, _, rfl⟩

/-- The fetch of the instruction word leaves the core at rest, and the resolution of its fields begins there (R92, R160). -/
theorem begun_of_beginExecution {op : Operation} {s t : State} (hs : AtRest s) (h : beginExecution op s = .ok () t) :
    ∃ u, AtRest u ∧ Begun u t := by
  obtain ⟨w, u, hf, hb⟩ := bind_eq_ok.1 h
  have hu : AtRest u := keeps_of_ok (keeps_fetchInstruction atRest_final fun _ => id) hf hs
  exact ⟨{ u with instr := decodeFields w }, hu, begun_of_beginResolution hb⟩

/-- Where a resolution has begun from rest, the invariant holds. -/
theorem Begun.inv {s t : State} (h : Begun s t) (hs : AtRest s) : Inv t := by
  obtain ⟨hg, he, hd, tag, hp⟩ := h
  refine (inv_iff t).2 ⟨hg hs.1, ?_, fun _ m _ => hd ▸ Nat.zero_le m⟩
  rw [ModeGood, he, hs.2.2, hp]
  exact goodMode_of_none fun _ h => nomatch h

theorem Begun.not_idle {s t : State} (h : Begun s t) : t.phase ≠ .idle := by
  obtain ⟨-, -, -, tag, hp⟩ := h
  simp [hp]

/-- A request that begins a resolution from rest: the invariant holds where it begins, and the store is good where it faults. -/
theorem beginRequest_inv {r : Request} {m : Act Unit} (hb : beginRequest r = some m) {s : State} (hs : AtRest s) :
    (∀ t, m s = .ok () t → Inv t ∧ t.phase ≠ .idle) ∧ StoreGood (leaves m s) := by
  have hg := storeGood_modifier.toFinalChain
  have hbegin (op) : Keeps (fun s t => StoreGood s → StoreGood t) (beginResolution op) :=
    keeps_beginResolution hg.toChains (fun _ _ => id) (fun _ _ => id) (fun _ _ => id) op
  cases r with
  | resolve op =>
    cases hb
    exact ⟨fun t ht => have h := begun_of_beginResolution ht; ⟨h.inv hs, h.not_idle⟩, hbegin op s hs.1⟩
  | execute op =>
    cases hb
    refine ⟨fun t ht => ?_, ?_⟩
    · obtain ⟨u, hu, h⟩ := begun_of_beginExecution hs ht
      exact ⟨h.inv hu, h.not_idle⟩
    · have hexec : Keeps (fun s t => StoreGood s → StoreGood t) (beginExecution op) :=
        keeps_bind hg.toChains (keeps_fetchInstruction hg fun _ => id) fun w =>
          keeps_bind hg.toChains (keeps_update fun _ => id) fun _ => hbegin op
      exact hexec s hs.1
  | _ => nomatch hb

/-! ### The step -/

/-- An operation with what goes on from it has a next state in two ways: what goes on answers it, or the operation's fault was
taken. -/
theorem andThen_eq_next {m : Act Unit} {k : State → Host.Outcome State Fault Refusal} {s t : State} :
    andThen m k s = .next t ↔
      (∃ u, m s = .ok () u ∧ k u = .next t) ∨ ∃ f u, m s = .error (.fault f) u ∧ t = takeFault f u := by
  unfold andThen
  rcases h : m s with ⟨⟨⟩, u⟩ | ⟨_ | _, u⟩ <;> simp [eq_comm]

/-- Serving a request keeps the invariant: a request served whole leaves the core at rest, and a resolution begins and makes its
first dispatch. -/
theorem serve_inv {r : Request} {s t : State} (hs : AtRest s) (h : serve r s = .next t) : Inv t := by
  unfold serve at h
  split at h
  next m hb =>
    obtain ⟨hok, hstore⟩ := beginRequest_inv hb hs
    rcases andThen_eq_next.1 h with ⟨u, hu, hx⟩ | ⟨f, u, hu, rfl⟩
    · obtain ⟨hi, hp⟩ := hok u hu
      exact exec_inv hx hp hi
    · rw [leaves_of_error hu] at hstore
      exact (atRest_endWith _ hstore).inv
  next => exact (complete_keeps atRest_final (keeps_serveRequest r) h hs).inv

/-- Settles O57: a step of a resolution is `exec_inv`, a request is `serve_inv`, and with neither nothing changes. -/
theorem invariantKept : Obligations.InvariantKept := by
  intro s t h hx
  unfold step at hx
  split at hx
  next hp => exact exec_inv hx (by simp [hp]) h
  next hp => exact exec_inv hx (by simp [hp]) h
  next hp =>
    split at hx
    next => exact (Host.Outcome.next.inj hx) ▸ h
    next r rs _ =>
      have hs : AtRest s := atRest_of_inv h hp
      exact serve_inv (s := withRequests rs s) hs hx

end Sys2Proof.Machine
end

section
/-! SUPPORT. What no instruction writes: the inputs, the AMs outside APPENDING mode, TRO, CT_HOLD and the depth (O47, O49). -/

namespace Sys2Proof.Machine

/-! ### The inputs (R48) -/

theorem sameInputs_chains : Chains SameInputs where
  refl _ := by simp only [SameInputs, and_self]
  trans := by
    rintro s t u ⟨hx, ha, hq, hppr, hi, hbar, hdsbr, hpr, hc, hop, hr⟩ h
    rwa [SameInputs, hx, ha, hq, hppr, hi, hbar, hdsbr, hpr, hc, hop, hr] at h

theorem sameInputs_modifier : ModifierChain SameInputs where
  toFinalChain := finalChain_of_access
    (accessChain_of_any sameInputs_chains (fun _ _ _ => sameInputs_chains.refl) (fun _ _ _ s _ => sameInputs_chains.refl s)
      (fun _ => sameInputs_chains.refl) fun _ => sameInputs_chains.refl)
    (fun _ => sameInputs_chains.refl) fun _ => sameInputs_chains.refl
  goOn _ := sameInputs_chains.refl
  pair _ _ s _ := sameInputs_chains.refl s
  count := sameInputs_chains.refl

theorem exec_sameInputs {instr : Instr} {s t : State} (hx : exec instr s = .next t) : SameInputs s t :=
  exec_keeps sameInputs_modifier (fun _ _ => sameInputs_chains.refl) (fun _ => sameInputs_chains.refl)
    (fun _ _ => sameInputs_chains.refl) (fun _ _ => sameInputs_chains.refl) hx

/-! ### The associative memories outside APPENDING mode -/

/-- Outside APPENDING mode the two states have the same associative memories. -/
def SameAms (s t : State) : Prop := s.addrMode ≠ .appending → t.sdwam = s.sdwam ∧ t.ptwam = s.ptwam

/-- Outside APPENDING mode the two states have the same mode and the same associative memories: what holds up to the end of a
resolution, which may change the mode. -/
def Unmapped (s t : State) : Prop :=
  s.addrMode ≠ .appending → t.addrMode = s.addrMode ∧ t.sdwam = s.sdwam ∧ t.ptwam = s.ptwam

theorem unmapped_chains : Chains Unmapped where
  refl _ _ := ⟨rfl, rfl, rfl⟩
  trans h k hs := by
    obtain ⟨hm, hsd, hpt⟩ := h hs
    have hk := k (hm ▸ hs)
    rwa [hm, hsd, hpt] at hk

/-- Where the mode and the AMs are not touched. -/
theorem unmapped_of_eq {s t : State} (hm : t.addrMode = s.addrMode) (hs : t.sdwam = s.sdwam) (hp : t.ptwam = s.ptwam) :
    Unmapped s t := fun _ => ⟨hm, hs, hp⟩

/-- Outside APPENDING mode an address is formed without a translation (R88, R90). -/
theorem unmapped_formAddress (ca : Word18) (acc : Access) : Keeps Unmapped (formAddress ca acc) := by
  intro s hs
  unfold leaves
  cases hm : s.addrMode with
  | absolute => rw [formAddress_absolute hm]; exact ⟨hm, rfl, rfl⟩
  | appending => exact absurd hm hs
  | bar =>
    rw [formAddress_bar hm]
    cases barBad s.bar ca <;> exact ⟨hm, rfl, rfl⟩

theorem unmapped_physRead (pa : Word24) (acc : AccessType) : Keeps Unmapped (physRead pa acc) := fun s =>
  unmapped_of_eq (keeps_physRead_eq (·.addrMode) (fun _ _ => rfl) pa acc s)
    (keeps_physRead_eq (·.sdwam) (fun _ _ => rfl) pa acc s) (keeps_physRead_eq (·.ptwam) (fun _ _ => rfl) pa acc s)

theorem unmapped_physWrite (pa : Word24) (w : Word36) (acc : AccessType) : Keeps Unmapped (physWrite pa w acc) := by
  intro s
  unfold leaves
  rcases physWrite_cases pa w acc s with ⟨-, h⟩ | ⟨-, h⟩ <;> rw [h] <;> exact unmapped_of_eq rfl rfl rfl

theorem unmapped_going : GoingChain Unmapped where
  toChains := unmapped_chains
  read ca acc := keeps_bind unmapped_chains (unmapped_formAddress ca acc) fun _ =>
    keeps_bind unmapped_chains (unmapped_physRead _ _) fun _ => keeps_pure unmapped_chains _
  write ca _ acc := keeps_bind unmapped_chains (unmapped_formAddress ca acc) fun _ => unmapped_physWrite _ _ _
  ca _ _ := unmapped_of_eq rfl rfl rfl
  tro _ _ := unmapped_of_eq rfl rfl rfl
  goOn _ _ := unmapped_of_eq rfl rfl rfl
  pair _ _ _ := unmapped_of_eq rfl rfl rfl

theorem unmapped_countIndirect : Keeps Unmapped countIndirect :=
  keeps_bind unmapped_chains (keeps_update fun _ => unmapped_of_eq rfl rfl rfl) fun _ =>
    keeps_bind unmapped_chains (keeps_read unmapped_chains _) fun _ => keeps_raiseIf unmapped_chains _ _

/-- An action that outside APPENDING mode keeps the associative memories. -/
def KeepsAms {α : Type} (m : Act α) : Prop := Keeps SameAms m

namespace KeepsAms

variable {α β : Type}

theorem of_unmapped {m : Act α} (h : Keeps Unmapped m) : KeepsAms m := fun s hs => (h s hs).2

/-- Only the last action of a sequence may change the mode. -/
theorem bind {m : Act α} {f : α → Act β} (hm : Keeps Unmapped m) (hf : ∀ a, KeepsAms (f a)) : KeepsAms (m >>= f) := by
  intro s hs
  obtain ⟨hmode, hsd, hpt⟩ := hm s hs
  cases h : m s with
  | error e t =>
    rw [leaves_of_error h] at hsd hpt
    rw [leaves_of_error (bind_of_error h)]
    exact ⟨hsd, hpt⟩
  | ok a t =>
    rw [leaves_of_ok h] at hmode hsd hpt
    obtain ⟨hsd', hpt'⟩ := hf a t (hmode ▸ hs)
    rw [leaves_bind_of_ok h]
    exact ⟨hsd'.trans hsd, hpt'.trans hpt⟩

theorem read_bind {f : State → α} {k : α → Act β} (hk : ∀ a, KeepsAms (k a)) : KeepsAms (read f >>= k) :=
  bind (keeps_read unmapped_chains f) hk

theorem update_bind {f : State → State} {k : Unit → Act β} (hf : ∀ s, Unmapped s (f s)) (hk : ∀ a, KeepsAms (k a)) :
    KeepsAms (update f >>= k) :=
  bind (keeps_update hf) hk

theorem finish (r : Result) : KeepsAms (finish r) := fun _ _ => ⟨rfl, rfl⟩

theorem finalWord : KeepsAms finalWord := by
  refine read_bind fun ca => read_bind fun op => ?_
  split
  · exact bind (unmapped_going.read _ _) fun _ => finish _
  · exact bind (unmapped_going.write _ _ _) fun _ => finish _
  · exact finish _

theorem finalChar (sz : CharSize) (cf : BitVec 3) : KeepsAms (finalChar sz cf) := by
  refine read_bind fun ca => read_bind fun op => ?_
  split
  · exact bind (unmapped_going.read _ _) fun _ => finish _
  · exact bind (unmapped_going.read _ _) fun _ => bind (unmapped_going.write _ _ _) fun _ => finish _
  · exact finish _

theorem directOperand (td : Designator) : KeepsAms (directOperand td) := by
  refine read_bind fun ca => read_bind fun op => ?_
  split
  · exact of_unmapped (keeps_raise unmapped_chains _)
  · exact finish _

theorem finalWordAt (ca : Word18) : KeepsAms (finalWordAt ca) := update_bind (unmapped_going.ca ca) fun _ => finalWord

theorem finalCharAt (ca : Word18) (sz : CharSize) (cf : BitVec 3) : KeepsAms (finalCharAt ca sz cf) :=
  update_bind (unmapped_going.ca ca) fun _ => finalChar sz cf

theorem indirectFetch : KeepsAms indirectFetch :=
  bind unmapped_countIndirect fun _ => of_unmapped unmapped_going.fetchIndirectWord

theorem tallyFetch_bind {k : Word18 × Word36 → Act Unit} (hk : ∀ tw, KeepsAms (k tw)) : KeepsAms (tallyFetch >>= k) :=
  bind (keeps_bind unmapped_chains unmapped_countIndirect fun _ => unmapped_going.fetchTallyWord) hk

theorem registerTag (td : Designator) : KeepsAms (registerTag td) := by
  refine read_bind fun d => read_bind fun v => ?_
  split
  · exact directOperand _
  · exact read_bind fun ca => update_bind (unmapped_going.ca _) fun _ => finalWord

theorem registerIndirectTag (td : Designator) : KeepsAms (registerIndirectTag td) :=
  bind (keeps_raiseIf unmapped_chains _ _) fun _ => read_bind fun _ => read_bind fun _ =>
    update_bind (unmapped_going.ca _) fun _ => indirectFetch

theorem indirectRegisterTag (td : Designator) : KeepsAms (indirectRegisterTag td) :=
  update_bind (fun _ => unmapped_of_eq rfl rfl rfl) fun _ => indirectFetch

theorem tallyTag {body : Act Unit} (hb : KeepsAms body) : KeepsAms (tallyTag body) :=
  bind (keeps_get unmapped_chains) fun _ => bind (keeps_raiseIf unmapped_chains _ _) fun _ =>
    update_bind (fun _ => unmapped_of_eq rfl rfl rfl) fun _ => hb

theorem tallyUpdate {check : Word36 → Act Unit} {fy : Word36 → Word18} {ft : Word36 → BitVec 12} {fl : Word36 → BitVec 6}
    {k : Word36 → Act Unit} (hc : ∀ w, Keeps Unmapped (check w)) (hk : ∀ w, KeepsAms (k w)) :
    KeepsAms (tallyUpdate check fy ft fl k) :=
  tallyFetch_bind fun _ => bind (hc _) fun _ => bind (unmapped_going.tallyRewrite _ _ _ _) fun _ => hk _

/-- A pointer pair reads its odd word in the mode before the escalation, and reads nothing after it (R257, R262). -/
theorem pointerPair (newTpr : Word36 → State → Tpr) : KeepsAms (pointerPair newTpr) :=
  bind (keeps_pairOddWord unmapped_chains unmapped_going.read) fun _ _ _ => ⟨rfl, rfl⟩

/-- Every instruction keeps the associative memories outside APPENDING mode. -/
theorem families : OfFamilies KeepsAms where
  register := registerTag
  registerIndirect := registerIndirectTag
  indirectRegister := indirectRegisterTag
  faultTag _ := tallyTag (of_unmapped (keeps_raise unmapped_chains _))
  tallyWord _ _ _ := tallyTag (tallyUpdate (fun _ => keeps_pure unmapped_chains _) fun _ => finalWordAt _)
  tallyContinue _ _ _ :=
    tallyTag (tallyUpdate (fun _ => keeps_pure unmapped_chains _) fun _ => of_unmapped (unmapped_going.continueAt _ _))
  tallyChar _ _ _ _ _ := tallyTag (tallyUpdate (fun _ => keeps_raiseIf unmapped_chains _ _) fun _ => finalCharAt _ _ _)
  character := tallyTag <| tallyFetch_bind fun _ => bind (keeps_raiseIf unmapped_chains _ _) fun _ => finalCharAt _ _ _
  plain := tallyTag <| tallyFetch_bind fun _ => finalWordAt _
  pair := pointerPair

end KeepsAms

theorem exec_sameAms {instr : Instr} {s t : State} (hx : exec instr s = .next t) : SameAms s t := by
  have hk := KeepsAms.families.meaning instr s
  rw [exec_eq_complete] at hx
  rcases complete_eq_next.1 hx with h | ⟨f, u, h, rfl⟩
  · rwa [leaves_of_ok h] at hk
  · rwa [leaves_of_error h] at hk

/-- Settles O47: the inputs are kept by every change of the modifier (`exec_sameInputs`), the AMs by every access outside APPENDING
mode (`exec_sameAms`). -/
theorem inputsNeverWritten : Obligations.InputsNeverWritten :=
  fun _ _ _ hx => ⟨exec_sameInputs hx, exec_sameAms hx⟩

/-! ### TRO, CT_HOLD and the depth -/

theorem sameTro_modifier : ModifierChain fun s t => t.tro = s.tro where
  toFinalChain := finalChain_of_access (accessChain_of_any (chains_eq (·.tro)) (fun _ _ _ _ => rfl) (fun _ _ _ _ _ => rfl)
    (fun _ _ => rfl) fun _ _ => rfl) (fun _ _ => rfl) fun _ _ => rfl
  goOn _ _ := rfl
  pair _ _ _ _ := rfl
  count _ := rfl

theorem sameHold_modifier : ModifierChain fun s t => t.ctHold = s.ctHold where
  toFinalChain := finalChain_of_access (accessChain_of_any (chains_eq (·.ctHold)) (fun _ _ _ _ => rfl) (fun _ _ _ _ _ => rfl)
    (fun _ _ => rfl) fun _ _ => rfl) (fun _ _ => rfl) fun _ _ => rfl
  goOn _ _ := rfl
  pair _ _ _ _ := rfl
  count _ := rfl

/-- Only the tally-bearing instructions write TRO (R39, R223). -/
theorem exec_tro {instr : Instr} {s t : State} (hi : instr ∉ tallyBearing) (hx : exec instr s = .next t) : t.tro = s.tro :=
  exec_keeps sameTro_modifier (fun _ _ _ => rfl) (fun _ _ => rfl) (fun h => absurd h hi) (fun _ _ _ => rfl) hx

/-- Only the IR tags write CT_HOLD (R38, R180). -/
theorem exec_ctHold {instr : Instr} {s t : State} (hi : instr ∉ indirectRegisterRows.map Prod.fst) (hx : exec instr s = .next t) :
    t.ctHold = s.ctHold :=
  exec_keeps sameHold_modifier (fun h => absurd h hi) (fun _ _ => rfl) (fun _ _ _ => rfl) (fun _ _ _ => rfl) hx

/-- The IT tags that only fault: the fault tags and the reserved designators (R237 to R240). -/
theorem meaning_of_faultTags : ∀ instr ∈ [Instr.f1, .f2, .f3, .itp, .itReserved42, .its],
    ∃ f, meaning instr = tallyTag (raise f) := by
  intro instr h
  fin_cases h <;> exact ⟨_, rfl⟩

/-- An R tag, a fault tag, a reserved designator and a pointer pair count no fetch (R163). -/
theorem sameDepth_meaning {instr : Instr}
    (h : instr ∈ registerTags ++ [.f1, .f2, .f3, .itp, .itReserved42, .its] ∨ isPair instr = true) :
    Keeps SameDepth (meaning instr) := by
  rcases h with h | h
  · rcases List.mem_append.1 h with h | h
    · rw [meaning_of_registerTags _ h]
      exact keeps_registerTag sameDepth_final _
    · obtain ⟨f, hm⟩ := meaning_of_faultTags _ h
      rw [hm]
      exact keeps_bind sameDepth_chains (keeps_get sameDepth_chains) fun _ =>
        keeps_bind sameDepth_chains (keeps_raiseIf sameDepth_chains _ _) fun _ =>
        keeps_bind sameDepth_chains (keeps_update fun _ => ⟨rfl, rfl⟩) fun _ => keeps_raise sameDepth_chains f
  · obtain ⟨newTpr, hm⟩ := meaning_of_isPair h
    rw [hm]
    exact keeps_pointerPair sameDepth_final (fun _ _ => ⟨rfl, rfl⟩) fun _ _ => ⟨rfl, rfl⟩

/-- Settles O49: each register has the instructions that may write it, and the count of fetches is that of `CountsOnce`. -/
theorem indicatorAndHoldFrame : Obligations.IndicatorAndHoldFrame := by
  intro instr s t hx
  refine ⟨fun hi => exec_tro hi hx, fun hi => exec_ctHold hi hx, fun hi => ?_, exec_depth_le hx⟩
  rw [exec_eq_complete] at hx
  exact (complete_keeps sameDepth_final (sameDepth_meaning hi) hx).1

end Sys2Proof.Machine
end

section
/-! SUPPORT. What a collaborator's request changes (O10). -/

namespace Sys2Proof.Machine

variable {s : State} {rs : List Request}

/-- A request that begins no resolution is served whole by the step that takes it off the queue (log entry 5). -/
theorem step_served {r : Request} (hp : s.phase = .idle) (hr : s.requests = r :: rs) (hb : beginRequest r = none) :
    step s = complete (serveRequest r) (withRequests rs s) := by
  rw [step_request hp hr, serve, hb]

theorem step_register {r : RegisterWrite} (hp : s.phase = .idle) (hr : s.requests = .register r :: rs) :
    step s = .next (writeRegister r (withRequests rs s)) :=
  (step_served hp hr rfl).trans rfl

/-- A collaborator's write of an existing word stores it. -/
theorem step_loadWord {pa : Word24} {w : Word36} (hp : s.phase = .idle) (hr : s.requests = .loadWord pa w :: rs)
    (he : pa.toNat < s.config.memSize) : step s = .next (withWord pa w (withRequests rs s)) := by
  rcases loadWord_cases pa w (withRequests rs s) with ⟨hn, -⟩ | ⟨-, h⟩
  · exact absurd he (Nat.not_lt.2 hn)
  · exact (step_served hp hr rfl).trans (complete_of_ok h)

/-- A collaborator's write at or above MEM_SIZE faults with nothing written. -/
theorem step_loadWord_nonexistent {pa : Word24} {w : Word36} (hp : s.phase = .idle) (hr : s.requests = .loadWord pa w :: rs)
    (he : s.config.memSize ≤ pa.toNat) : step s = .next (takeFault (.nonexistentMemory pa) (withRequests rs s)) := by
  rcases loadWord_cases pa w (withRequests rs s) with ⟨-, h⟩ | ⟨hn, -⟩
  · exact (step_served hp hr rfl).trans (complete_of_fault h)
  · exact absurd hn (Nat.not_lt.2 he)

/-- A write of one register of eight leaves the other seven. -/
theorem getElem_set_of_toNat {α : Type} (v : Vector α 8) (n : BitVec 3) (a : α) (k : Fin 8) :
    (v.set n.toNat a)[k] = if k.val = n.toNat then a else v[k] := by
  simp only [Fin.getElem_fin, Vector.getElem_set, eq_comm]

/-- Settles O10: each kind of request by the step that serves it whole. -/
theorem collaboratorWrites : Obligations.CollaboratorWrites := by
  intro s rs hp
  refine ⟨fun hr => ⟨amInvalidate s.sdwam, step_served hp hr rfl, amInvalidate_get _⟩,
    fun hr => ⟨amInvalidate s.ptwam, step_served hp hr rfl, amInvalidate_get _⟩, fun r hr => ?_,
    fun pa w hr => ⟨fun he => ?_, ?_⟩⟩
  · cases r with
    | x n v => exact ⟨_, step_register hp hr, getElem_set_of_toNat s.x n v⟩
    | pr n v => exact ⟨_, step_register hp hr, getElem_set_of_toNat s.pr n v⟩
    | _ => exact step_register hp hr
  · exact ⟨_, step_loadWord hp hr he, fun a => memLookup_memStore s.mem pa.toNat a w⟩
  · exact step_loadWord_nonexistent hp hr

end Sys2Proof.Machine
end

section
/-! SUPPORT. Physical accesses, the canonical form, the address of each mode, and characters (O12, O13, O14, O40). -/

namespace Sys2Proof.Machine

/-! ### Physical accesses (R83, R84, R369) -/

section
variable {s : State} {pa : Word24} (acc : AccessType)

/-- A physical read at or above MEM_SIZE faults with nothing changed (R83). -/
theorem physRead_of_nonexistent (h : s.config.memSize ≤ pa.toNat) :
    physRead pa acc s = .error (.fault (.nonexistentMemory pa)) s := by
  rcases physRead_cases pa acc s with ⟨-, h'⟩ | ⟨he, -⟩ | ⟨_, he, -⟩
  · exact h'
  · exact absurd he (Nat.not_lt.2 h)
  · exact absurd he (Nat.not_lt.2 h)

/-- A physical read of an existing word that holds no value is refused (R369, R401; log entry 2). -/
theorem physRead_of_unwritten (he : pa.toNat < s.config.memSize) (hn : memLookup s.mem pa.toNat = none) :
    physRead pa acc s = .error (.refused (.unwritten pa)) s := by
  rcases physRead_cases pa acc s with ⟨h, -⟩ | ⟨-, -, h'⟩ | ⟨_, -, hw, -⟩
  · exact absurd he (Nat.not_lt.2 h)
  · exact h'
  · simp [hn] at hw

/-- A physical write at or above MEM_SIZE faults with nothing changed (R84). -/
theorem physWrite_of_nonexistent (w : Word36) (h : s.config.memSize ≤ pa.toNat) :
    physWrite pa w acc s = .error (.fault (.nonexistentMemory pa)) s := by
  rcases physWrite_cases pa w acc s with ⟨-, h'⟩ | ⟨he, -⟩
  · exact h'
  · exact absurd he (Nat.not_lt.2 h)

end

/-- Settles O12: a physical access beyond MEM_SIZE, of a written word, of an unwritten word, and a write. -/
theorem physicalAccess : Obligations.PhysicalAccess := fun _ _ acc =>
  ⟨fun h => ⟨physRead_of_nonexistent acc h, fun w => physWrite_of_nonexistent acc w h⟩,
    fun he => ⟨fun _ hw => physRead_of_written acc he hw, physRead_of_unwritten acc he, fun _ => physWrite_eq_ok.2 ⟨he, rfl⟩⟩⟩

/-! ### The canonical form (R80) -/

/-- In canonical form a word is listed exactly where a lookup finds it. -/
theorem mem_iff_memLookup {m : Memory} (h : Memory.wf m) {a : Nat} {w : Word36} :
    (a, w) ∈ m ↔ memLookup m a = some w := by
  refine ⟨fun hm => ?_, mem_of_memLookup⟩
  induction m with
  | nil => nomatch hm
  | cons e m ih =>
    obtain ⟨b, v⟩ := e
    obtain ⟨hlt, hwf⟩ := wf_cons.1 h
    rcases List.mem_cons.1 hm with he | hm
    · simp [memLookup, Prod.mk.inj he]
    · have hba : a ≠ b := (hlt _ hm).ne'
      simpa only [memLookup, if_neg hba] using ih hwf hm

/-- Memories in canonical form that read alike at every address are equal: they list the same words, and there is one rising
order of them. -/
theorem eq_of_memLookup_eq {m m' : Memory} (h : Memory.wf m) (h' : Memory.wf m') (hr : ∀ a, memLookup m a = memLookup m' a) :
    m = m' := by
  have hs := List.pairwise_map.1 h
  have hs' := List.pairwise_map.1 h'
  have hnodup : ∀ {n : Memory}, n.Pairwise (fun e f => e.1 < f.1) → n.Nodup :=
    fun hn => hn.imp fun hlt he => hlt.ne (congrArg Prod.fst he)
  have hmem : ∀ e, e ∈ m ↔ e ∈ m' := fun ⟨a, w⟩ => by rw [mem_iff_memLookup h, mem_iff_memLookup h', hr]
  have hperm : m.Perm m' := (List.perm_ext_iff_of_nodup (hnodup hs) (hnodup hs')).2 hmem
  exact hperm.eq_of_pairwise (fun _ _ _ _ hlt hgt => absurd hgt (Nat.lt_asymm hlt)) hs hs'

/-- Settles O13: reading after writing is `memLookup_memStore`, uniqueness is `eq_of_memLookup_eq`. -/
theorem memoryReadsWhatWasWritten : Obligations.MemoryReadsWhatWasWritten :=
  ⟨memLookup_memStore, fun _ _ => eq_of_memLookup_eq⟩

/-! ### The address of each mode (R88, R90, R91) -/

/-- The relocated address is the sum with the base times 512, modulo 2^18 (R90). -/
theorem barAddress_eq (b : Bar) (ca : Word18) :
    barAddress b ca = BitVec.ofNat 24 ((ca.toNat + b.base.toNat * 512) % 2 ^ 18) := by
  have hbase : (b.base ++ 0#9).toNat = b.base.toNat * 512 := by
    rw [BitVec.toNat_append, BitVec.toNat_zero, Nat.or_zero, Nat.shiftLeft_eq]
  refine BitVec.eq_of_toNat_eq ?_
  simp only [barAddress, BitVec.toNat_setWidth, BitVec.toNat_add, BitVec.toNat_ofNat, hbase]

theorem barBad_iff {b : Bar} {ca : Word18} : barBad b ca = true ↔ b.bound ≤ ca.extractLsb' 9 9 := by
  simp [barBad]

/-- Settles O14: each mode by the lemma that says how it forms an address. -/
theorem addressFormedByMode : Obligations.AddressFormedByMode := by
  intro s ca acc
  refine ⟨fun hm => formAddress_absolute hm ca acc, fun hm hb => ?_, fun hm hb => ?_, fun hm pa d t h => ?_, fun hm e t h => ?_⟩
  · rw [formAddress_bar hm, if_pos (barBad_iff.2 hb)]
  · rw [formAddress_bar hm, if_neg (mt barBad_iff.1 (BitVec.not_le.2 hb)), barAddress_eq]
  · rw [formAddress_appending hm, h]
  · rw [formAddress_appending hm, h]

/-! ### Characters (R85, R226) -/

/-- How many bits a character of a size has (R225). -/
def charBits : CharSize → Nat
  | .six => 6
  | .nine => 9

theorem charMask_eq (sz : CharSize) : charMask sz = (BitVec.allOnes (charBits sz)).setWidth 36 := by
  cases sz <;> rfl

/-- The mask of a character is its low bits. -/
theorem getLsbD_charMask (sz : CharSize) (j : Nat) : (charMask sz).getLsbD j = decide (j < charBits sz) := by
  have hle : charBits sz ≤ 36 := by cases sz <;> decide
  rw [charMask_eq, BitVec.getLsbD_setWidth, BitVec.getLsbD_allOnes, Bool.and_eq_right_iff_imp]
  simp only [decide_eq_true_eq]
  omega

/-- A character is the field of its bits, right-justified. -/
theorem charAt_eq (w : Word36) (sz : CharSize) (k : Nat) :
    charAt w sz k = (w.extractLsb' (charShift sz k) (charBits sz)).setWidth 36 := by
  refine BitVec.eq_of_getLsbD_eq fun j hj => ?_
  simp only [charAt, BitVec.getLsbD_and, BitVec.getLsbD_ushiftRight, getLsbD_charMask, BitVec.getLsbD_setWidth,
    BitVec.getLsbD_extractLsb', hj, decide_true, Bool.true_and, Bool.and_comm]

/-- A character written replaces the bits of its field, and every other bit is kept. -/
theorem getLsbD_charInsert (w v : Word36) (sz : CharSize) (k : Nat) {j : Nat} (hj : j < 36) :
    (charInsert w sz k v).getLsbD j =
      if charShift sz k ≤ j ∧ j < charShift sz k + charBits sz then v.getLsbD (j - charShift sz k) else w.getLsbD j := by
  simp only [charInsert, BitVec.getLsbD_or, BitVec.getLsbD_and, BitVec.getLsbD_not, BitVec.getLsbD_shiftLeft, getLsbD_charMask, hj,
    decide_true, Bool.true_and]
  by_cases hlow : j < charShift sz k
  · simp [hlow, Nat.not_le.2 hlow]
  · have hiff : j - charShift sz k < charBits sz ↔ j < charShift sz k + charBits sz := by omega
    by_cases hhigh : j < charShift sz k + charBits sz <;> simp [hlow, hiff, hhigh, Nat.not_lt.1 hlow]

/-- Settles O40: both sizes by `charAt_eq` and `getLsbD_charInsert`, the field's end counted from the top of the word. -/
theorem characterReadAndInsert : Obligations.CharacterReadAndInsert := by
  intro w v k
  refine ⟨fun hk => ⟨charAt_eq w .six k, fun j hj => ?_⟩, fun hk => ⟨charAt_eq w .nine k, fun j hj => ?_⟩⟩
  · rw [getLsbD_charInsert w v .six k hj, charShift, charBits, show 30 - 6 * k + 6 = 36 - 6 * k by omega]
  · rw [getLsbD_charInsert w v .nine k hj, charShift, charBits, show 27 - 9 * k + 9 = 36 - 9 * k by omega]

end Sys2Proof.Machine
end

section
/-! SUPPORT. The words of an access request, and where it stops (O11). -/

namespace Sys2Proof.Machine

/-! ### Pairs (R93) -/

section
variable {s u v : State} {ca : Word18} {acc : Access} {even odd : Word36} {sdw sdw' : Option Sdw} {e : Stop}

/-- A pair is answered with its even word first. -/
theorem readPair_of_words (he : ReadsAt s (ca &&& 0o777776#18) acc even sdw u) (ho : ReadsAt u (ca ||| 1#18) acc odd sdw' v) :
    readPair ca acc s = .ok (even, odd) v :=
  (bind_of_ok (memRead_eq_ok.2 he)).trans (bind_of_ok (memRead_eq_ok.2 ho))

/-- A pair stops where the read of its even word does. -/
theorem readPair_of_even_error (h : memRead (ca &&& 0o777776#18) acc s = .error e u) : readPair ca acc s = .error e u :=
  bind_of_error h

/-- A pair stops where the read of its odd word does, after the even one. -/
theorem readPair_of_odd_error (he : ReadsAt s (ca &&& 0o777776#18) acc even sdw u)
    (h : memRead (ca ||| 1#18) acc u = .error e v) : readPair ca acc s = .error e v :=
  (bind_of_ok (memRead_eq_ok.2 he)).trans (bind_of_error h)

end

/-! ### Runs (R94) -/

/-- The first word of a run that stops stops the run. -/
theorem readN_of_error {s t : State} {ca : Word18} {acc : Access} {e : Stop} (h : memRead ca acc s = .error e t) (n : Nat) :
    readN ca acc (n + 1) s = .error e t := bind_of_error h

/-- After the words of `ws` have been read, the rest of a run is read from the address and the state that they leave (R94). -/
theorem readN_of_run {ws : List Word36} {s u : State} {ca : Word18} {acc : Access} (h : ReadsRun s ca acc ws u) (n : Nat) :
    readN ca acc (ws.length + n) s = ((ws ++ ·) <$> readN (ca + BitVec.ofNat 18 ws.length) acc n) u := by
  induction ws generalizing s ca with
  | nil =>
    cases h
    rw [act_map, List.length_nil, Nat.zero_add, show ca + BitVec.ofNat 18 0 = ca from BitVec.add_zero ca]
    cases readN ca acc n u <;> rfl
  | cons w ws ih =>
    obtain ⟨sdw, v, hr, hrun⟩ := h
    have haddr : ca + 1#18 + BitVec.ofNat 18 ws.length = ca + BitVec.ofNat 18 (ws.length + 1) := by
      rw [BitVec.add_assoc, BitVec.ofNat_add_ofNat, Nat.add_comm]
    have hrest := ih hrun
    rw [act_map, show ca + 1 + BitVec.ofNat 18 ws.length = _ from haddr] at hrest
    rw [List.length_cons, Nat.add_right_comm, readN, bind_of_ok (memRead_eq_ok.2 hr), act_bind, show ca + 1#18 = ca + 1 from rfl,
      hrest, act_map]
    cases readN (ca + BitVec.ofNat 18 (ws.length + 1)) acc n u <;> rfl

/-- A whole run is answered with its words. -/
theorem readN_of_whole_run {ws : List Word36} {s u : State} {ca : Word18} {acc : Access} (h : ReadsRun s ca acc ws u) :
    readN ca acc ws.length s = .ok ws u :=
  (readN_of_run h 0).trans (congrArg (EStateM.Result.ok · u) (List.append_nil ws))

/-- A run stops at the first word whose read stops, and in the state of that read. -/
theorem readN_of_later_error {ws : List Word36} {s u v : State} {ca : Word18} {acc : Access} {e : Stop} {n : Nat}
    (h : ReadsRun s ca acc ws u) (hn : ws.length < n) (he : memRead (ca + BitVec.ofNat 18 ws.length) acc u = .error e v) :
    readN ca acc n s = .error e v := by
  obtain ⟨k, rfl⟩ := Nat.exists_eq_add_of_lt hn
  rw [Nat.add_assoc, readN_of_run h, act_map, readN_of_error he]

/-! ### The step that serves an access -/

section
variable {s : State} {rs : List Request} {r : AccessRequest} (hp : s.phase = .idle) (hr : s.requests = .access r :: rs)
include hp hr

/-- The step that serves an access that answers. -/
theorem step_access_of_ok {ws : List Word36} {u : State} (h : performAccess r { s with requests := rs } = .ok ws u) :
    step s = .next (endWith (.words ws) u) :=
  (step_request hp hr).trans (serve_access h)

/-- The step that serves an access that stops. -/
theorem step_access_of_error {e : Stop} {u : State} (h : performAccess r { s with requests := rs } = .error e u) :
    step s = stopOutcome e u :=
  (step_request hp hr).trans (serve_access_of_error h)

end

/-- Settles O11: what each access answers and where it stops, by the step that serves it (`step_access_of_ok`,
`step_access_of_error`). -/
theorem accessRequestsAnswered : Obligations.AccessRequestsAnswered := by
  intro s rs hp u₀ f₀
  refine ⟨fun r hr => ?_, fun op hr e u h => ?_⟩
  · have ok {ws : List Word36} {u : State} := step_access_of_ok (ws := ws) (u := u) hp hr
    have stops {e : Stop} {u : State} := step_access_of_error (e := e) (u := u) hp hr
    cases r with
    | fetch =>
      exact ⟨fun w sdw u h => ok (bind_of_ok (fetchInstruction_eq_ok.2 ⟨sdw, h⟩)),
        fun e u h => stops (bind_of_error (fetchInstruction_of_error h))⟩
    | memRead ca acc =>
      exact ⟨fun w sdw u h => ok (bind_of_ok (memRead_eq_ok.2 h)), fun e u h => stops (bind_of_error h)⟩
    | memWrite ca w acc =>
      exact ⟨fun u h => ok (bind_of_ok (memWrite_eq_ok (a := ()).2 h)), fun e u h => stops (bind_of_error h)⟩
    | readPair ca acc =>
      exact ⟨fun e u h => stops (bind_of_error (readPair_of_even_error h)), fun even sdw u he =>
        ⟨fun odd sdw' v ho => ok (bind_of_ok (readPair_of_words he ho)),
          fun e v h => stops (bind_of_error (readPair_of_odd_error he h))⟩⟩
    | readN ca n acc =>
      exact fun ws u h => ⟨fun hn => ok (hn ▸ readN_of_whole_run h), fun e v hn he => stops (readN_of_later_error h hn he)⟩
  · have hb : beginExecution op u₀ = .error e u := bind_of_error (fetchInstruction_of_error h)
    exact (step_request hp hr).trans (serve_of_not_begun (r := .execute op) rfl hb)

end Sys2Proof.Machine
end

section
/-! SUPPORT. The words an instruction may change: those it records a write of (O50), and of them, where it stores nothing or stores
through an R tag, the page table words written back and the word stored (O51, O52). -/

namespace Sys2Proof.Machine

/-! ### Memory follows the record (R104) -/

/-- Where memory and the record are not touched. -/
theorem memoryFollows_of_eq {s t : State} (he : t.events = s.events) (hm : t.mem = s.mem) : MemoryFollows s t :=
  ⟨[], by rw [he, List.append_nil], hm⟩

theorem memoryFollows_access : AccessChain MemoryFollows :=
  accessChain_of_any memoryFollows_chains (fun _ _ _ _ => ⟨[_], rfl, rfl⟩) (fun _ _ _ _ _ => ⟨[_], rfl, rfl⟩)
    (fun _ _ => memoryFollows_of_eq rfl rfl) fun _ _ => memoryFollows_of_eq rfl rfl

theorem memoryFollows_modifier : ModifierChain MemoryFollows where
  toFinalChain := finalChain_of_access memoryFollows_access (fun _ _ => memoryFollows_of_eq rfl rfl) fun _ _ =>
    memoryFollows_of_eq rfl rfl
  goOn _ _ := memoryFollows_of_eq rfl rfl
  pair _ _ _ _ := memoryFollows_of_eq rfl rfl
  count _ := memoryFollows_of_eq rfl rfl

/-- Settles O50: every access records what it writes, and nothing else writes memory or the record. -/
theorem memoryFollowsEvents : Obligations.MemoryFollowsEvents := fun _ _ _ hx =>
  exec_keeps memoryFollows_modifier (fun _ _ _ => memoryFollows_of_eq rfl rfl) (fun _ _ => memoryFollows_of_eq rfl rfl)
    (fun _ _ _ => memoryFollows_of_eq rfl rfl) (fun _ _ _ => memoryFollows_of_eq rfl rfl) hx

/-! ### What leaves a word as it was (R300) -/

/-- The events recorded on the way from `s` to `t` hold a write-back at `a`, or the word at `a` is as it was. -/
def Spares (a : Nat) (s t : State) : Prop :=
  ∃ es, t.events = s.events ++ es ∧
    ((∀ pa w, .write pa w .descriptorWrite ∈ es → pa.toNat ≠ a) → memLookup t.mem a = memLookup s.mem a)

section
variable {a : Nat}

theorem spares_chains : Chains (Spares a) where
  refl _ := ⟨[], by simp⟩
  trans := by
    rintro s t u ⟨es, he, hm⟩ ⟨fs, hf, hn⟩
    refine ⟨es ++ fs, by rw [hf, he, List.append_assoc], fun hno => ?_⟩
    exact (hn fun pa w h => hno pa w (List.mem_append_right _ h)).trans
      (hm fun pa w h => hno pa w (List.mem_append_left _ h))

/-- Where memory and the record are not touched. -/
theorem spares_of_eq {s t : State} (he : t.events = s.events) (hm : t.mem = s.mem) : Spares a s t :=
  ⟨[], by rw [he, List.append_nil], fun _ => by rw [hm]⟩

theorem spares_withEvent (e : Event) (s : State) : Spares a s (withEvent e s) := ⟨[e], rfl, fun _ => rfl⟩

/-- A write-back spares every word: the one it changes is among its records. -/
theorem spares_writeBack (pa : Word24) (w : Word36) (s : State) :
    Spares a s (withEvent (.write pa w .descriptorWrite) (withWord pa w s)) :=
  ⟨[.write pa w .descriptorWrite], rfl, fun hno => memLookup_memStore_other (hno pa w (.head _)).symm⟩

/-- A store spares every other word. -/
theorem spares_store {pa : Word24} (h : pa.toNat ≠ a) (w : Word36) (acc : AccessType) (s : State) :
    Spares a s (withEvent (.write pa w acc) (withWord pa w s)) :=
  ⟨[.write pa w acc], rfl, fun _ => memLookup_memStore_other h.symm⟩

/-- Reads and translations spare every word. -/
theorem spares_read : ReadChain (Spares a) where
  toChains := spares_chains
  event _ _ _ := spares_withEvent _
  writeBack pa w s _ := spares_writeBack pa w s
  sdwPromote _ _ := spares_of_eq rfl rfl
  sdwFill _ _ _ := spares_of_eq rfl rfl
  ptwPromote _ _ := spares_of_eq rfl rfl
  ptwFill _ _ _ _ _ := spares_of_eq rfl rfl
  ptwModify _ _ := spares_of_eq rfl rfl

/-- A word that is spared and not written back is as it was. -/
theorem Spares.lookup {s t : State} (h : Spares a s t) (hw : ¬ WroteBack s t a) : memLookup t.mem a = memLookup s.mem a := by
  obtain ⟨es, he, hm⟩ := h
  have hes : newEvents s t = es := by rw [newEvents, he, List.drop_left]
  exact hm fun pa w hpa heq => hw ⟨pa, w, hes ▸ hpa, heq⟩

/-- An instruction leaves a word as it was where its operation spares it and it was not written back: the end of a resolution and
a fault taken touch neither memory nor the record. -/
theorem exec_lookup {instr : Instr} {s t : State} (h : Spares a s (leaves (meaning instr) s)) (hx : exec instr s = .next t)
    (hw : ¬ WroteBack s t a) : memLookup t.mem a = memLookup s.mem a := by
  refine Spares.lookup ?_ hw
  rw [exec_eq_complete] at hx
  rcases complete_eq_next.1 hx with ht | ⟨f, u, hu, rfl⟩
  · rwa [leaves_of_ok ht] at h
  · rwa [leaves_of_error hu] at h

end

/-- Actions that run alike leave the same state. -/
theorem leaves_congr {α : Type} {m n : Act α} {s t : State} (h : m s = n t) : leaves m s = leaves n t := by
  rw [leaves, leaves, h]

/-- A sequence relates a state to what it leaves where its first action does, and its second in the state the first answers in. -/
theorem leaves_bind {R : State → State → Prop} (hR : Chains R) {α β : Type} {m : Act α} {f : α → Act β} {s : State}
    (hm : R s (leaves m s)) (hf : ∀ b u, m s = .ok b u → R u (leaves (f b) u)) : R s (leaves (m >>= f) s) := by
  cases h : m s with
  | error e u =>
    rw [leaves_of_error h] at hm
    rwa [leaves_of_error (bind_of_error h)]
  | ok b u =>
    rw [leaves_of_ok h] at hm
    rw [leaves_bind_of_ok h]
    exact hR.trans hm (hf b u h)

/-! ### The accesses and operations that spare a word -/

/-- An action that spares the word at `a`. A store does not, so the chains of the modifier's changes, which ask for every store,
do not serve here. -/
abbrev SparesWord (a : Nat) {α : Type} (m : Act α) : Prop := Keeps (Spares a) m

namespace SparesWord

variable {a : Nat} {α : Type}

/-- An update that touches neither memory nor the record. -/
theorem update {f : State → State} (he : ∀ s, (f s).events = s.events) (hm : ∀ s, (f s).mem = s.mem) : SparesWord a (update f) :=
  keeps_update fun s => spares_of_eq (he s) (hm s)

theorem memRead (ca : Word18) (acc : Access) : SparesWord a (memRead ca acc) := keeps_memRead spares_read ca acc

/-- A write spares every word but the one at the address formed of its computed address (R89). -/
theorem memWrite {s : State} {ca : Word18} {acc : Access} (h : ∀ r u, formAddress ca acc s = .ok r u → r.1.toNat ≠ a)
    (w : Word36) : Spares a s (leaves (memWrite ca w acc) s) := by
  refine leaves_bind spares_chains (keeps_formAddress spares_read ca acc s) fun r u hf => ?_
  unfold leaves
  rcases physWrite_cases r.1 w (.logical acc) u with ⟨-, h'⟩ | ⟨-, h'⟩ <;> rw [h']
  · exact spares_chains.refl u
  · exact spares_store (h r u hf) w _ u

theorem finish (r : Result) : SparesWord a (finish r) := update (fun _ => rfl) fun _ => rfl

theorem countIndirect : SparesWord a countIndirect :=
  keeps_bind spares_chains (update (fun _ => rfl) fun _ => rfl) fun _ =>
    keeps_bind spares_chains (keeps_read spares_chains _) fun _ => keeps_raiseIf spares_chains _ _

theorem indirectFetch : SparesWord a indirectFetch :=
  keeps_bind spares_chains countIndirect fun _ => keeps_bind spares_chains (keeps_read spares_chains _) fun _ =>
    keeps_bind spares_chains (memRead _ _) fun _ => keeps_ite _ (update (fun _ => rfl) fun _ => rfl)
      (keeps_bind spares_chains (update (fun _ => rfl) fun _ => rfl) fun _ => update (fun _ => rfl) fun _ => rfl)

theorem tallyFetch : SparesWord a tallyFetch :=
  keeps_bind spares_chains countIndirect fun _ => keeps_bind spares_chains (keeps_read spares_chains _) fun _ =>
    keeps_bind spares_chains (memRead _ _) fun _ => keeps_pure spares_chains _

theorem registerIndirectTag (td : Designator) : SparesWord a (registerIndirectTag td) :=
  keeps_bind spares_chains (keeps_raiseIf spares_chains _ _) fun _ => keeps_bind spares_chains (keeps_read spares_chains _) fun _ =>
    keeps_bind spares_chains (keeps_read spares_chains _) fun _ =>
    keeps_bind spares_chains (update (fun _ => rfl) fun _ => rfl) fun _ => indirectFetch

theorem indirectRegisterTag (td : Designator) : SparesWord a (indirectRegisterTag td) :=
  keeps_bind spares_chains (update (fun _ => rfl) fun _ => rfl) fun _ => indirectFetch

theorem pointerPair (newTpr : Word36 → State → Tpr) : SparesWord a (pointerPair newTpr) :=
  keeps_bind spares_chains (keeps_pairOddWord spares_chains memRead) fun _ =>
    keeps_bind spares_chains (update (fun _ => rfl) fun _ => rfl) fun _ => update (fun _ => rfl) fun _ => rfl

theorem directOperand (td : Designator) : SparesWord a (directOperand td) := by
  refine keeps_bind spares_chains (keeps_read spares_chains _) fun ca => keeps_bind spares_chains (keeps_read spares_chains _) fun op => ?_
  split
  · exact keeps_raise spares_chains _
  · exact finish _

end SparesWord

/-! ### The final accesses -/

/-- The final word access from `s`, where it is a store, forms no address of the word at `a` (R167). -/
def StoresElsewhere (a : Nat) (s : State) : Prop :=
  ∀ v, s.op = .write v → ∀ r u, formAddress s.tpr.ca .operandWrite s = .ok r u → r.1.toNat ≠ a

/-- An operation that is no write stores nowhere. -/
theorem storesElsewhere_of_no_write {a : Nat} {s : State} (h : ∀ v, s.op ≠ .write v) : StoresElsewhere a s :=
  fun v hv => absurd hv (h v)

section
variable {a : Nat} {s : State}

/-- The final word access spares every word but the one it stores (R167). -/
theorem spares_finalWord (h : StoresElsewhere a s) : Spares a s (leaves finalWord s) := by
  unfold finalWord
  rw [leaves_bind_of_ok (read_apply _ s), leaves_bind_of_ok (read_apply _ s)]
  cases hop : s.op with
  | read => exact keeps_bind spares_chains (SparesWord.memRead _ _) (fun _ => SparesWord.finish _) s
  | write v => exact leaves_bind spares_chains (SparesWord.memWrite (h v hop) v) fun _ u _ => SparesWord.finish _ u
  | prepareOnly => exact SparesWord.finish _ s

/-- The final character access of an operation that is no write spares every word (R226). -/
theorem spares_finalChar (h : ∀ v, s.op ≠ .write v) (sz : CharSize) (cf : BitVec 3) : Spares a s (leaves (finalChar sz cf) s) := by
  unfold finalChar
  rw [leaves_bind_of_ok (read_apply _ s), leaves_bind_of_ok (read_apply _ s)]
  cases hop : s.op with
  | read => exact keeps_bind spares_chains (SparesWord.memRead _ _) (fun _ => SparesWord.finish _) s
  | write v => exact absurd hop (h v)
  | prepareOnly => exact SparesWord.finish _ s

/-- An R tag spares every word but the one it stores, at the computed address with the applied register added (R165, R182). -/
theorem spares_registerTag {td : Designator}
    (h : StoresElsewhere a (withCa (s.tpr.ca + (regValue (appliedDesignator td s) s).1) s)) :
    Spares a s (leaves (registerTag td) s) := by
  cases hd : (regValue (appliedDesignator td s) s).2
  · rw [leaves_congr ((registerTag_apply td s).trans (registerMod_of_value hd))]
    exact spares_finalWord h
  · rw [leaves_congr ((registerTag_apply td s).trans (registerMod_of_direct hd))]
    exact SparesWord.directOperand _ s

/-- An IT tag spares what its modification spares outside the chain (R185, R220). -/
theorem spares_tallyTag {body : Act Unit} (h : Spares a (leaveChain s) (leaves body (leaveChain s))) :
    Spares a s (leaves (tallyTag body) s) := by
  by_cases hp : TallyPerformed s
  · rw [leaves_congr (tallyTag_of_performed hp)]
    exact h
  · rw [leaves_of_error (tallyTag_of_refused hp)]
    exact spares_chains.refl s

/-- A fetch of a tally word keeps the operation (R221). -/
theorem tallyFetch_op {tw : Word18 × Word36} {u : State} (h : tallyFetch s = .ok tw u) : u.op = s.op := by
  obtain ⟨-, -, -, -, -, -, -, -, -, hop, -⟩ := keeps_of_ok (keeps_tallyFetch sameInputs_modifier) h
  exact hop

/-- What follows the fetch of a tally word without a rewrite, of an operation that is no write, spares every word (R227, R235). -/
theorem spares_tallyFetch_bind (h : ∀ v, s.op ≠ .write v) {k : Word18 × Word36 → Act Unit}
    (hk : ∀ tw u, (∀ v, u.op ≠ .write v) → Spares a u (leaves (k tw) u)) : Spares a s (leaves (tallyFetch >>= k) s) :=
  leaves_bind spares_chains (SparesWord.tallyFetch s) fun tw u hu => hk tw u fun v => tallyFetch_op hu ▸ h v

/-- CI of an operation that is no write (R227). -/
theorem spares_characterIndirect (h : ∀ v, s.op ≠ .write v) : Spares a s (leaves characterIndirect s) :=
  spares_tallyFetch_bind h fun tw u hu =>
    leaves_bind spares_chains (keeps_raiseIf spares_chains _ _ u) fun _ u' hc => by
      have hu' : u'.op = u.op := keeps_of_ok (keeps_raiseIf (chains_eq (·.op)) _ _) hc
      exact spares_finalChar (s := withCa (wordY tw.2) u') (fun v => hu' ▸ hu v) _ _

/-- I of an operation that is no write (R235). -/
theorem spares_plainIndirect (h : ∀ v, s.op ≠ .write v) : Spares a s (leaves plainIndirect s) :=
  spares_tallyFetch_bind h fun tw u hu =>
    spares_finalWord (s := withCa (wordY tw.2) u) (storesElsewhere_of_no_write hu)

end

/-! ### The instructions that store nothing -/

/-- An instruction that is not tally-bearing spares every word where an R tag's, CI's or I's operation is no write: the other
families make no final access. -/
theorem spares_meaning {a : Nat} {instr : Instr} {s : State} (hi : instr ∉ tallyBearing)
    (hop : instr ∈ registerTags ++ [.ci, .i] → ∀ v, s.op ≠ .write v) : Spares a s (leaves (meaning instr) s) := by
  cases instr
  case n | au | qu | du | ic | al | ql | dl | x0 | x1 | x2 | x3 | x4 | x5 | x6 | x7 =>
    exact spares_registerTag (storesElsewhere_of_no_write (hop (by simp [registerTags])))
  case nStar | auStar | quStar | duStar | icStar | alStar | qlStar | dlStar | x0Star | x1Star | x2Star | x3Star
      | x4Star | x5Star | x6Star | x7Star => exact SparesWord.registerIndirectTag _ s
  case starN | starAu | starQu | starDu | starIc | starAl | starQl | starDl | starX0 | starX1 | starX2 | starX3
      | starX4 | starX5 | starX6 | starX7 => exact SparesWord.indirectRegisterTag _ s
  case f1 | itp | itReserved42 | its | f2 | f3 => exact spares_tallyTag (keeps_raise spares_chains _ _)
  case ci => exact spares_tallyTag (spares_characterIndirect (hop (by simp)))
  case i => exact spares_tallyTag (spares_plainIndirect (hop (by simp)))
  case sc | scr | ad | sd | di | id | dic | idc => exact absurd (by simp [tallyBearing]) hi
  case itsPair | itpPair => exact SparesWord.pointerPair _ s

/-- Settles O51: an instruction that stores nothing spares every word (`spares_meaning`). -/
theorem nonStoringFrame : Obligations.NonStoringFrame :=
  fun _ _ _ hx hi hop _ hw => exec_lookup (spares_meaning hi hop) hx hw

/-- Settles O52: an R tag spares every word but the one it stores (`spares_registerTag`). -/
theorem registerStoreFrame : Obligations.RegisterStoreFrame := by
  rintro instr hi s t v ca - rfl hx a hw hne
  refine exec_lookup ?_ hx hw
  rw [meaning_of_registerTags _ hi]
  exact spares_registerTag fun _ _ => hne

end Sys2Proof.Machine
end

section
/-! SUPPORT. What decoding reads of a word and what encoding writes to it: the tag and the fields of a pair, and no
other bit (O1, O2, O4). -/

namespace Sys2Proof.Machine

/-! ### Tags (R122, R126) -/

section
variable (td : Designator)

theorem tagOf_decodeRegisterTag : tagOf (decodeRegisterTag td) = tagOfParts 0 td := by
  revert td; decide

theorem tagOf_decodeRegisterIndirectTag : tagOf (decodeRegisterIndirectTag td) = tagOfParts 1 td := by
  revert td; decide

theorem tagOf_decodeIndirectTallyTag : tagOf (decodeIndirectTallyTag td) = tagOfParts 2 td := by
  revert td; decide

theorem tagOf_decodeIndirectRegisterTag : tagOf (decodeIndirectRegisterTag td) = tagOfParts 3 td := by
  revert td; decide

end

/-- Every tag is the tag of the instruction it decodes to: one case per `Tm`. -/
theorem tagOf_decodeTag (t : Tag) : tagOf (decodeTag t) = t := by
  conv_rhs => rw [← tagOfParts_parts t]
  rw [decodeTag]
  generalize tagTd t = td
  match tagTm t with
  | 0 => exact tagOf_decodeRegisterTag td
  | 1 => exact tagOf_decodeRegisterIndirectTag td
  | 2 => exact tagOf_decodeIndirectTallyTag td
  | 3 => exact tagOf_decodeIndirectRegisterTag td

/-- An instruction that is no pointer pair is what its tag decodes to. -/
theorem decodeTag_tagOf {instr : Instr} (h : isPair instr = false) : decodeTag (tagOf instr) = instr := by
  cases instr
  case itsPair | itpPair => cases h
  all_goals rfl

/-- A tag decodes to no pointer pair (R133). -/
theorem isPair_decodeTag (t : Tag) : isPair (decodeTag t) = false := by
  revert t; decide

theorem isPair_decodePointerPair (w : Word36) : isPair (decodePointerPair w) = true := by
  rw [decodePointerPair]
  split <;> rfl

theorem decodeTag_eq_iff {instr : Instr} (h : isPair instr = false) {t : Tag} : decodeTag t = instr ↔ t = tagOf instr :=
  ⟨fun ht => ht ▸ (tagOf_decodeTag t).symm, fun ht => ht ▸ decodeTag_tagOf h⟩

/-! ### Where an instruction can be met (R126, R133) -/

theorem wellFormed_tag (instr : Instr) : instr.wellFormed .tag = !isPair instr := by
  cases instr <;> rfl

/-- In an indirect word the tags 0o41 and 0o43 are a pair's, and every other tag stands for itself. -/
theorem wellFormed_indirectWord (instr : Instr) :
    instr.wellFormed .indirectWord = (isPair instr == (tagOf instr == 0o41#6 || tagOf instr == 0o43#6)) := by
  cases instr <;> rfl

/-- In whichever position a word stands, it decodes to an instruction that can be met there. -/
theorem wellFormed_decode (pos : Position) (w : Word36) : (decode pos w).wellFormed pos = true := by
  cases pos with
  | tag => rw [wellFormed_tag, decode, decodeInstrWord, isPair_decodeTag, Bool.not_false]
  | indirectWord =>
    rw [decode, decodeIndirectWord]
    split
    · rw [decodePointerPair]
      split <;> rfl
    · rename_i hw
      rw [wellFormed_indirectWord, isPair_decodeTag, tagOf_decodeTag, beq_iff_eq]
      exact (Bool.eq_false_of_not_eq_true hw).symm

/-! ### What a word decodes to (R128, R131 to R133) -/

/-- Where an instruction that is no pair can be met, a word decodes to it exactly when its tag is the instruction's. -/
theorem decode_eq_iff_wordTag {pos : Position} {instr : Instr} (hwf : instr.wellFormed pos = true) (hp : isPair instr = false)
    {w : Word36} : decode pos w = instr ↔ wordTag w = tagOf instr := by
  cases pos with
  | tag => exact decodeTag_eq_iff hp
  | indirectWord =>
    rw [wellFormed_indirectWord, hp, beq_iff_eq] at hwf
    rw [decode, decodeIndirectWord]
    split
    · rename_i hw
      have hne : wordTag w ≠ tagOf instr := fun h => by
        rw [isPointerPair, h, ← hwf] at hw
        cases hw
      refine iff_of_false (fun h => ?_) hne
      rw [← h, isPair_decodePointerPair] at hp
      cases hp
    · exact decodeTag_eq_iff hp

theorem decodeTag_ne_pair {t : Tag} {instr : Instr} (hp : isPair instr = true) : decodeTag t ≠ instr := fun h => by
  rw [← h, isPair_decodeTag] at hp
  cases hp

/-- An ITS pair's even word is the tag 0o43 with SEGNO and RN (R131). -/
theorem decodeIndirectWord_eq_itsPair {w : Word36} {segno : Segno} {rn : Ring} :
    decodeIndirectWord w = .itsPair segno rn ↔
      w.extractLsb' 18 15 = segno ∧ w.extractLsb' 15 3 = rn ∧ wordTag w = 0o43#6 := by
  rw [decodeIndirectWord]
  split
  · rw [decodePointerPair]
    split
    · rename_i ht
      simp [beq_iff_eq.1 ht]
    · rename_i ht
      simp [mt beq_iff_eq.2 ht]
  · rename_i hw
    rw [isPointerPair_iff, not_or] at hw
    simp [decodeTag_ne_pair (instr := .itsPair segno rn) rfl, hw.2]

/-- An ITP pair's even word is the tag 0o41 with PRNUM (R132). -/
theorem decodeIndirectWord_eq_itpPair {w : Word36} {prnum : BitVec 3} :
    decodeIndirectWord w = .itpPair prnum ↔ w.extractLsb' 33 3 = prnum ∧ wordTag w = 0o41#6 := by
  rw [decodeIndirectWord]
  split
  · rename_i hw
    rw [decodePointerPair]
    split
    · rename_i ht
      simp [beq_iff_eq.1 ht]
    · rename_i ht
      simp [((isPointerPair_iff w).1 hw).resolve_right (mt beq_iff_eq.2 ht)]
  · rename_i hw
    rw [isPointerPair_iff, not_or] at hw
    simp [decodeTag_ne_pair (instr := .itpPair prnum) rfl, hw.1]

/-! ### What encoding writes, under the mask of the bits that are not ignored (R128, R131, R132, R139) -/

section
variable {m n : Nat} {x x' mask : BitVec m} {y y' : BitVec n}

/-- A low field whose bits the mask keeps is compared. -/
theorem masked_kept : (x ++ y) &&& (mask ++ BitVec.allOnes n) = x' ++ y' ↔ x &&& mask = x' ∧ y = y' := by
  rw [BitVec.and_append, BitVec.and_allOnes, append_inj]

/-- A low field whose bits the mask ignores is not compared. -/
theorem masked_ignored : (x ++ y) &&& (mask ++ 0#n) = x' ++ 0#n ↔ x &&& mask = x' := by
  rw [BitVec.and_append, BitVec.and_zero, append_inj, and_iff_left rfl]

end

theorem encode_of_not_pair {instr : Instr} (h : isPair instr = false) : encode instr = 0#30 ++ tagOf instr := by
  cases instr
  case itsPair | itpPair => cases h
  all_goals rfl

theorem encodingMask_of_not_pair {instr : Instr} (h : isPair instr = false) :
    encodingMask instr = 0#30 ++ BitVec.allOnes 6 := by
  cases instr
  case itsPair | itpPair => cases h
  all_goals rfl

theorem encodingMask_itsPair (segno : Segno) (rn : Ring) : encodingMask (.itsPair segno rn) =
    0#3 ++ BitVec.allOnes 15 ++ BitVec.allOnes 3 ++ 0#9 ++ BitVec.allOnes 6 := rfl

theorem encodingMask_itpPair (prnum : BitVec 3) : encodingMask (.itpPair prnum) =
    BitVec.allOnes 3 ++ 0#27 ++ BitVec.allOnes 6 := rfl

/-- A word is its tag under the other bits. -/
theorem word_eq_tag (w : Word36) : w = w.extractLsb' 6 30 ++ wordTag w :=
  ((extract_append_extract w 0 6 30).trans (extract_all w)).symm

/-- A word cut at the fields of an ITS pair (R131). -/
theorem word_eq_itsFields (w : Word36) :
    w = w.extractLsb' 33 3 ++ w.extractLsb' 18 15 ++ w.extractLsb' 15 3 ++ w.extractLsb' 6 9 ++ wordTag w := by
  rw [extract_append_extract w 18 15 3, extract_append_extract w 15 3 18, extract_append_extract w 6 9 21]
  exact word_eq_tag w

/-- A word cut at the fields of an ITP pair (R132). -/
theorem word_eq_itpFields (w : Word36) : w = w.extractLsb' 33 3 ++ w.extractLsb' 6 27 ++ wordTag w := by
  rw [extract_append_extract w 6 27 3]
  exact word_eq_tag w

/-- Of a word in tag position, or of a plain indirect word, only the tag is compared. -/
theorem masked_of_not_pair {instr : Instr} (h : isPair instr = false) {w : Word36} :
    w &&& encodingMask instr = encode instr ↔ wordTag w = tagOf instr := by
  rw [encodingMask_of_not_pair h, encode_of_not_pair h]
  conv_lhs => rw [word_eq_tag w, masked_kept, BitVec.and_zero]
  exact and_iff_right rfl

theorem masked_itsPair {segno : Segno} {rn : Ring} {w : Word36} :
    w &&& encodingMask (.itsPair segno rn) = encode (.itsPair segno rn) ↔
      w.extractLsb' 18 15 = segno ∧ w.extractLsb' 15 3 = rn ∧ wordTag w = 0o43#6 := by
  rw [encodingMask_itsPair, encode]
  conv_lhs =>
    rw [word_eq_itsFields w, masked_kept, masked_ignored, masked_kept, masked_kept, BitVec.and_zero, eq_self, true_and, and_assoc]

theorem masked_itpPair {prnum : BitVec 3} {w : Word36} :
    w &&& encodingMask (.itpPair prnum) = encode (.itpPair prnum) ↔ w.extractLsb' 33 3 = prnum ∧ wordTag w = 0o41#6 := by
  rw [encodingMask_itpPair, encode]
  conv_lhs => rw [word_eq_itpFields w, masked_kept, masked_ignored, BitVec.and_allOnes]

/-- A word decodes to an instruction exactly when its bits that are not ignored are that instruction's: both say that the
word's tag and fields are the instruction's. -/
theorem decode_eq_iff_masked {pos : Position} {instr : Instr} (hwf : instr.wellFormed pos = true) (w : Word36) :
    decode pos w = instr ↔ w &&& encodingMask instr = encode instr := by
  cases hp : isPair instr with
  | false => exact (decode_eq_iff_wordTag hwf hp).trans (masked_of_not_pair hp).symm
  | true =>
    cases pos with
    | tag => rw [wellFormed_tag, hp] at hwf; cases hwf
    | indirectWord =>
      cases instr
      case itsPair => exact decodeIndirectWord_eq_itsPair.trans masked_itsPair.symm
      case itpPair => exact decodeIndirectWord_eq_itpPair.trans masked_itpPair.symm
      all_goals cases hp

/-- An encoding has no ignored bit set. -/
theorem encode_and_encodingMask (instr : Instr) : encode instr &&& encodingMask instr = encode instr := by
  cases hp : isPair instr with
  | false => rw [encode_of_not_pair hp, encodingMask_of_not_pair hp, masked_kept, and_iff_left rfl, BitVec.and_zero]
  | true =>
    cases instr
    case itsPair segno rn =>
      rw [encodingMask_itsPair, encode, masked_kept, masked_ignored, masked_kept, masked_kept]
      exact ⟨⟨⟨BitVec.and_zero, rfl⟩, rfl⟩, rfl⟩
    case itpPair prnum =>
      rw [encodingMask_itpPair, encode, masked_kept, masked_ignored]
      exact ⟨BitVec.and_allOnes, rfl⟩
    all_goals cases hp

/-- Settles O1: an encoding's bits that are not ignored are its own (`encode_and_encodingMask`), so decoding reads the
instruction back. -/
theorem decodeEncodeAgree : Obligations.DecodeEncodeAgree := fun _ instr hwf =>
  (decode_eq_iff_masked hwf (encode instr)).2 (encode_and_encodingMask instr)

/-- Settles O2: `wellFormed_decode` for every word, and `decode_eq_iff_masked` for every instruction. -/
theorem decodeReadsExactlyTheFields : Obligations.DecodeReadsExactlyTheFields := fun pos w =>
  ⟨wellFormed_decode pos w, fun _ hwf => decode_eq_iff_masked hwf w⟩

/-- Settles O4, by evaluation. -/
theorem specWordsDecode : Obligations.SpecWordsDecode := by
  unfold Obligations.SpecWordsDecode
  decide

end Sys2Proof.Machine
end

section
/-! SUPPORT. Instruction words and in-core SDWs: taken apart and put together (O3, O5). -/

namespace Sys2Proof.Machine

/-! ### Instruction words (R121) -/

/-- A bit as a field of width 1. -/
theorem ofBool_getLsbD {n : Nat} (x : BitVec n) (k : Nat) : BitVec.ofBool (x.getLsbD k) = x.extractLsb' k 1 := by
  refine BitVec.eq_of_getLsbD_eq fun j hj => ?_
  obtain rfl : j = 0 := by omega
  simp

/-- `append_inj` for a low part of one bit. -/
theorem append_ofBool_inj {n : Nat} {x x' : BitVec n} {b b' : Bool} :
    x ++ BitVec.ofBool b = x' ++ BitVec.ofBool b' ↔ x = x' ∧ b = b' := by
  rw [append_inj, BitVec.ofBool_eq_iff_eq]

theorem encodeFields_decodeFields (w : Word36) :
    encodeFields (decodeFields w) (w.extractLsb' 9 9) (w.getLsbD 8) = w := by
  simp only [encodeFields, decodeFields, ofBool_getLsbD]
  rw [extract_append_extract w 9 9 18, extract_append_extract w 8 1 27, extract_append_extract w 7 1 28,
    extract_append_extract w 6 1 29]
  exact (word_eq_tag w).symm

/-- An instruction word determines its fields. -/
theorem encodeFields_injective {f g : InstrFields} {opcode opcode' : BitVec 9} {ext ext' : Bool}
    (h : encodeFields f opcode ext = encodeFields g opcode' ext') : f = g := by
  rw [encodeFields, encodeFields, append_inj, append_ofBool_inj, append_ofBool_inj, append_ofBool_inj, append_inj] at h
  obtain ⟨⟨⟨⟨⟨haddress, -⟩, -⟩, hi⟩, ha⟩, htag⟩ := h
  cases f
  cases g
  congr

/-- Settles O3: a word is put together again from what it is taken apart into, and a word put together determines its fields. -/
theorem instructionFieldsRoundTrip : Obligations.InstructionFieldsRoundTrip :=
  ⟨fun _ _ _ => encodeFields_injective (encodeFields_decodeFields _), encodeFields_decodeFields⟩

/-! ### The in-core SDW (R134, R288) -/

/-- Word 0 of an SDW cut at its fields: the entry's, and DF with FC. -/
theorem sdwWord0_eq_fields (tsr : Segno) (w0 w1 : Word36) :
    (decodeSdw tsr w0 w1).addr ++ (decodeSdw tsr w0 w1).r1 ++ (decodeSdw tsr w0 w1).r2 ++ (decodeSdw tsr w0 w1).r3 ++
      w0.extractLsb' 0 3 = w0 := by
  simp only [decodeSdw]
  rw [extract_append_extract w0 9 3 24, extract_append_extract w0 6 3 27, extract_append_extract w0 3 3 30,
    extract_append_extract w0 0 3 33, extract_all]

/-- Word 1 of an SDW cut at its fields: the unused bit 35, and the entry's. -/
theorem sdwWord1_eq_fields (tsr : Segno) (w0 w1 : Word36) :
    w1.extractLsb' 35 1 ++ (decodeSdw tsr w0 w1).bound ++ BitVec.ofBool (decodeSdw tsr w0 w1).r ++
      BitVec.ofBool (decodeSdw tsr w0 w1).e ++ BitVec.ofBool (decodeSdw tsr w0 w1).w ++
      BitVec.ofBool (decodeSdw tsr w0 w1).p ++ BitVec.ofBool (decodeSdw tsr w0 w1).u ++
      BitVec.ofBool (decodeSdw tsr w0 w1).g ++ BitVec.ofBool (decodeSdw tsr w0 w1).c ++ (decodeSdw tsr w0 w1).eb = w1 := by
  simp only [decodeSdw, ofBool_getLsbD]
  rw [extract_append_extract w1 21 14 1, extract_append_extract w1 20 1 15, extract_append_extract w1 19 1 16,
    extract_append_extract w1 18 1 17, extract_append_extract w1 17 1 18, extract_append_extract w1 16 1 19,
    extract_append_extract w1 15 1 20, extract_append_extract w1 14 1 21, extract_append_extract w1 0 14 22, extract_all]

/-- The in-core words of an SDW are read back: each, cut at its fields, has the entry's. -/
theorem decodeSdw_encodeSdw (d : Sdw) : decodeSdw d.pointer (encodeSdwWord0 d) (encodeSdwWord1 d) = d := by
  have h0 := sdwWord0_eq_fields d.pointer (encodeSdwWord0 d) (encodeSdwWord1 d)
  have h1 := sdwWord1_eq_fields d.pointer (encodeSdwWord0 d) (encodeSdwWord1 d)
  have hpointer : (decodeSdw d.pointer (encodeSdwWord0 d) (encodeSdwWord1 d)).pointer = d.pointer := rfl
  generalize decodeSdw d.pointer (encodeSdwWord0 d) (encodeSdwWord1 d) = d' at h0 h1 hpointer ⊢
  conv_rhs at h0 => rw [encodeSdwWord0]
  conv_rhs at h1 => rw [encodeSdwWord1]
  rw [append_inj, append_inj, append_inj, append_inj] at h0
  rw [append_inj, append_ofBool_inj, append_ofBool_inj, append_ofBool_inj, append_ofBool_inj, append_ofBool_inj,
    append_ofBool_inj, append_ofBool_inj, append_inj] at h1
  obtain ⟨⟨⟨⟨haddr, hr1⟩, hr2⟩, hr3⟩, -⟩ := h0
  obtain ⟨⟨⟨⟨⟨⟨⟨⟨⟨-, hbound⟩, hr⟩, he⟩, hw⟩, hp⟩, hu⟩, hg⟩, hc⟩, heb⟩ := h1
  cases d
  cases d'
  congr

/-- An encoded SDW is valid: DF is a bit of its lowest field. -/
theorem descriptorValid_encodeSdwWord0 (d : Sdw) : descriptorValid (encodeSdwWord0 d) = true := by
  rw [descriptorValid, encodeSdwWord0, BitVec.getLsbD_append]
  rfl

/-- No field of word 1 has bit 35. -/
theorem decodeSdw_or_bit35 (tsr : Segno) (w0 w1 : Word36) :
    decodeSdw tsr w0 (w1 ||| 0o400000000000#36) = decodeSdw tsr w0 w1 := by
  simp [decodeSdw, BitVec.extractLsb'_or]

/-- Settles O5: the entry, the valid bit and the unused bit, one lemma each. -/
theorem descriptorFieldsRoundTrip : Obligations.DescriptorFieldsRoundTrip := fun d =>
  ⟨decodeSdw_encodeSdw d, descriptorValid_encodeSdwWord0 d, decodeSdw_or_bit35 d.pointer⟩

end Sys2Proof.Machine
end

section
/-! SUPPORT. The tags of the register families: what each answers, and where it faults (O25 to O31, O39). -/

namespace Sys2Proof.Machine

/-! ### An instruction's answer from its operation's -/

section
variable {instr : Instr} {s t : State}

theorem exec_of_ok (h : meaning instr s = .ok () t) : exec instr s = .next t :=
  (exec_eq_complete instr s).trans (complete_of_ok h)

theorem exec_of_fault {f : Fault} (h : meaning instr s = .error (.fault f) t) : exec instr s = .next (takeFault f t) :=
  (exec_eq_complete instr s).trans (complete_of_fault h)

end

/-! ### The tables of designators -/

section
variable {r ri ir instr : Instr} {td : Designator} {v : State → Word18} {word : Word18 → Word36}

theorem meaning_of_registerRow (h : (r, ri, ir, td, v) ∈ registerRows) : meaning r = registerTag td := by
  have hall : ∀ row ∈ registerRows, meaning row.1 = registerTag row.2.2.2.1 := by
    intro row hrow
    fin_cases hrow <;> rfl
  exact hall _ h

/-- The two direct rows: du and dl, whose RI tags have the same designator (R126, R172). -/
theorem meaning_of_directRow (h : (r, ri, ir, td, word) ∈ directRows) :
    meaning r = registerTag td ∧ meaning ri = registerIndirectTag td ∧ isDirect td = true ∧ directWord td = word := by
  have hall : ∀ row ∈ directRows, meaning row.1 = registerTag row.2.2.2.1 ∧
      meaning row.2.1 = registerIndirectTag row.2.2.2.1 ∧ isDirect row.2.2.2.1 = true ∧
      directWord row.2.2.2.1 = row.2.2.2.2 := by
    intro row hrow
    fin_cases hrow <;> exact ⟨rfl, rfl, rfl, rfl⟩
  exact hall _ h

/-! ### The applied designator (R165, R182) -/

/-- Outside an IR chain a tag's own designator is applied. -/
theorem registerTag_outside_chain {s : State} (h : s.inIr = false) (td : Designator) :
    registerTag td s = registerMod td s := by
  rw [registerTag_apply, appliedDesignator, h, if_neg Bool.false_ne_true]

/-- Inside an IR chain the held designator is applied, whatever the tag's own is (R182, R186). -/
theorem registerTag_in_chain {s : State} (h : s.inIr = true) (td : Designator) :
    registerTag td s = registerMod s.ctHold s := by
  rw [registerTag_apply, appliedDesignator, h, if_pos rfl]

/-- A designator with a register adds it to TPR.CA and ends in the word there (R165, R167). -/
theorem registerMod_of_row (h : (r, ri, ir, td, v) ∈ registerRows) (s : State) :
    registerMod td s = finalWord (withCa (s.tpr.ca + v s) s) := by
  obtain ⟨-, hd, hv⟩ := meaning_of_registerRows _ h
  have hadd : (regValue td s).1 = v s := hv s
  rw [registerMod_of_value ((regValue_direct td s).trans hd), hadd]

/-- A direct designator ends with the address as the operand, or faults where it is stored into (R137, R166). -/
theorem registerMod_of_directRow (h : (r, ri, ir, td, word) ∈ directRows) (s : State) :
    ((∀ x, s.op ≠ .write x) →
      registerMod td s = .ok () (endWith (.result ⟨s.tpr.ca, .direct, some (word s.tpr.ca)⟩) s)) ∧
    ∀ x, s.op = .write x → registerMod td s = .error (.fault (.illegalModifier .directStore)) s := by
  obtain ⟨-, -, hd, rfl⟩ := meaning_of_directRow h
  rw [registerMod_of_direct ((regValue_direct td s).trans hd), directOperand_apply]
  constructor
  · intro hop
    cases ho : s.op with
    | write x => exact absurd ho (hop x)
    | read | prepareOnly => rfl
  · intro x hop
    rw [hop]

/-! ### The fetch of an RI or IR tag (R175, R180) -/

/-- An RI tag with a register fetches the indirect word at TPR.CA with the register added (R175, R183). -/
theorem meaning_registerIndirect_of_row (h : (r, ri, ir, td, v) ∈ registerRows) (s : State) :
    meaning ri s = indirectFetch (withCa (s.tpr.ca + v s) s) := by
  obtain ⟨hm, hd, hv⟩ := meaning_of_registerRows _ h
  have hadd : (regValue td s).1 = v s := hv s
  rw [hm, registerIndirectTag_of_value hd, hadd]

/-- An IR tag holds its designator and fetches the indirect word (R180, R184). -/
theorem meaning_indirectRegister_of_row (h : (instr, td) ∈ indirectRegisterRows) (s : State) :
    meaning instr s = indirectFetch (holdDesignator td s) := by
  rw [meaning_of_indirectRegisterRows _ h, indirectRegisterTag_apply]

end

/-! ### R tags -/

/-- Settles O25: outside an IR chain the tag's own designator is applied. -/
theorem registerTagCompletes : Obligations.RegisterTagCompletes := by
  intro r ri ir td v hrow s t hin ht
  refine exec_of_ok ?_
  rw [meaning_of_registerRow hrow, registerTag_outside_chain hin, registerMod_of_row hrow]
  exact finalWord_eq_ok.2 ht

/-- Settles O26: outside an IR chain the tag's own designator is applied. -/
theorem directOperandCompletes : Obligations.DirectOperandCompletes := by
  intro r ri ir td word hrow s hin
  obtain ⟨hr, -, -, -⟩ := meaning_of_directRow hrow
  obtain ⟨hend, hstore⟩ := registerMod_of_directRow hrow s
  rw [← registerTag_outside_chain hin, ← hr] at hend hstore
  exact ⟨fun hop => exec_of_ok (hend hop), fun x hop => exec_of_fault (hstore x hop)⟩

/-- Settles O27: inside an IR chain every R tag applies the held designator, of either table. -/
theorem chainEndsWithHeldDesignator : Obligations.ChainEndsWithHeldDesignator := by
  intro instr hi s hin
  have hm : meaning instr s = registerMod s.ctHold s := by
    rw [meaning_of_registerTags _ hi, registerTag_in_chain hin]
  constructor
  · rintro r ri ir td v hrow rfl t ht
    refine exec_of_ok ?_
    rw [hm, registerMod_of_row hrow]
    exact finalWord_eq_ok.2 ht
  · rintro r ri ir td word hrow rfl
    obtain ⟨hend, hstore⟩ := registerMod_of_directRow hrow s
    rw [← hm] at hend hstore
    exact ⟨fun hop => exec_of_ok (hend hop), fun x hop => exec_of_fault (hstore x hop)⟩

/-! ### RI and IR tags -/

/-- Settles O28, by `indirectFetch_eq_ok`. -/
theorem registerIndirectCompletes : Obligations.RegisterIndirectCompletes :=
  fun _ _ _ _ _ hrow s _ ht =>
    exec_of_ok ((meaning_registerIndirect_of_row hrow s).trans (indirectFetch_eq_ok.2 ht))

/-- Settles O29: a direct designator is checked first. -/
theorem directAfterRiFaults : Obligations.DirectAfterRiFaults := by
  intro r ri ir td word hrow s
  obtain ⟨-, hri, hd, -⟩ := meaning_of_directRow hrow
  refine exec_of_fault ?_
  rw [hri, registerIndirectTag_of_direct hd]

/-- Settles O30, by `indirectFetch_eq_ok`. -/
theorem indirectRegisterCompletes : Obligations.IndirectRegisterCompletes :=
  fun _ _ hrow s _ ht =>
    exec_of_ok ((meaning_indirectRegister_of_row hrow s).trans (indirectFetch_eq_ok.2 ht))

/-! ### The chain limit (R163, R368) -/

section
variable {s : State} (h : ¬ WithinDepth s)
include h

/-- A count that passes the limit faults, and it has been made. -/
theorem countIndirect_beyond_limit : countIndirect s = .error (.fault .indirectChainLimit) (counted s) := by
  rw [countIndirect_apply, if_pos (by rwa [← depthBad_counted, Bool.not_eq_false] at h)]

theorem indirectFetch_beyond_limit : indirectFetch s = .error (.fault .indirectChainLimit) (counted s) :=
  bind_of_error (countIndirect_beyond_limit h)

theorem tallyFetch_beyond_limit : tallyFetch s = .error (.fault .indirectChainLimit) (counted s) :=
  bind_of_error (countIndirect_beyond_limit h)

end

/-- Settles O31: each family counts its fetch before it makes it. -/
theorem chainLimitFaults : Obligations.ChainLimitFaults := by
  intro s m hm hd
  have hbeyond : ¬ WithinDepth s := fun hw => Nat.not_lt.2 hd (hw m hm)
  refine ⟨fun r ri ir td v hrow => exec_of_fault ?_, fun instr td hrow => exec_of_fault ?_, fun instr hi hp => exec_of_fault ?_⟩
  · exact (meaning_registerIndirect_of_row hrow s).trans (indirectFetch_beyond_limit hbeyond)
  · exact (meaning_indirectRegister_of_row hrow s).trans (indirectFetch_beyond_limit hbeyond)
  · obtain ⟨k, hk⟩ := meaning_of_tallyFetching instr hi
    rw [hk, tallyTag_of_performed hp]
    exact bind_of_error (tallyFetch_beyond_limit hbeyond)

/-! ### IT tags in an IR chain (R185) -/

theorem meaning_of_indirectTallyTags : ∀ instr ∈ indirectTallyTags, ∃ body, meaning instr = tallyTag body := by
  intro instr h
  fin_cases h <;> exact ⟨_, rfl⟩

/-- Settles O39: every IT tag asks the policy first. -/
theorem tallyInChainFaults : Obligations.TallyInChainFaults := by
  intro instr hi s hin hpol
  obtain ⟨body, hm⟩ := meaning_of_indirectTallyTags instr hi
  have hp : ¬ TallyPerformed s := by simp [TallyPerformed, hin, hpol]
  refine exec_of_fault ?_
  rw [hm, tallyTag_of_refused hp]

end Sys2Proof.Machine
end

section
/-! SUPPORT. The beginning of a resolution, and what a step then runs (O6, O7). -/

namespace Sys2Proof.Machine

/-! ### The entry of a resolution (R160, R161) -/

/-- The state in which a resolution has begun with an initial TPR: at the dispatch of the instruction's tag, at depth 0, outside
any IR chain (R160). -/
def begunWith (op : Operation) (tpr : Tpr) (s : State) : State :=
  { s with depth := 0, inIr := false, op := op, phase := .dispatch s.instr.tag, tpr := tpr }

section
variable {s : State} (op : Operation)

/-- Once the initial TPR is formed, the resolution stands at its first dispatch. -/
theorem beginResolution_of_tpr {tpr : Tpr}
    (h : formInitialTpr (enterResolution op s) = .ok () { enterResolution op s with tpr := tpr }) :
    beginResolution op s = .ok () (begunWith op tpr s) :=
  (bind_of_ok (update_apply _ s)).trans (bind_of_ok h)

/-- Without the A bit the initial TPR is PPR's, with the address field. -/
theorem beginResolution_of_no_a (ha : s.instr.a = false) :
    beginResolution op s = .ok () (begunWith op (tprFromPpr s) s) :=
  beginResolution_of_tpr op ((formInitialTpr_apply _).trans (if_neg (Bool.eq_false_iff.1 ha)))

/-- The A bit in APPENDING mode takes the initial TPR from a pointer register. -/
theorem beginResolution_of_a (ha : s.instr.a = true) (hm : s.addrMode = .appending) :
    beginResolution op s = .ok () (begunWith op (tprFromPr s) s) :=
  beginResolution_of_tpr op ((formInitialTpr_apply _).trans ((if_pos ha).trans (if_pos hm)))

/-- The A bit outside APPENDING mode is refused before TPR is written (log entry 16). -/
theorem beginResolution_refused (ha : s.instr.a = true) (hm : s.addrMode ≠ .appending) :
    beginResolution op s = .error (.refused .pointerRegisterOutsideAppending) (enterResolution op s) :=
  (bind_of_ok (update_apply _ s)).trans <|
    bind_of_error ((formInitialTpr_apply _).trans ((if_pos ha).trans (if_neg hm)))

/-- The entry of a resolution keeps the instruction's fields. -/
theorem beginResolution_instr {op : Operation} {t : State} (h : beginResolution op s = .ok () t) : t.instr = s.instr :=
  keeps_of_ok (keeps_beginResolution (chains_eq (·.instr)) (fun _ _ => rfl) (fun _ _ => rfl) (fun _ _ => rfl) op) h

/-- An instruction word that is fetched has its fields taken, and its resolution begins (R92). -/
theorem beginExecution_of_fetched {w : Word36} {sdw : Option Sdw} {u : State}
    (h : ReadsAt (aimAtProcedure s) s.ppr.ic .instructionFetch w sdw u) :
    beginExecution op s = beginResolution op { u with instr := decodeFields w } :=
  (bind_of_ok (fetchInstruction_eq_ok.2 ⟨sdw, h⟩)).trans (bind_of_ok (update_apply _ u))

end

/-- A read changes no mode. -/
theorem ReadsAt.addrMode {s t : State} {ca : Word18} {acc : Access} {w : Word36} {sdw : Option Sdw}
    (h : ReadsAt s ca acc w sdw t) : t.addrMode = s.addrMode := by
  rw [memRead_accessOnly (memRead_eq_ok.2 h)]

theorem ringMax_eq (r t : Ring) : ringMax r t = BitVec.ofNat 3 (max r.toNat t.toNat) := by
  unfold ringMax
  split
  · rename_i h
    rw [Nat.max_eq_right (BitVec.lt_def.1 h).le, BitVec.ofNat_toNat, BitVec.setWidth_eq]
  · rename_i h
    rw [Nat.max_eq_left (Nat.not_lt.1 (mt BitVec.lt_def.2 h)), BitVec.ofNat_toNat, BitVec.setWidth_eq]

/-- The initial TPR from the pointer register that the address field names (R127, R161). -/
theorem tprFromPr_eq {s : State} {p : PtrReg} (h : getPr s (s.instr.address.extractLsb' 15 3) = p) :
    tprFromPr s = ⟨BitVec.ofNat 3 (max p.rnr.toNat s.ppr.prr.toNat), p.snr, p.bitno,
      p.wordno + (s.instr.address.extractLsb' 0 15).signExtend 18⟩ := by
  simp only [tprFromPr, h, ringMax_eq]

/-! ### The step that begins a resolution (R160, log entry 5) -/

section
variable {s t : State} {r : Request} {rs : List Request} {m : Act Unit} (hp : s.phase = .idle) (hr : s.requests = r :: rs)
  (hb : beginRequest r = some m)
include hp hr hb

/-- A request whose resolution begins makes its first dispatch in the same step. -/
theorem step_begun (h : m (withRequests rs s) = .ok () t) : step s = exec (decodeTag t.instr.tag) t := by
  rw [step_request hp hr, serve_of_begun hb h]

/-- A request whose resolution is refused leaves no next state. -/
theorem step_not_begun {reason : Refusal} (h : m (withRequests rs s) = .error (.refused reason) t) :
    step s = .refused reason := by
  rw [step_request hp hr, serve_of_not_begun hb h, stopOutcome]

end

/-- At a pair's even word the step runs what the word decodes to as an indirect word (R133, R255). -/
theorem step_pair_decode {s : State} {w : Word36} (hp : s.phase = .pair w) (hw : wordTag w = 0o41#6 ∨ wordTag w = 0o43#6) :
    step s = exec (decode .indirectWord w) s := by
  rw [step_pair hp, decode, decodeIndirectWord, if_pos ((isPointerPair_iff w).2 hw)]

/-- Settles O6: each phase and each request by the step that serves it. -/
theorem stepRunsDecodedInstruction : Obligations.StepRunsDecodedInstruction := by
  refine ⟨fun s t hp => ⟨?_, step_dispatch hp⟩, fun s w hp hw => step_pair_decode hp hw, ?_, ?_⟩
  · rw [wellFormed_tag, isPair_decodeTag, Bool.not_false]
  · intro s op rs u hp hr hu
    rw [step_begun hp hr rfl hu, beginResolution_instr hu]
  · intro s op rs w sdw u v hp hr hread hv
    have hbegun : beginExecution op (withRequests rs s) = .ok () v :=
      (beginExecution_of_fetched (s := withRequests rs s) op hread).trans hv
    rw [step_begun hp hr rfl hbegun, beginResolution_instr hv]
    rfl

/-- Settles O7: the entry by the A bit and the mode, and the step that is refused with it. -/
theorem resolutionBegins : Obligations.ResolutionBegins := by
  intro op s
  refine ⟨beginResolution_of_no_a op, fun p ha hm hpr => ?_, fun hm => ⟨fun ha => ⟨?_, ?_⟩, ?_⟩⟩
  · rw [beginResolution_of_a op ha hm, tprFromPr_eq hpr, begunWith]
  · exact ⟨_, beginResolution_refused op ha hm⟩
  · intro rs hp hr
    exact step_not_begun hp hr rfl (beginResolution_refused (s := withRequests rs s) op ha hm)
  · intro rs w sdw u hp hr hread ha
    have hmode : u.addrMode ≠ .appending := hread.addrMode ▸ hm
    exact step_not_begun hp hr rfl <|
      (beginExecution_of_fetched (s := withRequests rs s) op hread).trans
        (beginResolution_refused (s := { u with instr := decodeFields w }) op ha hmode)

end Sys2Proof.Machine
end

section
/-! SUPPORT. How an instruction ends a resolution or goes on with it: the escalation (O44) and the bound on its steps (O59). -/

namespace Sys2Proof.Machine

/-! ### Before the end of a resolution -/

/-- The mode and the escalation record are the same. -/
def SameMode (s t : State) : Prop := t.escSaved = s.escSaved ∧ t.addrMode = s.addrMode

/-- The depth, the parameters, the mode and the escalation record are the same. -/
def SameCourse (s t : State) : Prop := SameDepth s t ∧ SameMode s t

theorem sameMode_chains : Chains SameMode :=
  ⟨fun _ => ⟨rfl, rfl⟩, fun h k => ⟨k.1.trans h.1, k.2.trans h.2⟩⟩

theorem sameCourse_chains : Chains SameCourse :=
  ⟨fun s => ⟨sameDepth_chains.refl s, sameMode_chains.refl s⟩,
    fun h k => ⟨sameDepth_chains.trans h.1 k.1, sameMode_chains.trans h.2 k.2⟩⟩

theorem sameCourse_access : AccessChain SameCourse :=
  accessChain_of_any sameCourse_chains (fun _ _ _ => sameCourse_chains.refl) (fun _ _ _ s _ => sameCourse_chains.refl s)
    (fun _ => sameCourse_chains.refl) fun _ => sameCourse_chains.refl

theorem sameCourse_going : GoingChain SameCourse where
  toChains := sameCourse_chains
  read := keeps_memRead sameCourse_access.toReadChain
  write := keeps_memWrite sameCourse_access
  ca _ := sameCourse_chains.refl
  tro _ := sameCourse_chains.refl
  goOn _ := sameCourse_chains.refl
  pair _ _ := sameCourse_chains.refl

theorem keeps_sameMode {α : Type} {m : Act α} (h : Keeps SameCourse m) : Keeps SameMode m := fun s => (h s).2

theorem sameMode_countIndirect : Keeps SameMode countIndirect :=
  keeps_bind sameMode_chains (keeps_update fun _ => ⟨rfl, rfl⟩) fun _ =>
    keeps_bind sameMode_chains (keeps_read sameMode_chains _) fun _ => keeps_raiseIf sameMode_chains _ _

theorem sameMode_tallyFetch : Keeps SameMode tallyFetch :=
  keeps_bind sameMode_chains sameMode_countIndirect fun _ => keeps_sameMode sameCourse_going.fetchTallyWord

/-! ### The state an operation answers in -/

/-- The resolution is over, and its escalation with it (R168, R263). -/
def Ended (s t : State) : Prop := t.phase = .idle ∧ t.escSaved = none ∧ t.addrMode = s.escSaved.getD s.addrMode

/-- The resolution goes on, with no fetch counted. -/
def GoneOn (s t : State) : Prop := t.phase ≠ .idle ∧ SameCourse s t

/-- The resolution goes on, with one fetch counted that was within the limit (R163). -/
def Fetched (s t : State) : Prop := t.phase ≠ .idle ∧ WithinDepth s ∧ SameCourse (counted s) t

theorem ended_endWith (r : Reply) (s : State) : Ended s (endWith r s) := ⟨rfl, rfl, rfl⟩

/-- Where an action answers, `P` relates the state before to the state after; where it stops, the mode and the record are as they
were, so that they are still those of the resolution when the fault is taken. -/
def Concludes (P : State → State → Prop) {α : Type} (m : Act α) : Prop :=
  (∀ s t a, m s = .ok a t → P s t) ∧ ∀ s t e, m s = .error e t → SameMode s t

/-- Changes in `R` before an action may be forgotten: they touch no mode, and `P` holds from the state before them as well. -/
structure Absorbs (R P : State → State → Prop) : Prop where
  mode : ∀ {s t}, R s t → SameMode s t
  before : ∀ {s t u}, R s t → P t u → P s u

theorem ended_absorbs : Absorbs SameMode Ended where
  mode := id
  before h := by
    rintro ⟨hp, he, ha⟩
    rw [h.1, h.2] at ha
    exact ⟨hp, he, ha⟩

theorem ended_absorbs_course : Absorbs SameCourse Ended where
  mode h := h.2
  before h := ended_absorbs.before h.2

theorem goneOn_absorbs : Absorbs SameCourse GoneOn where
  mode h := h.2
  before h ht := ⟨ht.1, sameCourse_chains.trans h ht.2⟩

theorem fetched_absorbs : Absorbs SameCourse Fetched where
  mode h := h.2
  before {s t u} h := by
    rintro ⟨hp, hw, hc⟩
    have hcounted : SameCourse (counted s) (counted t) := ⟨⟨congrArg (· + 1) h.1.1, h.1.2⟩, h.2⟩
    exact ⟨hp, h.1.within_iff.1 hw, sameCourse_chains.trans hcounted hc⟩

namespace Concludes

variable {α β : Type} {R P Q : State → State → Prop}

theorem imp {m : Act α} (h : Concludes P m) (hpq : ∀ s t, P s t → Q s t) : Concludes Q m :=
  ⟨fun s t a hm => hpq s t (h.1 s t a hm), h.2⟩

theorem raise (f : Fault) : Concludes P (raise f : Act α) :=
  ⟨fun _ _ _ h => (nomatch h), fun _ _ _ => keeps_of_error (keeps_raise sameMode_chains f)⟩

theorem update {f : State → State} (h : ∀ s, P s (f s)) : Concludes P (update f) :=
  ⟨fun s _ _ hm => (EStateM.Result.ok.inj hm).2 ▸ h s, fun _ _ _ hm => nomatch hm⟩

theorem ite (c : Prop) [Decidable c] {m n : Act α} (hm : Concludes P m) (hn : Concludes P n) :
    Concludes P (if c then m else n) := by
  split <;> assumption

theorem bind (hA : Absorbs R P) {m : Act α} {f : α → Act β} (hm : Keeps R m) (hf : ∀ a, Concludes P (f a)) :
    Concludes P (m >>= f) := by
  constructor
  · intro s u b h
    obtain ⟨a, t, ht, hu⟩ := bind_eq_ok.1 h
    exact hA.before (keeps_of_ok hm ht) ((hf a).1 t u b hu)
  · intro s u e h
    rcases bind_eq_error.1 h with h | ⟨a, t, ht, hu⟩
    · exact hA.mode (keeps_of_error hm h)
    · exact sameMode_chains.trans (hA.mode (keeps_of_ok hm ht)) ((hf a).2 t u e hu)

/-! #### Operations that end the resolution -/

theorem finish (r : Result) : Concludes Ended (finish r) := update (ended_endWith _)

/-- Reading a register before an end. -/
theorem read_bind {f : State → α} {k : α → Act β} (hk : ∀ a, Concludes Ended (k a)) : Concludes Ended (read f >>= k) :=
  bind ended_absorbs (keeps_read sameMode_chains f) hk

theorem finalWord : Concludes Ended finalWord := by
  refine read_bind fun ca => read_bind fun op => ?_
  split
  · exact bind ended_absorbs_course (sameCourse_going.read _ _) fun _ => finish _
  · exact bind ended_absorbs_course (sameCourse_going.write _ _ _) fun _ => finish _
  · exact finish _

theorem finalChar (sz : CharSize) (cf : BitVec 3) : Concludes Ended (finalChar sz cf) := by
  refine read_bind fun ca => read_bind fun op => ?_
  split
  · exact bind ended_absorbs_course (sameCourse_going.read _ _) fun _ => finish _
  · exact bind ended_absorbs_course (sameCourse_going.read _ _) fun _ =>
      bind ended_absorbs_course (sameCourse_going.write _ _ _) fun _ => finish _
  · exact finish _

theorem directOperand (td : Designator) : Concludes Ended (directOperand td) := by
  refine read_bind fun ca => read_bind fun op => ?_
  split
  · exact raise _
  · exact finish _

theorem finalWordAt (ca : Word18) : Concludes Ended (finalWordAt ca) :=
  bind ended_absorbs_course (keeps_update (sameCourse_going.ca ca)) fun _ => finalWord

theorem finalCharAt (ca : Word18) (sz : CharSize) (cf : BitVec 3) : Concludes Ended (finalCharAt ca sz cf) :=
  bind ended_absorbs_course (keeps_update (sameCourse_going.ca ca)) fun _ => finalChar sz cf

/-- An R tag ends the resolution, in or outside an IR chain (R165, R182). -/
theorem registerTag (td : Designator) : Concludes Ended (registerTag td) :=
  read_bind fun _ => read_bind fun _ => ite _ (directOperand _) (read_bind fun _ => finalWordAt _)

/-- What ends the resolution after a tally word has been fetched (R221). -/
theorem tallyFetch_bind {k : Word18 × Word36 → Act Unit} (hk : ∀ tw, Concludes Ended (k tw)) :
    Concludes Ended (tallyFetch >>= k) :=
  bind ended_absorbs sameMode_tallyFetch hk

/-- What ends the resolution after a tally word has been rewritten (R224). -/
theorem tallyStep_ended {fy : Word36 → Word18} {ft : BitVec 12 → BitVec 12} {k : Word36 → Act Unit}
    (hk : ∀ w, Concludes Ended (k w)) : Concludes Ended (tallyStep fy ft >>= k) :=
  bind ended_absorbs (keeps_bind sameMode_chains sameMode_tallyFetch fun _ =>
    keeps_bind sameMode_chains (keeps_sameMode (sameCourse_going.tallyRewrite _ _ _ _)) fun _ => keeps_pure sameMode_chains _) hk

/-! #### Operations that go on -/

theorem gotoDispatch (t : Tag) : Concludes GoneOn (gotoDispatch t) :=
  update fun s => ⟨Phase.noConfusion, sameCourse_chains.refl s⟩

theorem continueAt (ca : Word18) (ct : BitVec 6) : Concludes GoneOn (continueAt ca ct) :=
  bind goneOn_absorbs (keeps_update (sameCourse_going.ca ca)) fun _ => gotoDispatch _

theorem acceptIndirect (w : Word36) (sdw : Option Sdw) : Concludes GoneOn (acceptIndirect w sdw) :=
  ite _ (update fun s => ⟨Phase.noConfusion, sameCourse_chains.refl s⟩) <|
    bind goneOn_absorbs (keeps_update (sameCourse_going.ca _)) fun _ => gotoDispatch _

/-- What goes on after a count that stayed within the limit (R163). -/
theorem countIndirect_bind {f : Act Unit} (hf : Concludes GoneOn f) : Concludes Fetched (countIndirect >>= fun _ => f) := by
  constructor
  · intro s u b h
    obtain ⟨⟨⟩, t, ht, hu⟩ := bind_eq_ok.1 h
    obtain ⟨hw, rfl⟩ := countIndirect_eq_ok.1 ht
    obtain ⟨hp, hc⟩ := hf.1 _ u b hu
    exact ⟨hp, hw, hc⟩
  · intro s u e h
    rcases bind_eq_error.1 h with h | ⟨⟨⟩, t, ht, hu⟩
    · exact keeps_of_error sameMode_countIndirect h
    · exact sameMode_chains.trans (keeps_of_ok sameMode_countIndirect ht) (hf.2 t u e hu)

theorem indirectFetch : Concludes Fetched indirectFetch :=
  countIndirect_bind <| bind goneOn_absorbs (keeps_read sameCourse_chains _) fun _ =>
    bind goneOn_absorbs (sameCourse_going.read _ _) fun _ => acceptIndirect _ _

theorem registerIndirectTag (td : Designator) : Concludes Fetched (registerIndirectTag td) :=
  bind fetched_absorbs (keeps_raiseIf sameCourse_chains _ _) fun _ => bind fetched_absorbs (keeps_read sameCourse_chains _) fun _ =>
    bind fetched_absorbs (keeps_read sameCourse_chains _) fun _ =>
    bind fetched_absorbs (keeps_update (sameCourse_going.ca _)) fun _ => indirectFetch

theorem indirectRegisterTag (td : Designator) : Concludes Fetched (indirectRegisterTag td) :=
  bind fetched_absorbs (keeps_update sameCourse_chains.refl) fun _ => indirectFetch

/-- What goes on after a tally word has been rewritten (R234, R236). -/
theorem tallyStep_fetched {fy : Word36 → Word18} {ft : BitVec 12 → BitVec 12} {k : Word36 → Act Unit}
    (hk : ∀ w, Concludes GoneOn (k w)) : Concludes Fetched (tallyStep fy ft >>= k) := by
  rw [tallyStep_bind, tallyUpdate, tallyFetch_eq, act_assoc]
  exact countIndirect_bind <| bind goneOn_absorbs sameCourse_going.fetchTallyWord fun _ =>
    bind goneOn_absorbs (keeps_pure sameCourse_chains ()) fun _ =>
    bind goneOn_absorbs (sameCourse_going.tallyRewrite _ _ _ _) fun _ => hk _

/-! #### The instructions -/

/-- An IT tag concludes as its modification does: leaving the chain changes neither depth nor mode (R185, R220). -/
theorem tallyTag (hA : Absorbs SameCourse P) {body : Act Unit} (hb : Concludes P body) : Concludes P (tallyTag body) :=
  bind hA (keeps_get sameCourse_chains) fun _ => bind hA (keeps_raiseIf sameCourse_chains _ _) fun _ =>
    bind hA (keeps_update sameCourse_chains.refl) fun _ => hb

/-- Every tag ends the resolution, or fetches one more word within the limit and goes on in the same mode. -/
theorem meaning {instr : Instr} (hi : isPair instr = false) :
    Concludes (fun s t => Ended s t ∨ Fetched s t) (meaning instr) := by
  have ended {m : Act Unit} (h : Concludes Ended m) : Concludes (fun s t => Ended s t ∨ Fetched s t) m := h.imp fun _ _ => .inl
  have fetched {m : Act Unit} (h : Concludes Fetched m) : Concludes (fun s t => Ended s t ∨ Fetched s t) m :=
    h.imp fun _ _ => .inr
  cases instr
  case n | au | qu | du | ic | al | ql | dl | x0 | x1 | x2 | x3 | x4 | x5 | x6 | x7 => exact ended (registerTag _)
  case nStar | auStar | quStar | duStar | icStar | alStar | qlStar | dlStar | x0Star | x1Star | x2Star | x3Star
      | x4Star | x5Star | x6Star | x7Star => exact fetched (registerIndirectTag _)
  case starN | starAu | starQu | starDu | starIc | starAl | starQl | starDl | starX0 | starX1 | starX2 | starX3
      | starX4 | starX5 | starX6 | starX7 => exact fetched (indirectRegisterTag _)
  case f1 | itp | itReserved42 | its | f2 | f3 => exact ended (tallyTag ended_absorbs_course (raise _))
  case ad | sd | di | id => exact ended (tallyTag ended_absorbs_course (tallyStep_ended fun _ => finalWordAt _))
  case dic | idc => exact fetched (tallyTag fetched_absorbs (tallyStep_fetched fun _ => continueAt _ _))
  case sc | scr =>
    refine ended (tallyTag ended_absorbs_course (tallyFetch_bind fun _ => ?_))
    exact bind ended_absorbs_course (keeps_raiseIf sameCourse_chains _ _) fun _ =>
      bind ended_absorbs_course (sameCourse_going.tallyRewrite _ _ _ _) fun _ => finalCharAt _ _ _
  case ci =>
    refine ended (tallyTag ended_absorbs_course (tallyFetch_bind fun _ => ?_))
    exact bind ended_absorbs_course (keeps_raiseIf sameCourse_chains _ _) fun _ => finalCharAt _ _ _
  case i => exact ended (tallyTag ended_absorbs_course (tallyFetch_bind fun _ => finalWordAt _))
  case itsPair | itpPair => cases hi

/-- A pointer pair goes on to the dispatch of MOD with no fetch counted; it may change the mode only then (R255, R260, R262). -/
theorem pointerPair (newTpr : Word36 → State → Tpr) :
    Concludes (fun s t => SameDepth s t ∧ ∃ tag, t.phase = .dispatch tag) (pointerPair newTpr) := by
  have hodd : Keeps SameCourse pairOddWord := keeps_pairOddWord sameCourse_chains sameCourse_going.read
  constructor
  · intro s u b h
    obtain ⟨odd, t, ht, hu⟩ := bind_eq_ok.1 h
    cases hu
    exact ⟨(keeps_of_ok hodd ht).1, pairMod odd, rfl⟩
  · intro s u e h
    rcases bind_eq_error.1 h with h | ⟨odd, t, ht, hu⟩
    · exact (keeps_of_error hodd h).2
    · nomatch hu

end Concludes

/-! ### The next state of an instruction -/

section
variable {instr : Instr} {s t : State} (hx : exec instr s = .next t)
include hx

/-- An instruction's next state is the one its operation answers in, or the end of the resolution by a fault (R371). -/
theorem Concludes.exec_next {P : State → State → Prop} (h : Concludes P (Machine.meaning instr)) : Ended s t ∨ P s t := by
  rw [exec_eq_complete] at hx
  rcases complete_eq_next.1 hx with hok | ⟨f, u, hu, rfl⟩
  · exact .inr (h.1 s t () hok)
  · exact .inl (ended_absorbs.before (h.2 s u _ hu) (ended_endWith _ u))

/-- A tag ends the resolution, or fetches one more word within the limit and goes on in the same mode. -/
theorem exec_tag_next (hi : isPair instr = false) : Ended s t ∨ Fetched s t :=
  ((Concludes.meaning hi).exec_next hx).elim .inl id

/-- A pair ends the resolution, or goes on to a tag with no fetch counted. -/
theorem exec_pair_next (hi : isPair instr = true) : Ended s t ∨ SameDepth s t ∧ ∃ tag, t.phase = .dispatch tag := by
  obtain ⟨newTpr, hm⟩ := meaning_of_isPair hi
  exact Concludes.exec_next hx (hm ▸ Concludes.pointerPair newTpr)

end

/-- Settles O44: the end of a resolution restores the mode (`Ended`), and a tag that goes on keeps it (`Fetched`). -/
theorem escalationEndsWithResolution : Obligations.EscalationEndsWithResolution := by
  intro instr s t hx
  cases hi : isPair instr with
  | false =>
    rcases exec_tag_next hx hi with ⟨hp, hend⟩ | ⟨hp, -, -, hmode⟩
    · exact ⟨fun _ => hend, fun hn => absurd hp hn⟩
    · exact ⟨fun hn => absurd hn hp, fun _ _ => hmode⟩
  | true =>
    refine ⟨fun hidle => ?_, fun _ hn => nomatch hn⟩
    rcases exec_pair_next hx hi with ⟨-, hend⟩ | ⟨-, tag, hp⟩
    · exact hend
    · rw [hidle] at hp
      nomatch hp

/-! ### The bound on a resolution's steps (R163, R368, R415) -/

/-- How many more steps a resolution can take under the chain limit `m`: two for each fetch that is left, one for the tag that is
pending, and one more for a pair before it (log entry 6). -/
def stepsLeft (m : Nat) (s : State) : Nat :=
  match s.phase with
  | .idle => 0
  | .dispatch _ => 2 * (m - s.depth) + 1
  | .pair _ => 2 * (m - s.depth) + 2

section
variable {m : Nat} {s t : State}

theorem stepsLeft_idle (h : s.phase = .idle) : stepsLeft m s = 0 := by rw [stepsLeft, h]

theorem stepsLeft_dispatch {tag : Tag} (h : s.phase = .dispatch tag) : stepsLeft m s = 2 * (m - s.depth) + 1 := by
  rw [stepsLeft, h]

theorem stepsLeft_pair {w : Word36} (h : s.phase = .pair w) : stepsLeft m s = 2 * (m - s.depth) + 2 := by
  rw [stepsLeft, h]

theorem stepsLeft_le (m : Nat) (s : State) : stepsLeft m s ≤ 2 * (m - s.depth) + 2 := by
  unfold stepsLeft
  split <;> omega

/-- A step of a resolution leaves fewer steps: it ends, it spends a fetch, or it goes from a pair to a tag. -/
theorem stepsLeft_lt (hm : s.config.maxIndirectDepth = some m) (hp : s.phase ≠ .idle) (hx : step s = .next t) :
    stepsLeft m t < stepsLeft m s := by
  cases hs : s.phase with
  | idle => exact absurd hs hp
  | dispatch tag =>
    rw [step_dispatch hs] at hx
    rw [stepsLeft_dispatch hs]
    rcases exec_tag_next hx (isPair_decodeTag tag) with ⟨ht, -⟩ | ⟨-, hw, ⟨hd, -⟩, -⟩
    · rw [stepsLeft_idle ht]
      omega
    · have hlt : s.depth < m := hw m hm
      have hle := stepsLeft_le m t
      rw [hd, counted_depth] at hle
      omega
  | pair w =>
    rw [step_pair hs] at hx
    rw [stepsLeft_pair hs]
    rcases exec_pair_next hx (isPair_decodePointerPair w) with ⟨ht, -⟩ | ⟨⟨hd, -⟩, tag, ht⟩
    · rw [stepsLeft_idle ht]
      omega
    · rw [stepsLeft_dispatch ht, hd]
      omega

/-- A step of a resolution runs one instruction. -/
theorem step_in_progress (hp : s.phase ≠ .idle) : ∃ instr, step s = exec instr s := by
  cases hs : s.phase with
  | idle => exact absurd hs hp
  | dispatch tag => exact ⟨_, step_dispatch hs⟩
  | pair w => exact ⟨_, step_pair hs⟩

/-- A step of a resolution has a next state with the same parameters, or is the refusal of an unwritten word (R369). -/
theorem step_cases_in_progress (hp : s.phase ≠ .idle) :
    (∃ t, step s = .next t ∧ t.config = s.config) ∨ ∃ pa, step s = .refused (.unwritten pa) := by
  obtain ⟨instr, hstep⟩ := step_in_progress hp
  rw [hstep]
  cases hx : exec instr s with
  | next t =>
    obtain ⟨-, -, -, -, -, -, -, -, hconfig, -⟩ := exec_sameInputs hx
    exact .inl ⟨t, rfl, hconfig⟩
  | fault f => exact absurd ((exec_eq_complete instr s).symm.trans hx) (complete_ne_fault _ s f)
  | refused r =>
    obtain ⟨pa, rfl, -⟩ := exec_refused hx
    exact .inr ⟨pa, rfl⟩

end

/-- After `k` steps from `s` the resolution is over, or has been refused for an unwritten word. -/
def OverAfter (k : Nat) (s : State) : Prop :=
  (∃ t : State, Host.Core.run Sys2Proof.core k s = .next t ∧ t.phase = .idle) ∨
    ∃ pa, Host.Core.run Sys2Proof.core k s = .refused (Refusal.unwritten pa)

theorem OverAfter.step {k : Nat} {s t : State} (hx : step s = .next t) (h : OverAfter k t) : OverAfter (k + 1) s := by
  rwa [OverAfter, run_of_next hx]

/-- A resolution is over when its steps are spent, by induction on their number. -/
theorem overAfter_of_stepsLeft_le {m n : Nat} {s : State} (hm : s.config.maxIndirectDepth = some m) (hn : stepsLeft m s ≤ n) :
    ∃ k ≤ n, OverAfter k s := by
  induction n generalizing s with
  | zero =>
    refine ⟨0, le_rfl, .inl ⟨s, rfl, ?_⟩⟩
    unfold stepsLeft at hn
    split at hn
    · assumption
    · omega
    · omega
  | succ n ih =>
    by_cases hp : s.phase = .idle
    · exact ⟨0, Nat.zero_le _, .inl ⟨s, rfl, hp⟩⟩
    · rcases step_cases_in_progress hp with ⟨t, hx, hconfig⟩ | ⟨pa, hx⟩
      · have hlt := stepsLeft_lt hm hp hx
        obtain ⟨k, hk, hover⟩ := ih (s := t) (hconfig ▸ hm) (by omega)
        exact ⟨k + 1, Nat.succ_le_succ hk, hover.step hx⟩
      · exact ⟨1, by omega, .inr ⟨pa, run_of_refused hx 0⟩⟩

/-- Settles O59: a resolution has at most `2m + 2` steps left (`stepsLeft_le`), whatever its depth and phase. -/
theorem boundedResolutionEnds : Obligations.BoundedResolutionEnds := by
  intro s m hm _
  refine overAfter_of_stepsLeft_le hm ((stepsLeft_le m s).trans ?_)
  omega

end Sys2Proof.Machine
end

section
/-! SUPPORT. The IT tags: what each answers, and where it faults before a write (O32 to O38). -/

namespace Sys2Proof.Machine

/-! ### After the tally word (R221, R225) -/

section
variable {s u t : State} {w : Word36}

/-- The fetch of a tally word answers its address with the word. -/
theorem tallyFetch_of_read (h : TallyRead s w u) : tallyFetch s = .ok (s.tpr.ca, w) u :=
  tallyFetch_eq_ok.2 ⟨rfl, h⟩

/-- What follows the fetch of a tally word runs in the state that the read leaves. -/
theorem tallyFetch_bind_of_read {k : Word18 × Word36 → Act Unit} (h : TallyRead s w u) :
    (tallyFetch >>= k) s = k (s.tpr.ca, w) u :=
  bind_of_ok (tallyFetch_of_read h)

/-- A character position beyond its size faults with nothing changed (R225). -/
theorem checkCharPosition_of_ge (h : charsOf w ≤ (wordCf w).toNat) (s : State) :
    checkCharPosition w s = .error (.fault (.illegalModifier .charPosition)) s := by
  have hb : charPositionBad (wordCharSize w) (wordCf w) = true := by
    simpa only [charPositionBad, charCount_wordCharSize, decide_eq_true_eq] using h
  rw [checkCharPosition, hb, raiseIf_true]

/-- The size of a tally word's characters with their number is the pair that its bit 5 tells (R130, R225). -/
theorem charSize_and_count {sz : CharSize} {n : Nat} (h : (sz, n) = if w.getLsbD 5 then (.nine, 4) else (.six, 6)) :
    sz = wordCharSize w ∧ n = charsOf w := by
  rw [wordCharSize, charsOf]
  split at h
  next hb => rw [if_pos hb, if_pos hb]; exact Prod.mk.inj h
  next hb => rw [if_neg hb, if_neg hb]; exact Prod.mk.inj h

theorem finalWordAt_of_end {ca : Word18} (h : WordEnd (withCa ca s) t) : finalWordAt ca s = .ok () t :=
  finalWord_eq_ok.2 h

theorem finalCharAt_of_end {ca : Word18} {sz : CharSize} {cf : BitVec 3} (h : CharEnd (withCa ca s) sz cf t) :
    finalCharAt ca sz cf s = .ok () t :=
  finalChar_eq_ok.2 h

/-- A sequence instruction whose word is rewritten ends in the character that its row of the table names (R228, R229). -/
theorem exec_of_sequenceRow {instr : Instr} {fy fa : Word36 → Word18} {ft : Word36 → BitVec 12} {fl : Word36 → BitVec 6}
    {fk : Word36 → BitVec 3} (hrow : (instr, fy, ft, fl, fa, fk) ∈ sequenceRows) (hp : TallyPerformed s)
    (hcf : (wordCf w).toNat < charsOf w) (hu : TallyUpdated (leaveChain s) w (fy w) (ft w) (fl w) u)
    (ht : CharEnd (withCa (fa w) u) (wordCharSize w) (fk w) t) : exec instr s = .next t := by
  refine exec_of_ok ?_
  rw [meaning_of_sequenceRows _ hrow, tallyTag_of_performed hp]
  exact (tallyUpdate_of_updated hu (checkCharPosition_of_lt hcf)).trans (finalCharAt_of_end ht)

/-- The three instructions that name a character check its position right after the fetch of the tally word (R225). -/
theorem meaning_of_characterTags : ∀ instr ∈ [Instr.ci, .sc, .scr], ∃ k : Word18 × Word36 → Act Unit,
    meaning instr = tallyTag (tallyFetch >>= fun tw => checkCharPosition tw.2 >>= fun _ => k tw) := by
  intro instr h
  fin_cases h <;> exact ⟨_, rfl⟩

end

/-! ### The modifications that go through -/

/-- Settles O32: the rows of the table by `tallyUpdate`, then the final word access. -/
theorem wordTallyCompletes : Obligations.WordTallyCompletes := by
  intro instr fy ft fa hrow s t u w hp hu ht
  refine exec_of_ok ?_
  rw [meaning_of_wordTallyRows _ hrow, tallyTag_of_performed hp]
  exact (tallyUpdate_of_updated hu fun _ => rfl).trans (finalWordAt_of_end ht)

/-- Settles O33: the rows of the table by `tallyUpdate`, then the dispatch of the continuation tag. -/
theorem continueTallyCompletes : Obligations.ContinueTallyCompletes := by
  intro instr fy ft fa hrow s u w hp hu
  refine exec_of_ok ?_
  rw [meaning_of_continueTallyRows _ hrow, tallyTag_of_performed hp]
  exact tallyUpdate_of_updated hu fun _ => rfl

/-- Settles O34: the first row of the table of sequence instructions. -/
theorem sequenceCharacterCompletes : Obligations.SequenceCharacterCompletes := by
  intro s t u w sz n hp hsz hcf hu ht
  obtain ⟨rfl, rfl⟩ := charSize_and_count hsz
  exact exec_of_sequenceRow (.head _) hp hcf hu ht

/-- Settles O35: the second row of the table of sequence instructions. -/
theorem sequenceCharacterReverseCompletes : Obligations.SequenceCharacterReverseCompletes := by
  rintro s t u w sz n y k hp hsz hcf rfl rfl hu ht
  obtain ⟨rfl, rfl⟩ := charSize_and_count hsz
  exact exec_of_sequenceRow (.tail _ (.head _)) hp hcf hu ht

/-- Settles O36: the fetch of the tally word, then the final access; CI checks the character position between them. -/
theorem tallyFreeCompletes : Obligations.TallyFreeCompletes := by
  intro s t u w hp hr
  refine ⟨fun sz n hsz hcf ht => exec_of_ok ?_, fun ht => exec_of_ok ?_⟩
  · obtain ⟨rfl, rfl⟩ := charSize_and_count hsz
    calc
      tallyTag characterIndirect s = characterIndirect (leaveChain s) := tallyTag_of_performed hp
      _ = (checkCharPosition w >>= fun _ => finalCharAt (wordY w) (wordCharSize w) (wordCf w)) u := tallyFetch_bind_of_read hr
      _ = finalCharAt (wordY w) (wordCharSize w) (wordCf w) u := bind_of_ok (checkCharPosition_of_lt hcf u)
      _ = .ok () t := finalCharAt_of_end ht
  · calc
      tallyTag plainIndirect s = plainIndirect (leaveChain s) := tallyTag_of_performed hp
      _ = finalWordAt (wordY w) u := tallyFetch_bind_of_read hr
      _ = .ok () t := finalWordAt_of_end ht

/-! ### The modifications that fault -/

/-- Settles O37: the check of the position stands before any write (`meaning_of_characterTags`). -/
theorem charPositionFaults : Obligations.CharPositionFaults := by
  intro instr hi s u w hp hr hcf
  obtain ⟨k, hm⟩ := meaning_of_characterTags instr hi
  refine exec_of_fault ?_
  rw [hm, tallyTag_of_performed hp]
  exact (tallyFetch_bind_of_read hr).trans (bind_of_error (checkCharPosition_of_ge hcf u))

/-- Settles O38: a reserved designator that is performed raises at once, having left the chain. -/
theorem reservedDesignatorsFault : Obligations.ReservedDesignatorsFault := by
  intro instr f hi s hp
  have hm : meaning instr = tallyTag (raise f) := by
    fin_cases hi <;> rfl
  refine exec_of_fault ?_
  rw [hm, tallyTag_of_performed hp]
  rfl

end Sys2Proof.Machine
end

section
/-! SUPPORT. Pointer pairs: what each answers, where it faults, and the effective ring, which only they change (O41 to O43, O48). -/

namespace Sys2Proof.Machine

/-! ### The pair's odd word (R255 to R257, R264) -/

section
variable {s u : State}

/-- In BAR mode a pair faults before its odd word is read (R264). -/
theorem pairOddWord_in_bar (h : s.addrMode = .bar) :
    pairOddWord s = .error (.fault (.illegalModifier .pointerPairInBar)) s := by
  have hb : (s.addrMode == .bar) = true := beq_iff_eq.2 h
  simp only [pairOddWord, act_bind, act_get, hb, raiseIf_true]

/-- A pair that begins at an odd address faults before its odd word is read (R256). -/
theorem pairOddWord_at_odd (hb : s.addrMode ≠ .bar) (h : s.tpr.ca.getLsbD 0 = true) :
    pairOddWord s = .error (.fault (.illegalModifier .pointerPairOdd)) s := by
  have hb' : (s.addrMode == .bar) = false := beq_eq_false_iff_ne.2 hb
  simp only [pairOddWord, act_bind, act_get, hb', h, raiseIf_false, raiseIf_true]

/-- A pair stops where a check or the read of its odd word faults. -/
theorem exec_pair_of_fault {instr : Instr} {f : Fault} (hi : isPair instr = true) (h : pairOddWord s = .error (.fault f) u) :
    exec instr s = .next (takeFault f u) := by
  obtain ⟨newTpr, hm⟩ := meaning_of_isPair hi
  refine exec_of_fault ?_
  rw [hm]
  exact bind_of_error h

/-! ### After the odd word (R258 to R262) -/

/-- A read leaves TPR, the pointer registers and the ring term (R303). -/
theorem ReadsAt.pairInputs {ca : Word18} {acc : Access} {w : Word36} {sdw : Option Sdw} (h : ReadsAt s ca acc w sdw u) :
    u.tpr = s.tpr ∧ u.pr = s.pr ∧ u.ringTerm = s.ringTerm := by
  rw [memRead_accessOnly (memRead_eq_ok.2 h)]
  exact ⟨rfl, rfl, rfl⟩

/-- Outside BAR mode an escalation leaves APPENDING mode (R262). -/
theorem escalate_dispatch_eq_afterPair (hb : u.addrMode ≠ .bar) (tpr : Tpr) (odd : Word36) :
    withPhase (.dispatch (pairMod odd)) (escalate { u with tpr := tpr }) = afterPair tpr odd u := by
  have hm : (if u.addrMode = .absolute then .appending else u.addrMode) = AddrMode.appending := by
    cases ha : u.addrMode with
    | bar => exact absurd ha hb
    | absolute | appending => rfl
  simp only [withPhase, escalate, afterPair, hm, pairMod]

/-- A pair whose odd word is read goes on with the new TPR, escalated, to the odd word's MOD (R255, R260, R262). -/
theorem pointerPair_of_read {newTpr : Word36 → State → Tpr} {odd : Word36} {sdw : Option Sdw} (hb : s.addrMode ≠ .bar)
    (hc : s.tpr.ca.getLsbD 0 = false) (hr : ReadsAt s (s.tpr.ca + 1#18) .indirectRead odd sdw u) :
    pointerPair newTpr s = .ok () (afterPair (newTpr odd u) odd u) := by
  rw [← escalate_dispatch_eq_afterPair (hr.addrMode ▸ hb)]
  exact bind_of_ok (pairOddWord_eq_ok.2 ⟨hb, hc, sdw, hr⟩)

end

/-- The largest of three rings (R258, R259). -/
theorem ringMax_ringMax_eq (p q r : Ring) :
    ringMax (ringMax p q) r = BitVec.ofNat 3 (max (max p.toNat q.toNat) r.toNat) := by
  have hlt : max p.toNat q.toNat < 2 ^ 3 := max_lt p.isLt q.isLt
  rw [ringMax_eq, ringMax_eq, BitVec.toNat_ofNat, Nat.mod_eq_of_lt hlt]

/-- Settles O41, by `pointerPair_of_read`. -/
theorem itsPairCompletes : Obligations.ItsPairCompletes := by
  intro segno rn s u odd sdw hb hc hr
  obtain ⟨htpr, -, hring⟩ := hr.pairInputs
  refine exec_of_ok ((pointerPair_of_read hb hc hr).trans ?_)
  rw [itsTpr, ringMax_ringMax_eq, htpr, hring, pairBitno, pairWordno]

/-- Settles O42, by `pointerPair_of_read`. -/
theorem itpPairCompletes : Obligations.ItpPairCompletes := by
  rintro prnum p s u odd sdw hb hc hr rfl
  obtain ⟨htpr, hpr, hring⟩ := hr.pairInputs
  have hget : getPr u prnum = s.pr[prnum.toNat] := by rw [getPr, hpr]; rfl
  refine exec_of_ok ((pointerPair_of_read hb hc hr).trans ?_)
  rw [itpTpr, ringMax_ringMax_eq, htpr, hring, hget, pairBitno, pairWordno]

/-- Settles O43: both checks stand before the read of the odd word. -/
theorem pairFaults : Obligations.PairFaults := fun _ _ hi =>
  ⟨fun hb => exec_pair_of_fault hi (pairOddWord_in_bar hb), fun hb hc => exec_pair_of_fault hi (pairOddWord_at_odd hb hc)⟩

/-! ### The effective ring (R242, R379) -/

/-- TPR's ring, segment and bit offset are the same. -/
def SamePlace (s t : State) : Prop := t.tpr.trr = s.tpr.trr ∧ t.tpr.tsr = s.tpr.tsr ∧ t.tpr.tbr = s.tpr.tbr

theorem samePlace_chains : Chains SamePlace where
  refl _ := ⟨rfl, rfl, rfl⟩
  trans := fun ⟨hr, hs, hb⟩ ⟨hr', hs', hb'⟩ => ⟨hr'.trans hr, hs'.trans hs, hb'.trans hb⟩

theorem samePlace_modifier : ModifierChain SamePlace where
  toFinalChain := finalChain_of_access
    (accessChain_of_any samePlace_chains (fun _ _ _ => samePlace_chains.refl) (fun _ _ _ s _ => samePlace_chains.refl s)
      (fun _ => samePlace_chains.refl) fun _ => samePlace_chains.refl)
    (fun _ _ => ⟨rfl, rfl, rfl⟩) fun _ => samePlace_chains.refl
  goOn _ := samePlace_chains.refl
  pair _ _ s _ := samePlace_chains.refl s
  count := samePlace_chains.refl

/-- A tag changes neither TPR's ring nor its segment nor its bit offset (R242). -/
theorem exec_samePlace {instr : Instr} {s t : State} (hi : isPair instr = false) (hx : exec instr s = .next t) : SamePlace s t :=
  exec_keeps samePlace_modifier (fun _ _ => samePlace_chains.refl) (fun _ => samePlace_chains.refl)
    (fun _ _ => samePlace_chains.refl) (fun hp => absurd hp (Bool.eq_false_iff.1 hi)) hx

/-- The effective ring is no lower. -/
def RingRises (s t : State) : Prop := s.tpr.trr ≤ t.tpr.trr

theorem ringRises_of_samePlace {s t : State} (h : SamePlace s t) : RingRises s t := by
  obtain ⟨hr, -, -⟩ := h
  exact BitVec.le_of_eq hr.symm

theorem ringRises_final : FinalChain RingRises where
  toChains := ⟨fun _ => BitVec.le_refl _, BitVec.le_trans⟩
  read ca acc s := ringRises_of_samePlace (samePlace_modifier.read ca acc s)
  write ca w acc s := ringRises_of_samePlace (samePlace_modifier.write ca w acc s)
  ca ca s := ringRises_of_samePlace (samePlace_modifier.ca ca s)
  ended r s := ringRises_of_samePlace (samePlace_modifier.ended r s)

theorem le_ringMax (r t : Ring) : t ≤ ringMax r t := by
  unfold ringMax
  split
  · exact BitVec.le_refl t
  · rename_i h
    exact BitVec.not_lt.1 h

/-- A pair takes the largest of its own ring, the ring term and the effective ring (R258, R259). -/
theorem exec_pair_ringRises {instr : Instr} {s t : State} (hi : isPair instr = true) (hx : exec instr s = .next t) :
    RingRises s t := by
  have hpair {newTpr : Word36 → State → Tpr} (hr : ∀ odd u, u.tpr.trr ≤ (newTpr odd u).trr) :
      Keeps RingRises (pointerPair newTpr) :=
    keeps_pointerPair ringRises_final (fun _ s => BitVec.le_refl s.tpr.trr) hr
  rw [exec_eq_complete] at hx
  refine complete_keeps ringRises_final ?_ hx
  cases instr
  case itsPair => exact hpair fun _ _ => le_ringMax _ _
  case itpPair => exact hpair fun _ _ => le_ringMax _ _
  all_goals cases hi

/-- Settles O48: a tag leaves TPR's ring, segment and bit offset (`exec_samePlace`), and a pair's ring is a largest
(`exec_pair_ringRises`). -/
theorem ringNeverFalls : Obligations.RingNeverFalls := by
  intro instr s t hx
  cases hi : isPair instr with
  | false => exact ⟨ringRises_of_samePlace (exec_samePlace hi hx), fun _ => exec_samePlace hi hx⟩
  | true => exact ⟨exec_pair_ringRises hi hx, fun hn => nomatch hn⟩

end Sys2Proof.Machine
end

section
/-! SUPPORT. What the fault of an operand's access leaves: TRO, and memory where no page table word is written back (O46). -/

namespace Sys2Proof.Machine

/-! ### Accesses where no page table word is written back (R300, R303) -/

/-- TRO and the parameters are the same, and where PTW_WRITEBACK is off so is memory. -/
def KeepsRewrite (s t : State) : Prop :=
  t.tro = s.tro ∧ t.config = s.config ∧ (s.config.ptwWriteback = false → t.mem = s.mem)

theorem keepsRewrite_chains : Chains KeepsRewrite where
  refl _ := ⟨rfl, rfl, fun _ => rfl⟩
  trans := fun ⟨ht, hc, hm⟩ ⟨ht', hc', hm'⟩ => ⟨ht'.trans ht, hc'.trans hc, fun hw => (hm' (hc ▸ hw)).trans (hm hw)⟩

/-- Where an action runs under PTW_WRITEBACK alone, memory need only be kept where it does not run. -/
theorem keepsRewrite_guarded {s : State} {b : Bool} {m : Act Unit} (hm : AccessOnly s (leaves m s)) :
    KeepsRewrite s (leaves (if s.config.ptwWriteback && b then m else pure ()) s) := by
  cases hw : s.config.ptwWriteback
  · exact keepsRewrite_chains.refl s
  · have hk : KeepsRewrite s (leaves m s) := by
      rw [hm]
      exact ⟨rfl, rfl, fun hn => by rw [hw] at hn; nomatch hn⟩
    cases b
    · exact keepsRewrite_chains.refl s
    · exact hk

/-- An action that keeps the rewrite of a tally word. A page table word's write-back does not, so the chains of the accesses, which
ask for it, do not serve here. -/
abbrev SavesRewrite {α : Type} (m : Act α) : Prop := Keeps KeepsRewrite m

namespace SavesRewrite

variable {α β : Type}

theorem pure (a : α) : SavesRewrite (pure a : Act α) := keeps_pure keepsRewrite_chains a

theorem read_bind {f : State → α} {k : α → Act β} (hk : ∀ a, SavesRewrite (k a)) : SavesRewrite (read f >>= k) :=
  keeps_bind keepsRewrite_chains (keeps_read keepsRewrite_chains f) hk

theorem raiseIf_bind {c : Bool} {f : Fault} {k : Unit → Act β} (hk : ∀ a, SavesRewrite (k a)) :
    SavesRewrite (raiseIf c f >>= k) :=
  keeps_bind keepsRewrite_chains (keeps_raiseIf keepsRewrite_chains c f) hk

theorem bind {m : Act α} {k : α → Act β} (hm : SavesRewrite m) (hk : ∀ a, SavesRewrite (k a)) : SavesRewrite (m >>= k) :=
  keeps_bind keepsRewrite_chains hm hk

theorem sdwam (f : State → Am Sdw) : SavesRewrite (update fun s => { s with sdwam := f s }) :=
  fun _ => ⟨rfl, rfl, fun _ => rfl⟩

theorem ptwam (f : State → Am Ptw) : SavesRewrite (update fun s => { s with ptwam := f s }) :=
  fun _ => ⟨rfl, rfl, fun _ => rfl⟩

theorem physRead (pa : Word24) (acc : AccessType) : SavesRewrite (physRead pa acc) := fun s =>
  ⟨keeps_physRead_eq (·.tro) (fun _ _ => rfl) pa acc s, keeps_physRead_eq (·.config) (fun _ _ => rfl) pa acc s,
    fun _ => keeps_physRead_eq (·.mem) (fun _ _ => rfl) pa acc s⟩

theorem getSdw (tsr : Segno) : SavesRewrite (getSdw tsr) := by
  have hread : SavesRewrite (readSdw tsr) :=
    read_bind fun _ => raiseIf_bind fun _ => bind (keeps_sdwAddress_of keepsRewrite_chains physRead tsr) fun _ =>
      bind (physRead _ _) fun _ => bind (physRead _ _) fun _ => raiseIf_bind fun _ => pure _
  refine read_bind fun am => ?_
  split
  · exact bind (sdwam _) fun _ => pure _
  · exact bind hread fun _ => bind (sdwam _) fun _ => pure _

theorem writeBackUsed (pta : Word24) (w : Word36) : SavesRewrite (writeBackUsed pta w) := fun s =>
  keepsRewrite_guarded (keeps_writeBack accessOnly_chain.toReadChain pta _ s)

theorem getPtw (tsr : Segno) (page : Word18) (pta : Word24) : SavesRewrite (getPtw tsr page pta) := by
  refine read_bind fun am => ?_
  split
  · exact bind (ptwam _) fun _ => pure _
  · exact bind (physRead _ _) fun _ => raiseIf_bind fun _ => bind (read_bind fun _ => bind (ptwam _) fun _ => pure _) fun _ =>
      bind (writeBackUsed _ _) fun _ => pure _

theorem markModified (j : Fin 64) (pta : Word24) : SavesRewrite (markModified j pta) :=
  bind (ptwam _) fun _ s => keepsRewrite_guarded <|
    keeps_bind accessOnly_chain.toChains (keeps_physRead accessOnly_chain.toReadChain _ _)
      (fun _ => keeps_writeBack accessOnly_chain.toReadChain _ _) s

theorem translate (trr : Ring) (tsr : Segno) (ca : Word18) (acc : Access) : SavesRewrite (translate trr tsr ca acc) := by
  have hpaged (d : Sdw) : SavesRewrite (pagedAddress d tsr ca acc) :=
    read_bind fun _ => bind (getPtw _ _ _) fun _ => bind (keeps_ite _ (markModified _ _) (pure _)) fun _ => read_bind fun _ => pure _
  exact bind (getSdw tsr) fun d => raiseIf_bind fun _ => keeps_ite _ (pure _) (bind (hpaged d) fun _ => pure _)

theorem formAddress (ca : Word18) (acc : Access) : SavesRewrite (formAddress ca acc) := by
  refine bind (keeps_get keepsRewrite_chains) fun s => ?_
  split
  · exact pure _
  · exact bind (translate _ _ _ _) fun _ => pure _
  · exact bind (read_bind fun _ => raiseIf_bind fun _ => pure _) fun _ => pure _

theorem memRead (ca : Word18) (acc : Access) : SavesRewrite (memRead ca acc) :=
  bind (formAddress ca acc) fun _ => bind (physRead _ _) fun _ => pure _

end SavesRewrite

section
variable {s t : State} {f : Fault}

/-- A write that faults has stored nothing: the check that its word exists comes before the store (R84). -/
theorem keepsRewrite_of_memWrite_error {ca : Word18} {w : Word36} {acc : Access} {e : Stop}
    (h : memWrite ca w acc s = .error e t) : KeepsRewrite s t := by
  rcases bind_eq_error.1 h with h | ⟨r, u, hu, h⟩
  · exact keeps_of_error (SavesRewrite.formAddress ca acc) h
  · rcases physWrite_cases r.1 w (.logical acc) u with ⟨-, h'⟩ | ⟨-, h'⟩ <;> rw [h'] at h
    · cases h
      exact keeps_of_ok (SavesRewrite.formAddress ca acc) hu
    · nomatch h

theorem WordFaults.keepsRewrite (h : WordFaults s f t) : KeepsRewrite s t := by
  unfold WordFaults at h
  split at h
  · exact keeps_of_error (SavesRewrite.memRead _ _) h
  · exact keepsRewrite_of_memWrite_error h
  · exact h.elim

theorem CharFaults.keepsRewrite {sz : CharSize} {cf : BitVec 3} (h : CharFaults s sz cf f t) : KeepsRewrite s t := by
  unfold CharFaults at h
  split at h
  · exact keeps_of_error (SavesRewrite.memRead _ _) h
  · rcases h with h | ⟨w, sdw, u, hr, h⟩
    · exact keeps_of_error (SavesRewrite.memRead _ _) h
    · exact keepsRewrite_chains.trans (keeps_of_ok (SavesRewrite.memRead _ _) (memRead_eq_ok.2 hr))
        (keepsRewrite_of_memWrite_error h)
  · exact h.elim

end

/-! ### The tally word's rewrite (R224) -/

section
variable {s u : State} {w : Word36} {y : Word18} {c : BitVec 12} {l : BitVec 6}

/-- A tally word is updated by a fetch and a rewrite. -/
theorem tallyUpdated_iff : TallyUpdated s w y c l u ↔
    ∃ v, tallyFetch s = .ok (s.tpr.ca, w) v ∧ tallyRewrite s.tpr.ca y c l v = .ok () u := by
  simp only [TallyUpdated, tallyFetch_eq_ok, tallyRewrite_eq_ok, true_and]
  exact ⟨fun ⟨v, v', hr, hw, he⟩ => ⟨v, hr, v', hw, he⟩, fun ⟨v, hr, v', hw, he⟩ => ⟨v, v', hr, hw, he⟩⟩

/-- The update of a tally word keeps the inputs (R48). -/
theorem TallyUpdated.sameInputs (h : TallyUpdated s w y c l u) : SameInputs s u := by
  obtain ⟨v, hf, hr⟩ := tallyUpdated_iff.1 h
  exact sameInputs_chains.trans (keeps_of_ok (keeps_tallyFetch sameInputs_modifier) hf)
    (keeps_of_ok (keeps_tallyRewrite sameInputs_modifier (fun _ => sameInputs_chains.refl) _ _ _ _) hr)

/-- The update of a tally word leaves TRO at its new tally, and what keeps it leaves it there; memory stays as rewritten where no page
table word is written back (R223, R224). -/
theorem TallyUpdated.kept {v : State} (h : TallyUpdated s w y c l u) (hk : KeepsRewrite u v) :
    v.tro = decide (c = 0#12) ∧ (s.config.ptwWriteback = false → v.mem = u.mem) := by
  obtain ⟨-, -, -, -, -, -, -, -, hconfig, -, -⟩ := h.sameInputs
  obtain ⟨u', v', -, -, rfl⟩ := h
  obtain ⟨htro, -, hmem⟩ := hk
  exact ⟨htro, fun hw => hmem (hconfig ▸ hw)⟩

end

/-- Settles O46: the fault is the instruction's (`exec_of_accessRaises`), and the access that faults undoes nothing of the rewrite
(`WordFaults.keepsRewrite`, `CharFaults.keepsRewrite`). -/
theorem operandFaultKeepsRewrite : Obligations.OperandFaultKeepsRewrite := by
  constructor
  · intro instr fy ft fa hrow s u v w f hp hu hf
    have hk : KeepsRewrite u v := hf.keepsRewrite
    exact ⟨exec_of_accessRaises (.tallyOperand hrow hp hu hf), hu.kept hk⟩
  · intro instr fy ft fl fa fk hrow s u v w f hp hcf hu hf
    have hk : KeepsRewrite u v := hf.keepsRewrite
    exact ⟨exec_of_accessRaises (.tallyCharacter hrow hp hcf hu hf), hu.kept hk⟩

end Sys2Proof.Machine
end

section
/-! SUPPORT. The words an IT tag may change: the tally word rewritten, the word stored, and the page table words written back (O53 to
O56). -/

namespace Sys2Proof.Machine

/-! ### The rewrite and the final accesses -/

/-- The rewrite of the tally word at TPR.CA, after its fetch from `s`, forms no address of the word at `a` (R224). -/
def RewritesElsewhere (a : Nat) (s : State) : Prop :=
  ∀ w u r v, TallyRead s w u → formAddress s.tpr.ca .indirectWrite u = .ok r v → r.1.toNat ≠ a

/-- The final character access from `s`, where it is a store, forms after its read no address of the word at `a` (R226). -/
def StoresCharElsewhere (a : Nat) (s : State) : Prop :=
  ∀ x, s.op = .write x → ∀ c sdw u r v, ReadsAt s s.tpr.ca .operandRead c sdw u →
    formAddress s.tpr.ca .operandWrite u = .ok r v → r.1.toNat ≠ a

section
variable {a : Nat} {s : State}

/-- The final character access spares every word but the one it stores into (R226). -/
theorem spares_finalChar_of_elsewhere (h : StoresCharElsewhere a s) (sz : CharSize) (cf : BitVec 3) :
    Spares a s (leaves (finalChar sz cf) s) := by
  cases hop : s.op with
  | write x =>
    unfold finalChar
    rw [leaves_bind_of_ok (read_apply _ s), leaves_bind_of_ok (read_apply _ s), hop]
    refine leaves_bind spares_chains (SparesWord.memRead _ _ s) fun r u hr => ?_
    have hne := fun r' v => h x hop r.1 r.2 u r' v (memRead_eq_ok.1 hr)
    exact leaves_bind spares_chains (SparesWord.memWrite hne _) fun _ v _ => SparesWord.finish _ v
  | read | prepareOnly => exact spares_finalChar (fun x => by simp [hop]) sz cf

theorem spares_finalWordAt {ca : Word18} (h : StoresElsewhere a (withCa ca s)) : Spares a s (leaves (finalWordAt ca) s) :=
  spares_finalWord h

theorem spares_finalCharAt {ca : Word18} (h : StoresCharElsewhere a (withCa ca s)) (sz : CharSize) (cf : BitVec 3) :
    Spares a s (leaves (finalCharAt ca sz cf) s) :=
  spares_finalChar_of_elsewhere h sz cf

theorem spares_continueAt (ca : Word18) (ct : BitVec 6) : Spares a s (leaves (continueAt ca ct) s) :=
  spares_of_eq rfl rfl

/-! ### After the tally word -/

/-- The check of a character position leaves the state alone (R225). -/
theorem checkCharPosition_keeps_state (w : Word36) : Keeps (fun s t => t = s) (checkCharPosition w) :=
  keeps_raiseIf (chains_eq fun s => s) _ _

/-- The fetch of a tally word may stand before what spares a word in the state that the read leaves (R221). -/
theorem spares_tallyFetch_then {k : Word18 × Word36 → Act Unit}
    (hk : ∀ w u, TallyRead s w u → Spares a u (leaves (k (s.tpr.ca, w)) u)) : Spares a s (leaves (tallyFetch >>= k) s) := by
  refine leaves_bind spares_chains (SparesWord.tallyFetch s) fun tw u hu => ?_
  obtain ⟨ca, w⟩ := tw
  obtain ⟨rfl, hr⟩ := tallyFetch_eq_ok.1 hu
  exact hk w u hr

/-- A check that leaves the state alone may stand before what spares a word. -/
theorem spares_check_then {check : Act Unit} (hc : Keeps (fun s t => t = s) check) {m : Act Unit} (hm : Spares a s (leaves m s)) :
    Spares a s (leaves (check >>= fun _ => m) s) := by
  refine leaves_bind spares_chains ((hc s).symm ▸ spares_chains.refl s) fun _ u hu => ?_
  rwa [keeps_of_ok hc hu]

/-- A tally update spares every word but the tally word, where what follows it spares them (R221, R224). -/
theorem spares_tallyUpdate {check : Word36 → Act Unit} {fy : Word36 → Word18} {ft : Word36 → BitVec 12} {fl : Word36 → BitVec 6}
    {k : Word36 → Act Unit} (hc : ∀ w, Keeps (fun s t => t = s) (check w)) (hw : RewritesElsewhere a s)
    (hk : ∀ w u, TallyUpdated s w (fy w) (ft w) (fl w) u → Spares a u (leaves (k w) u)) :
    Spares a s (leaves (tallyUpdate check fy ft fl k) s) := by
  refine spares_tallyFetch_then fun w u hr => spares_check_then (hc w) ?_
  have hrewrite : Spares a u (leaves (tallyRewrite s.tpr.ca (fy w) (ft w) (fl w)) u) :=
    leaves_bind spares_chains (SparesWord.memWrite (fun r v => hw w u r v hr) _) fun _ _ _ => spares_of_eq rfl rfl
  exact leaves_bind spares_chains hrewrite fun _ v hv => hk w v (tallyUpdated_iff.2 ⟨u, tallyFetch_of_read hr, hv⟩)

/-- An operation that is no write is none after the update of a tally word. -/
theorem TallyUpdated.no_write {u : State} {w : Word36} {y : Word18} {c : BitVec 12} {l : BitVec 6} (h : TallyUpdated s w y c l u)
    (hop : ∀ x, s.op ≠ .write x) (x : Word36) : u.op ≠ .write x := by
  obtain ⟨-, -, -, -, -, -, -, -, -, heq, -⟩ := h.sameInputs
  rw [heq]
  exact hop x

/-! ### The families -/

section
variable {instr : Instr} {fy fa : Word36 → Word18} {ft : Word36 → BitVec 12} {fl : Word36 → BitVec 6} {fk : Word36 → BitVec 3}

/-- AD, SD, DI and ID spare every word but the tally word and the word stored (R230 to R233). -/
theorem spares_wordTally (hrow : (instr, fy, ft, fa) ∈ wordTallyRows) (hw : RewritesElsewhere a (leaveChain s))
    (hs : ∀ w u, TallyUpdated (leaveChain s) w (fy w) (ft w) (wordLow6 w) u → StoresElsewhere a (withCa (fa w) u)) :
    Spares a s (leaves (meaning instr) s) := by
  rw [meaning_of_wordTallyRows _ hrow]
  exact spares_tallyTag <| spares_tallyUpdate (fun _ => keeps_pure (chains_eq fun s => s) _) hw fun w u hu =>
    spares_finalWordAt (hs w u hu)

/-- DIC and IDC spare every word but the tally word (R234, R236). -/
theorem spares_continueTally (hrow : (instr, fy, ft, fa) ∈ continueTallyRows) (hw : RewritesElsewhere a (leaveChain s)) :
    Spares a s (leaves (meaning instr) s) := by
  rw [meaning_of_continueTallyRows _ hrow]
  exact spares_tallyTag <| spares_tallyUpdate (fun _ => keeps_pure (chains_eq fun s => s) _) hw fun _ _ _ =>
    spares_continueAt _ _

/-- SC and SCR spare every word but the tally word and the word stored into (R228, R229). -/
theorem spares_sequence (hrow : (instr, fy, ft, fl, fa, fk) ∈ sequenceRows) (hw : RewritesElsewhere a (leaveChain s))
    (hs : ∀ w u, TallyUpdated (leaveChain s) w (fy w) (ft w) (fl w) u → StoresCharElsewhere a (withCa (fa w) u)) :
    Spares a s (leaves (meaning instr) s) := by
  rw [meaning_of_sequenceRows _ hrow]
  exact spares_tallyTag <| spares_tallyUpdate checkCharPosition_keeps_state hw fun w u hu => spares_finalCharAt (hs w u hu) _ _

end

/-- Every tally-bearing instruction that ends in no store spares every word but the tally word. -/
theorem spares_tallyBearing {instr : Instr} (hi : instr ∈ tallyBearing)
    (hop : instr ∈ [Instr.dic, .idc] ∨ ∀ x, s.op ≠ .write x) (hw : RewritesElsewhere a (leaveChain s)) :
    Spares a s (leaves (meaning instr) s) := by
  have word {fy ft fa} (hrow : (instr, fy, ft, fa) ∈ wordTallyRows) (hop : ∀ x, s.op ≠ .write x) :
      Spares a s (leaves (meaning instr) s) :=
    spares_wordTally hrow hw fun _ _ hu => storesElsewhere_of_no_write (hu.no_write hop)
  have sequence {fy ft fl fa fk} (hrow : (instr, fy, ft, fl, fa, fk) ∈ sequenceRows) (hop : ∀ x, s.op ≠ .write x) :
      Spares a s (leaves (meaning instr) s) :=
    spares_sequence hrow hw fun _ _ hu x hx => absurd hx (hu.no_write hop x)
  cases instr
  case ad => exact word (.head _) (hop.resolve_left (by simp))
  case sd => exact word (.tail _ (.head _)) (hop.resolve_left (by simp))
  case di => exact word (.tail _ (.tail _ (.head _))) (hop.resolve_left (by simp))
  case id => exact word (.tail _ (.tail _ (.tail _ (.head _)))) (hop.resolve_left (by simp))
  case dic => exact spares_continueTally (.head _) hw
  case idc => exact spares_continueTally (.tail _ (.head _)) hw
  case sc => exact sequence (.head _) (hop.resolve_left (by simp))
  case scr => exact sequence (.tail _ (.head _)) (hop.resolve_left (by simp))
  all_goals simp [tallyBearing] at hi

end

/-- Settles O53, by `spares_tallyBearing`. -/
theorem tallyRewriteFrame : Obligations.TallyRewriteFrame :=
  fun _ hi _ _ hop hx _ hb hw => exec_lookup (spares_tallyBearing hi hop hw) hx hb

/-- Settles O54, by `spares_wordTally`. -/
theorem wordTallyStoreFrame : Obligations.WordTallyStoreFrame :=
  fun _ _ _ _ hrow _ _ _ _ hx _ hb hw hs =>
    exec_lookup (spares_wordTally hrow hw fun w u hu _ _ r v => hs w u r v hu) hx hb

/-- Settles O55: I and CI store at the address of the tally word that was read, CI after its read of the operand's word. -/
theorem tallyFreeStoreFrame : Obligations.TallyFreeStoreFrame := by
  intro s t x _ a hb
  refine ⟨fun hx hs => exec_lookup (spares_tallyTag ?_) hx hb, fun hx hs => exec_lookup (spares_tallyTag ?_) hx hb⟩
  · exact spares_tallyFetch_then fun w u hr => spares_finalWordAt fun _ _ r v => hs w u r v hr
  · refine spares_tallyFetch_then fun w u hr => spares_check_then (checkCharPosition_keeps_state w) ?_
    exact spares_finalCharAt (fun _ _ c sdw u' r v => hs w u c sdw u' r v hr) _ _

/-- Settles O56, by `spares_sequence`. -/
theorem sequenceStoreFrame : Obligations.SequenceStoreFrame :=
  fun _ _ _ _ _ _ hrow _ _ _ _ hx _ hb hw hs =>
    exec_lookup (spares_sequence hrow hw fun w u hu _ _ c sdw u' r v => hs w u c sdw u' r v hu) hx hb

end Sys2Proof.Machine
end

section
/-! SUPPORT. The SDW of a reference and its access checks (O15 to O18): a held one, the two words of one that is not held, and every
failing check of an access. -/

namespace Sys2Proof.Machine

/-! ### A held descriptor (R320, R322, R330) -/

/-- The lookup finds the only entry that satisfies its test. -/
theorem amFind_of_unique {α : Type} {m : Am α} {p : AmEntry α → Bool} {i : Fin 64} (hi : p (m.get i) = true)
    (hu : ∀ j, p (m.get j) = true → j = i) : amFind m p = some i :=
  amFind_eq_some.2 ⟨hi, fun j hj => Bool.eq_false_iff.2 fun h => hj.ne (hu j h)⟩

/-- A held segment is found where it is held: no other full entry is for it (R320, R326). -/
theorem sdwamLookup_of_held {m : Am Sdw} {i : Fin 64} (hf : (m.get i).full = true) (hu : SdwamUnique m) :
    sdwamLookup m (m.get i).body.pointer = some i :=
  amFind_of_unique (sdwMatches_iff.2 ⟨hf, rfl⟩) fun j hj =>
    have ⟨hfull, hpointer⟩ := sdwMatches_iff.1 hj
    hu j i hfull hf hpointer

/-- A segment that no full entry is for is missed (R320). -/
theorem sdwamLookup_eq_none {m : Am Sdw} {tsr : Segno} :
    sdwamLookup m tsr = none ↔ ∀ i, (m.get i).full = true → (m.get i).body.pointer ≠ tsr := by
  simp only [sdwamLookup, amFind_eq_none, Bool.eq_false_iff, ne_eq, sdwMatches_iff, not_and]

/-! ### The address in an unpaged segment (R296) -/

/-- The address is the sum of base and offset, modulo 2^24 (R296). -/
theorem unpagedAddress_eq (d : Sdw) (ca : Word18) : unpagedAddress d ca = BitVec.ofNat 24 (d.addr.toNat + ca.toNat) := by
  rw [unpagedAddress, BitVec.ofNat_add, BitVec.ofNat_toNat, BitVec.ofNat_toNat, BitVec.setWidth_eq]

/-- Settles O15: the hit is `getSdw_of_hit` at the entry that holds the segment. -/
theorem heldSegmentAndUnpagedAddress : Obligations.HeldSegmentAndUnpagedAddress := by
  refine fun s => ⟨fun i d hf hd hu => ?_, fun trr tsr ca acc d u hg hv hunpaged => ?_⟩
  · subst hd
    exact getSdw_of_hit (sdwamLookup_of_held hf hu)
  · exact translate_eq_ok.2 ⟨u, hg, hv, by rw [if_pos hunpaged, unpagedAddress_eq]; exact ⟨rfl, rfl⟩⟩

/-! ### The words of an SDW that is not held (R283 to R288) -/

theorem dsBoundBad_iff {d : Dsbr} {tsr : Segno} : dsBoundBad d tsr = true ↔ d.bnd.toNat < 2 * tsr.toNat / 16 := by
  simp [dsBoundBad]

theorem dsBoundBad_eq_false {d : Dsbr} {tsr : Segno} : dsBoundBad d tsr = false ↔ 2 * tsr.toNat / 16 ≤ d.bnd.toNat := by
  simp [dsBoundBad]

theorem withEvent_withEvent (e e' : Event) (s : State) :
    withEvent e' (withEvent e s) = { s with events := s.events ++ [e, e'] } := by
  simp [withEvent]

section
variable {s u : State} {tsr : Segno}

/-- A stop on the way to an SDW's words is the stop of its acquisition: nothing is filled in (R287). -/
theorem getSdw_of_readSdw_error {e : Stop} (hm : sdwamLookup s.sdwam tsr = none) (h : readSdw tsr s = .error e u) :
    getSdw tsr s = .error e u := by
  rw [getSdw_of_miss hm]
  exact bind_of_error h

/-- Beyond the bound of the descriptor segment nothing is read (R283). -/
theorem readSdw_of_bound (h : s.dsbr.bnd.toNat < 2 * tsr.toNat / 16) :
    readSdw tsr s = .error (.fault (.accessViolation [.oosb])) s := by
  rw [readSdw, bind_of_ok (read_apply _ s), dsBoundBad_iff.2 h]
  exact bind_of_error (raiseIf_true _ s)

/-- Within the bound the SDW's address comes first (R283, R284, R285). -/
theorem readSdw_of_address_error {e : Stop} (hb : 2 * tsr.toNat / 16 ≤ s.dsbr.bnd.toNat) (ha : sdwAddress tsr s = .error e u) :
    readSdw tsr s = .error e u := by
  rw [readSdw, bind_of_ok (read_apply _ s), dsBoundBad_eq_false.2 hb, bind_of_ok (raiseIf_false _ s)]
  exact bind_of_error ha

/-- The state after the two reads of an SDW at `sa` (R287). -/
def withSdwRead (sa : Word24) (w0 w1 : Word36) (u : State) : State :=
  { u with events := u.events ++ [.read sa w0 .descriptorRead, .read (sa + 1#24) w1 .descriptorRead] }

variable {sa : Word24} {w0 w1 : Word36} (hb : 2 * tsr.toNat / 16 ≤ s.dsbr.bnd.toNat) (ha : sdwAddress tsr s = .ok sa u)
  (he0 : sa.toNat < u.config.memSize) (he1 : (sa + 1#24).toNat < u.config.memSize) (hw0 : memLookup u.mem sa.toNat = some w0)
  (hw1 : memLookup u.mem (sa + 1#24).toNat = some w1)
include hb ha he0 he1 hw0 hw1

/-- Within the bound, where the SDW's address is formed, both its words are read before its DF is looked at (R287). -/
theorem readSdw_of_words : readSdw tsr s =
    if descriptorValid w0 then .ok (w0, w1) (withSdwRead sa w0 w1 u)
    else .error (.fault (.directedFault (descriptorFc w0))) (withSdwRead sa w0 w1 u) := by
  have h0 := physRead_of_written .descriptorRead he0 hw0
  have h1 := physRead_of_written (s := withEvent (.read sa w0 .descriptorRead) u) .descriptorRead he1 hw1
  rw [withEvent_withEvent, ← withSdwRead] at h1
  rw [readSdw, bind_of_ok (read_apply _ s), dsBoundBad_eq_false.2 hb, bind_of_ok (raiseIf_false _ s), bind_of_ok ha,
    bind_of_ok h0, bind_of_ok h1]
  cases descriptorValid w0
  · exact bind_of_error (raiseIf_true _ _)
  · exact bind_of_ok (raiseIf_false _ _)

/-- The SDW of a segment that is not held: an invalid one is a directed fault that leaves the SDWAM as it was, a valid one is filled
in (R287, R288, R325). -/
theorem getSdw_of_words (hm : sdwamLookup s.sdwam tsr = none) :
    (w0.getLsbD 2 = false →
      getSdw tsr s = .error (.fault (.directedFault (w0.extractLsb' 0 2))) (withSdwRead sa w0 w1 u)) ∧
    (w0.getLsbD 2 = true → getSdw tsr s = .ok (decodeSdw tsr w0 w1)
      { withSdwRead sa w0 w1 u with sdwam := (amFill u.sdwam (decodeSdw tsr w0 w1)).2 }) := by
  have hr := readSdw_of_words hb ha he0 he1 hw0 hw1
  constructor
  · intro hv
    rw [descriptorValid, hv, if_neg Bool.false_ne_true] at hr
    exact getSdw_of_readSdw_error hm hr
  · intro hv
    rw [descriptorValid, hv, if_pos rfl] at hr
    rw [getSdw_of_miss hm]
    exact fetchSdw_eq_ok.2 ⟨_, _, hr, rfl, rfl⟩

end

/-- Settles O16: the words are read at the address in the unpaged descriptor segment, which takes no access. -/
theorem segmentDescriptorFetched : Obligations.SegmentDescriptorFetched := by
  intro s tsr hno
  have hm := sdwamLookup_eq_none.2 hno
  refine ⟨fun hbound => getSdw_of_readSdw_error hm (readSdw_of_bound hbound), ?_⟩
  rintro sa w0 w1 hb hu rfl he0 he1 hw0 hw1
  exact getSdw_of_words hb (sdwAddress_unpaged hu tsr) he0 he1 hw0 hw1 hm

/-- The SDW's address in a paged descriptor segment takes one read of its PTW, which may be invalid (R285, R286). -/
theorem sdwAddress_paged {s : State} {w : Word36} (hu : s.dsbr.u = false) (tsr : Segno)
    (he : (dsPtwAddress s.config s.dsbr tsr).toNat < s.config.memSize)
    (hw : memLookup s.mem (dsPtwAddress s.config s.dsbr tsr).toNat = some w) :
    sdwAddress tsr s =
      if descriptorValid w then .ok (frameAddress (ptwAddr w) (2 * tsr.toNat % s.config.pageSize))
        (withEvent (.read (dsPtwAddress s.config s.dsbr tsr) w .descriptorRead) s)
      else .error (.fault (.directedFault (descriptorFc w)))
        (withEvent (.read (dsPtwAddress s.config s.dsbr tsr) w .descriptorRead) s) := by
  rw [sdwAddress, bind_of_ok (read_apply _ s), hu, if_neg Bool.false_ne_true, sdwAddressPaged, bind_of_ok (read_apply _ s),
    bind_of_ok (read_apply _ s), bind_of_ok (physRead_of_written .descriptorRead he hw)]
  cases descriptorValid w
  · exact bind_of_error (raiseIf_true _ _)
  · exact bind_of_ok (raiseIf_false _ _)

/-- Settles O17: the address is `sdwAddress_paged`; where it is formed the words are read as in an unpaged descriptor segment. -/
theorem pagedDescriptorSegment : Obligations.PagedDescriptorSegment := by
  rintro s tsr _ w hu rfl he hw sa s₁ rfl rfl
  have ha := sdwAddress_paged hu tsr he hw
  refine ⟨ha, fun hno hb => ?_⟩
  have hm := sdwamLookup_eq_none.2 hno
  rw [descriptorValid] at ha
  constructor
  · intro hv
    rw [hv, if_neg Bool.false_ne_true] at ha
    exact getSdw_of_readSdw_error hm (readSdw_of_address_error hb ha)
  · intro w0 w1 hv he0 he1 hw0 hw1
    rw [hv, if_pos rfl] at ha
    exact getSdw_of_words hb ha he0 he1 hw0 hw1 hm

/-! ### Access control (R289 to R295) -/

section
variable {d : Sdw} {trr : Ring} {v : AcvCode}

theorem mem_readViolations : v ∈ readViolations d trr ↔ (v = .orb ∧ trr > d.r2) ∨ (v = .rOff ∧ d.r = false) := by
  simp [readViolations, mem_codeIf, and_comm]

theorem mem_executeViolations : v ∈ executeViolations d trr ↔
    (v = .oeb ∧ (trr < d.r1 ∨ trr > d.r2)) ∨ (v = .eOff ∧ d.e = false) := by
  simp [executeViolations, mem_codeIf, and_comm]

theorem mem_writeViolations : v ∈ writeViolations d trr ↔ (v = .owb ∧ trr > d.r1) ∨ (v = .wOff ∧ d.w = false) := by
  simp [writeViolations, mem_codeIf, and_comm]

/-- The violations are the failing checks: of the ring order, of the access's ring and permission, of the bound (R290 to R294). -/
theorem mem_violations {ca : Word18} {acc : Access} : v ∈ violations d trr ca acc ↔
    (v = .iro ∧ ¬ (d.r1 ≤ d.r2 ∧ d.r2 ≤ d.r3)) ∨ v ∈ permissionViolations d trr acc ∨
      (v = .oosb ∧ ca.toNat / 16 > d.bound.toNat) := by
  simp only [violations, List.mem_append, mem_codeIf, Bool.not_eq_true', ← Bool.not_eq_true, Bool.and_eq_true, decide_eq_true_eq,
    gt_iff_lt, and_comm, or_assoc]

end

/-- The sub-codes that a check can raise, in the order of their numbers (R364). -/
def checkedCodes : List AcvCode := [.iro, .oeb, .eOff, .orb, .rOff, .owb, .wOff, .oosb]

theorem codeIf_sublist (c : Bool) (v : AcvCode) : (codeIf c v).Sublist [v] := by
  cases c
  · exact List.nil_sublist _
  · exact List.Sublist.refl _

/-- Two checks of one access type, in sub-code order. -/
theorem codeIf_append_sublist (c c' : Bool) (v v' : AcvCode) : (codeIf c v ++ codeIf c' v').Sublist [v, v'] :=
  (codeIf_sublist c v).append (codeIf_sublist c' v')

theorem permissionViolations_sublist (d : Sdw) (trr : Ring) (acc : Access) :
    (permissionViolations d trr acc).Sublist [.oeb, .eOff, .orb, .rOff, .owb, .wOff] := by
  cases acc with
  | instructionFetch => exact (codeIf_append_sublist _ _ _ _).trans (by decide)
  | operandRead | indirectRead => exact (codeIf_append_sublist _ _ _ _).trans (by decide)
  | operandWrite | indirectWrite => exact (codeIf_append_sublist _ _ _ _).trans (by decide)

/-- The violations are some of the sub-codes that a check can raise, each once and in order (R289, R295). -/
theorem violations_sublist (d : Sdw) (trr : Ring) (ca : Word18) (acc : Access) :
    (violations d trr ca acc).Sublist checkedCodes :=
  ((codeIf_sublist _ .iro).append (permissionViolations_sublist d trr acc)).append (codeIf_sublist _ .oosb)

theorem checkedCodes_increasing : (checkedCodes.map acvNumber).Pairwise (· < ·) := by decide

/-- A violation is raised with every failing check, in the state in which the SDW is acquired (R295). -/
theorem translate_of_violations {s u : State} {trr : Ring} {tsr : Segno} {ca : Word18} {acc : Access} {d : Sdw}
    (hg : getSdw tsr s = .ok d u) (hv : violations d trr ca acc ≠ []) :
    translate trr tsr ca acc s = .error (.fault (.accessViolation (violations d trr ca acc))) u := by
  rw [translate, bind_of_ok hg]
  exact bind_of_error (by rw [checkAccess_apply, if_neg hv])

/-- Acquiring an SDW changes the SDWAM and the event record at most (R282, R322, R325). -/
theorem keeps_getSdw_eq {γ : Type} (f : State → γ) (hevent : ∀ e s, f (withEvent e s) = f s)
    (hsdwam : ∀ (m : Am Sdw) (s : State), f { s with sdwam := m } = f s) (tsr : Segno) :
    Keeps (fun s t => f t = f s) (getSdw tsr) := by
  have hc := chains_eq f
  have hp := keeps_physRead_eq f hevent
  have hread : Keeps (fun s t => f t = f s) (readSdw tsr) :=
    keeps_bind hc (keeps_read hc _) fun _ => keeps_bind hc (keeps_raiseIf hc _ _) fun _ =>
      keeps_bind hc (keeps_sdwAddress_of hc hp tsr) fun _ => keeps_bind hc (hp _ _) fun _ => keeps_bind hc (hp _ _) fun _ =>
      keeps_bind hc (keeps_raiseIf hc _ _) fun _ => keeps_pure hc _
  refine keeps_bind hc (keeps_read hc _) fun am => ?_
  split
  · exact keeps_bind hc (keeps_update fun s => hsdwam _ s) fun _ => keeps_pure hc _
  · exact keeps_bind hc hread fun _ => keeps_bind hc (keeps_update fun s => hsdwam _ s) fun _ => keeps_pure hc _

/-- Settles O18: membership check by check, the order from `violations_sublist`, the raise by `translate_of_violations`. -/
theorem accessChecks : Obligations.AccessChecks := by
  intro d trr ca acc
  refine ⟨fun v => ?_, checkedCodes_increasing.sublist ((violations_sublist d trr ca acc).map acvNumber), ?_⟩
  · rw [mem_violations]
    cases acc with
    | instructionFetch => simp [permissionViolations, mem_executeViolations, or_assoc]
    | operandRead | indirectRead => simp [permissionViolations, mem_readViolations, or_assoc]
    | operandWrite | indirectWrite => simp [permissionViolations, mem_writeViolations, or_assoc]
  · intro tsr s u hg hv
    exact ⟨translate_of_violations hg hv, keeps_of_ok (keeps_getSdw_eq (·.ptwam) (fun _ _ => rfl) (fun _ _ => rfl) tsr) hg⟩

end Sys2Proof.Machine
end

section
/-! SUPPORT. The page of a paged segment (O19, O20), and what a translation leaves alone (O21). -/

namespace Sys2Proof.Machine

/-! ### The PTW of a page (R297, R298, R330, R331) -/

/-- A held page is found where it is held: no other full entry is for it (R46, R330). -/
theorem ptwamLookup_of_held {m : Am Ptw} {j : Fin 64} (hf : (m.get j).full = true) (hu : PtwamUnique m) :
    ptwamLookup m (m.get j).body.pointer (m.get j).body.pageno = some j :=
  amFind_of_unique (ptwMatches_iff.2 ⟨hf, rfl, rfl⟩) fun k hk =>
    have ⟨hfull, hpointer, hpageno⟩ := ptwMatches_iff.1 hk
    hu k j hfull hf hpointer hpageno

/-- A page that no full entry is for is missed (R330). -/
theorem ptwamLookup_eq_none {m : Am Ptw} {tsr : Segno} {page : Word18} : ptwamLookup m tsr page = none ↔
    ∀ j, (m.get j).full = true → (m.get j).body.pointer = tsr → (m.get j).body.pageno ≠ page := by
  simp only [ptwamLookup, amFind_eq_none, Bool.eq_false_iff, ne_eq, ptwMatches_iff, not_and]

/-- The write-back of U: the PTW is written with U set where that is asked for and its U is 0 (R297, R300). -/
theorem writeBackUsed_apply {s : State} {pta : Word24} (he : pta.toNat < s.config.memSize) (w : Word36) :
    writeBackUsed pta w s = .ok ()
      (if s.config.ptwWriteback = true ∧ ptwUsed w = false then
        withEvent (.write pta (ptwSetUsed w) .descriptorWrite) (withWord pta (ptwSetUsed w) s)
      else s) := by
  have hw : physWrite pta (ptwSetUsed w) .descriptorWrite s = .ok () _ := physWrite_eq_ok.2 ⟨he, rfl⟩
  rw [writeBackUsed, bind_of_ok (read_apply _ s)]
  cases s.config.ptwWriteback
  · rfl
  · cases ptwUsed w
    · exact hw
    · rfl

/-- The filled entry holds the descriptor (R331). -/
theorem amFill_filled_body {α : Type} {m am : Am α} {b : α} {j : Fin 64} (h : amFill m b = (j, am)) : (am.get j).body = b := by
  have hj : amVictim m = j := by rw [← amFill_index m b, h]
  have hs := amFill_same m b
  rw [hj, h] at hs
  rw [hs]

/-- The state in which the PTW `w` has been read at `pta` and the PTWAM filled, before the write-back of U (R298, R331). -/
def withPtwFilled (pta : Word24) (w : Word36) (am : Am Ptw) (s : State) : State :=
  { withEvent (.read pta w .descriptorRead) s with ptwam := am }

section
variable {s : State} {tsr : Segno} {page : Word18} {pta : Word24} {w : Word36} {j : Fin 64} {am : Am Ptw}
  (he : pta.toNat < s.config.memSize) (hw : memLookup s.mem pta.toNat = some w)
include he hw

/-- An invalid PTW is a directed fault, after its read alone (R298). -/
theorem fetchPtw_of_invalid (hv : descriptorValid w = false) : fetchPtw tsr page pta s =
    .error (.fault (.directedFault (descriptorFc w))) (withEvent (.read pta w .descriptorRead) s) := by
  rw [fetchPtw, bind_of_ok (physRead_of_written .descriptorRead he hw), hv]
  exact bind_of_error (raiseIf_true _ _)

/-- A valid PTW is filled in, and its U is then written back where that is asked for and is 0 (R297, R298, R300, R331). -/
theorem fetchPtw_of_valid (hv : descriptorValid w = true) (hfill : amFill s.ptwam (decodePtw tsr page w) = (j, am)) :
    fetchPtw tsr page pta s = .ok j
      (if s.config.ptwWriteback = true ∧ ptwUsed w = false then
        withEvent (.write pta (ptwSetUsed w) .descriptorWrite) (withWord pta (ptwSetUsed w) (withPtwFilled pta w am s))
      else withPtwFilled pta w am s) := by
  have hptwam : ptwamFill (decodePtw tsr page w) (withEvent (.read pta w .descriptorRead) s) =
      .ok j (withPtwFilled pta w am s) := by
    simp only [ptwamFill, act_bind, read_apply, update_apply, act_pure, withEvent_ptwam, hfill, withPtwFilled]
  rw [fetchPtw, bind_of_ok (physRead_of_written .descriptorRead he hw), hv, Bool.not_true, bind_of_ok (raiseIf_false _ _),
    bind_of_ok hptwam]
  exact bind_of_ok (writeBackUsed_apply (s := withPtwFilled pta w am s) he w)

end

/-! ### The page's address (R297, R299, R300) -/

/-- Marking a page changes no entry's frame address (R300). -/
theorem markModified_addr {s t : State} {j : Fin 64} {pta : Word24} (h : markModified j pta s = .ok () t) (k : Fin 64) :
    (t.ptwam.get k).body.addr = (s.ptwam.get k).body.addr := by
  have hmodify : ∀ u : State, u.ptwam = (amModify s.ptwam j fun p => { p with m := true }) →
      (u.ptwam.get k).body.addr = (s.ptwam.get k).body.addr := fun u hu => by
    rw [hu, amModify_body]; split <;> rfl
  rw [markModified_apply] at h
  split at h
  · obtain ⟨w, u, hr, hw⟩ := writeBackModified_eq_ok.1 h
    obtain ⟨-, -, rfl⟩ := physRead_eq_ok.1 hr
    obtain ⟨-, rfl⟩ := physWrite_eq_ok.1 hw
    exact hmodify _ rfl
  · cases h
    exact hmodify _ rfl

section
variable {s t : State} {d : Sdw} {tsr : Segno} {ca : Word18} {acc : Access} {j : Fin 64}
  (hg : getPtw tsr (pageNumber s.config ca) (ptwAddress s.config d ca) s = .ok j t)
include hg

/-- Where the page's entry is acquired, the address is its frame's plus the offset in the page, and a write access marks the page
first (R297, R299, R300). -/
theorem pagedAddress_of_page {frame : Word18} (hframe : (t.ptwam.get j).body.addr = frame) :
    (isWrite acc = false → pagedAddress d tsr ca acc s = .ok (frameAddress frame (ca.toNat % s.config.pageSize)) t) ∧
    (isWrite acc = true → ∀ v, markModified j (ptwAddress s.config d ca) t = .ok () v →
      pagedAddress d tsr ca acc s = .ok (frameAddress frame (ca.toNat % s.config.pageSize)) v) := by
  subst hframe
  unfold pagedAddress markIfWrite
  rw [bind_of_ok (read_apply _ s), bind_of_ok hg]
  constructor
  · intro hacc
    rw [hacc, if_neg Bool.false_ne_true]
    rfl
  · intro hacc v hv
    rw [hacc, if_pos rfl, bind_of_ok hv, ← markModified_addr hv j]
    rfl

end

/-- A stop on the way to the page's entry is the stop of the translation. -/
theorem pagedAddress_of_page_error {s t : State} {d : Sdw} {tsr : Segno} {ca : Word18} {acc : Access} {e : Stop}
    (hg : getPtw tsr (pageNumber s.config ca) (ptwAddress s.config d ca) s = .error e t) :
    pagedAddress d tsr ca acc s = .error e t := by
  rw [pagedAddress, bind_of_ok (read_apply _ s)]
  exact bind_of_error hg

/-- Settles O19: a hit is `getPtw_of_hit`, a miss a fetch; from the page on both go by `pagedAddress_of_page`. -/
theorem pageTranslates : Obligations.PageTranslates := by
  intro s d tsr ca acc p pta hp hpta ends
  obtain rfl : p = pageNumber s.config ca := hp
  obtain rfl : pta = ptwAddress s.config d ca := hpta
  constructor
  · rintro j hf rfl hp hu
    have hl := ptwamLookup_of_held hf hu
    rw [hp] at hl
    exact pagedAddress_of_page (getPtw_of_hit hl) (by rw [amPromote_body])
  · intro w hno he hw
    have hmiss := getPtw_of_miss (pta := ptwAddress s.config d ca) (ptwamLookup_eq_none.2 hno)
    constructor
    · intro hv
      exact pagedAddress_of_page_error (hmiss.trans (fetchPtw_of_invalid he hw hv))
    · rcases hfill : amFill s.ptwam ⟨tsr, pageNumber s.config ca, w.extractLsb' 18 18, w.getLsbD 6⟩ with ⟨j, am⟩
      intro hv
      have hframe : (am.get j).body.addr = w.extractLsb' 18 18 := by rw [amFill_filled_body hfill]
      exact pagedAddress_of_page (hmiss.trans (fetchPtw_of_valid he hw hv hfill)) (by split <;> exact hframe)

/-- Settles O20, by `markModified_apply` and the M bit of the in-core PTW. -/
theorem writtenPageIsModified : Obligations.WrittenPageIsModified := by
  intro s j pta u
  refine ⟨fun hoff => ?_, fun hon he => ?_, fun w hon he hw => ?_⟩
  · rw [markModified_apply, if_neg (by simp [hoff])]
  · rw [markModified_apply, if_pos ⟨hon, inCoreModified_of_nonexistent he⟩]
    exact bind_of_error (physRead_of_nonexistent (s := u) .descriptorRead he)
  · rw [markModified_apply, inCoreModified_of_written he hw, ptwModified]
    cases hbit : w.getLsbD 6
    · rw [if_pos ⟨hon, rfl⟩, if_neg Bool.false_ne_true]
      have hr := physRead_of_written (s := u) .descriptorRead he hw
      refine writeBackModified_eq_ok.2 ⟨w, _, hr, physWrite_eq_ok.2 ⟨he, ?_⟩⟩
      simp only [u, withEvent, withWord, List.append_assoc, List.cons_append, List.nil_append, ptwSetUsedModified]
      rfl
    · rw [if_neg (by simp), if_pos rfl]

/-! ### What a translation leaves alone (R300, R303) -/

/-- The word at every address is as it was, or keeps every bit but U and M. -/
def ChangesPtwBits (s t : State) : Prop :=
  ∀ a, memLookup t.mem a = memLookup s.mem a ∨
    ∃ w w', memLookup s.mem a = some w ∧ memLookup t.mem a = some w' ∧ w' &&& ~~~0o1100#36 = w &&& ~~~0o1100#36

/-- Where memory is not touched. -/
theorem changesPtwBits_of_eq {s t : State} (hm : t.mem = s.mem) : ChangesPtwBits s t := fun _ => .inl (by rw [hm])

theorem changesPtwBits_chains : Chains ChangesPtwBits where
  refl _ := changesPtwBits_of_eq rfl
  trans := by
    intro s t u h k a
    rcases h a with h | ⟨w, w', hs, ht, hb⟩ <;> rcases k a with k | ⟨v, v', ht', hu, hb'⟩
    · exact .inl (k.trans h)
    · exact .inr ⟨v, v', h.symm.trans ht', hu, hb'⟩
    · exact .inr ⟨w, w', hs, k.trans ht, hb⟩
    · obtain rfl : w' = v := Option.some.inj (ht.symm.trans ht')
      exact .inr ⟨w, v', hs, hu, hb'.trans hb⟩

/-- An action that changes no word of memory but in the bits U and M of a PTW. -/
abbrev SparesPtwBits {α : Type} (m : Act α) : Prop := Keeps ChangesPtwBits m

/-- A word written back as it stands in memory, with bits of U and M alone set. -/
theorem changesPtwBits_of_store {s t : State} {a : Nat} {w bits : Word36} (hw : memLookup s.mem a = some w)
    (hb : bits &&& ~~~0o1100#36 = 0#36) (ht : t.mem = memStore s.mem a (w ||| bits)) : ChangesPtwBits s t := by
  intro b
  rw [ht]
  by_cases hba : b = a
  · subst hba
    have hkeep : (w ||| bits) &&& ~~~0o1100#36 = w &&& ~~~0o1100#36 := by rw [BitVec.and_or_distrib_right, hb, BitVec.or_zero]
    exact .inr ⟨w, w ||| bits, hw, memLookup_memStore_same _ _ _, hkeep⟩
  · exact .inl (memLookup_memStore_other hba)

namespace SparesPtwBits

theorem ptwam (f : State → Am Ptw) : SparesPtwBits (update fun s => { s with ptwam := f s }) :=
  keeps_update fun _ => changesPtwBits_of_eq rfl

theorem physRead (pa : Word24) (acc : AccessType) : SparesPtwBits (physRead pa acc) := fun s =>
  changesPtwBits_of_eq (keeps_physRead_eq (·.mem) (fun _ _ => rfl) pa acc s)

theorem getSdw (tsr : Segno) : SparesPtwBits (getSdw tsr) := fun s =>
  changesPtwBits_of_eq (keeps_getSdw_eq (·.mem) (fun _ _ => rfl) (fun _ _ => rfl) tsr s)

theorem writeBackModified (pta : Word24) : SparesPtwBits (writeBackModified pta) := by
  refine fun s => leaves_bind changesPtwBits_chains (physRead pta _ s) fun w u hr => ?_
  obtain ⟨-, hw, rfl⟩ := physRead_eq_ok.1 hr
  unfold leaves
  rcases physWrite_cases pta (ptwSetUsedModified w) .descriptorWrite (withEvent (.read pta w .descriptorRead) s) with
    ⟨-, h⟩ | ⟨-, h⟩ <;> rw [h]
  · exact changesPtwBits_chains.refl _
  · exact changesPtwBits_of_store hw (bits := 0o1100#36) (by decide) rfl

/-- The PTW written back is the one that was read: the fill in between leaves memory alone. -/
theorem fetchPtw (tsr : Segno) (page : Word18) (pta : Word24) : SparesPtwBits (fetchPtw tsr page pta) := by
  intro s
  have hstop {e : Stop} (h : Machine.physRead pta .descriptorRead s = .error e s) :
      ChangesPtwBits s (leaves (Machine.fetchPtw tsr page pta) s) := by
    rw [Machine.fetchPtw, leaves_of_error (bind_of_error h)]
    exact changesPtwBits_chains.refl s
  rcases physRead_cases pta .descriptorRead s with ⟨-, h⟩ | ⟨-, -, h⟩ | ⟨w, he, hw, -⟩
  · exact hstop h
  · exact hstop h
  · cases hv : descriptorValid w
    · rw [leaves_of_error (fetchPtw_of_invalid he hw hv)]
      exact changesPtwBits_of_eq rfl
    · rcases hfill : amFill s.ptwam (decodePtw tsr page w) with ⟨j, am⟩
      rw [leaves_of_ok (fetchPtw_of_valid he hw hv hfill)]
      split
      · exact changesPtwBits_of_store hw (bits := 0o1000#36) (by decide) rfl
      · exact changesPtwBits_of_eq rfl

theorem getPtw (tsr : Segno) (page : Word18) (pta : Word24) : SparesPtwBits (getPtw tsr page pta) := by
  refine keeps_bind changesPtwBits_chains (keeps_read changesPtwBits_chains _) fun am => ?_
  split
  · exact keeps_bind changesPtwBits_chains (ptwam _) fun _ => keeps_pure changesPtwBits_chains _
  · exact fetchPtw tsr page pta

theorem markModified (j : Fin 64) (pta : Word24) : SparesPtwBits (markModified j pta) :=
  keeps_bind changesPtwBits_chains (ptwam _) fun _ =>
    keeps_bind changesPtwBits_chains (keeps_get changesPtwBits_chains) fun _ =>
    keeps_ite _ (writeBackModified pta) (keeps_pure changesPtwBits_chains _)

theorem pagedAddress (d : Sdw) (tsr : Segno) (ca : Word18) (acc : Access) : SparesPtwBits (pagedAddress d tsr ca acc) :=
  keeps_bind changesPtwBits_chains (keeps_read changesPtwBits_chains _) fun _ =>
    keeps_bind changesPtwBits_chains (getPtw _ _ _) fun _ =>
    keeps_bind changesPtwBits_chains (keeps_ite _ (markModified _ _) (keeps_pure changesPtwBits_chains _)) fun _ =>
    keeps_bind changesPtwBits_chains (keeps_read changesPtwBits_chains _) fun _ => keeps_pure changesPtwBits_chains _

theorem translate (trr : Ring) (tsr : Segno) (ca : Word18) (acc : Access) : SparesPtwBits (translate trr tsr ca acc) :=
  keeps_bind changesPtwBits_chains (getSdw tsr) fun d =>
    keeps_bind changesPtwBits_chains (keeps_raiseIf changesPtwBits_chains _ _) fun _ =>
    keeps_ite _ (keeps_pure changesPtwBits_chains _) <|
      keeps_bind changesPtwBits_chains (pagedAddress d tsr ca acc) fun _ => keeps_pure changesPtwBits_chains _

end SparesPtwBits

/-- Settles O21: what every part of a translation keeps, kept of the state it answers or stops in. -/
theorem translationFrame : Obligations.TranslationFrame := by
  intro trr tsr ca acc s t h
  have ht : t = leaves (translate trr tsr ca acc) s := by
    rcases h with ⟨r, h⟩ | ⟨e, h⟩
    · exact (leaves_of_ok h).symm
    · exact (leaves_of_error h).symm
  subst ht
  obtain ⟨-, -, hmem⟩ := SavesRewrite.translate trr tsr ca acc s
  exact ⟨keeps_translate accessOnly_chain.toReadChain trr tsr ca acc s, hmem, SparesPtwBits.translate trr tsr ca acc s⟩

end Sys2Proof.Machine
end

section
/-! SUPPORT. The usage counters, the victim, and the order of the fills after a reset (O22 to O24). -/

namespace Sys2Proof.Machine

section
variable {α : Type} {b : α} {l : List α} {m : Am α} {i : Fin 64}

/-! ### The usage counters (R321, R323) -/

/-- A counter above another one is not zero, so one less is one less as a number. -/
theorem counter_sub_one {u v : BitVec 6} (h : v < u) : u - 1#6 = BitVec.ofNat 6 (u.toNat - 1) := by
  bv_omega

/-- The new descriptor plays no part in the counters: a fill changes them as a promotion of the victim does (R325, R331). -/
theorem amFill_use (m : Am α) (b : α) (k : Fin 64) :
    ((amFill m b).2.get k).use = ((amPromote m (amVictim m)).get k).use := by
  by_cases h : k = amVictim m
  · subst k; simp [amFill_same, amPromote_same]
  · rw [amFill_other b h]

theorem usePermutation_amReset (b : α) : UsePermutation (amReset b) :=
  (AmGood.reset (key := id) (fits := fun _ => True) b).use

theorem usePermutation_amFill (h : UsePermutation m) (b : α) : UsePermutation (amFill m b).2 :=
  usePermutation_congr (amFill_use m b) (usePermutation_amPromote h (amVictim m))

theorem usePermutation_amInvalidate (h : UsePermutation m) : UsePermutation (amInvalidate m) :=
  usePermutation_congr (by simp) h

/-- 64 different counters of six bits take every value. -/
theorem UsePermutation.exists_use (h : UsePermutation m) (u : BitVec 6) : ∃ i, (m.get i).use = u := by
  have hinj : Function.Injective fun i => ((m.get i).use.toFin : Fin 64) := fun i j hij => h i j (BitVec.toFin_inj.1 hij)
  obtain ⟨i, hi⟩ := Finite.surjective_of_injective hinj u.toFin
  exact ⟨i, BitVec.toFin_inj.1 hi⟩

theorem UsePermutation.existsUnique_use (h : UsePermutation m) (u : BitVec 6) : ∃! i, (m.get i).use = u :=
  have ⟨i, hi⟩ := h.exists_use u
  ⟨i, hi, fun j hj => h j i (hj.trans hi.symm)⟩

/-! ### The victim (R324) -/

theorem amVictim_of_empty (hi : (m.get i).full = false) (hlow : ∀ j < i, (m.get j).full = true) : amVictim m = i := by
  have hfind : amFind m (fun e => !e.full) = some i :=
    amFind_eq_some.2 ⟨by simp [hi], fun j hj => by simp [hlow j hj]⟩
  simp [amVictim, hfind]

/-- Where no entry is empty and some counter is zero, the victim's is. -/
theorem amVictim_use_of_full (hfull : ∀ j, (m.get j).full = true) (hi : (m.get i).use = 0) :
    (m.get (amVictim m)).use = 0 := by
  have hnone : amFind m (fun e => !e.full) = none := amFind_eq_none.2 fun j => by simp [hfull j]
  cases hfind : amFind m fun e => e.use == 0#6 with
  | none => simpa [hi] using amFind_eq_none.1 hfind i
  | some k =>
    have hk := (amFind_eq_some.1 hfind).1
    simpa [amVictim, hnone, hfind] using hk

/-! ### The fills after a reset (R343) -/

/-- The descriptors `l` fill the lowest entries in order, their counters rising to the highest; the other entries are empty, and
theirs rise from zero. -/
def FilledInOrder (b : α) (l : List α) (m : Am α) : Prop :=
  ∀ j : Fin 64, m.get j = if h : j.val < l.length then ⟨true, BitVec.ofNat 6 (64 - l.length + j.val), l[j.val]⟩
    else ⟨false, BitVec.ofNat 6 (j.val - l.length), b⟩

theorem FilledInOrder.get_filled (h : FilledInOrder b l m) {j : Fin 64} (hj : j.val < l.length) :
    m.get j = ⟨true, BitVec.ofNat 6 (64 - l.length + j.val), l[j.val]⟩ := by
  rw [h j, dif_pos hj]

theorem FilledInOrder.get_empty (h : FilledInOrder b l m) {j : Fin 64} (hj : l.length ≤ j.val) :
    m.get j = ⟨false, BitVec.ofNat 6 (j.val - l.length), b⟩ := by
  rw [h j, dif_neg (by omega)]

theorem FilledInOrder.reset (b : α) : FilledInOrder b [] (amReset b) := fun j => by
  simp [amReset_get]

/-- While an entry is empty the victim is the first one after the filled ones. -/
theorem FilledInOrder.amVictim_of_lt (h : FilledInOrder b l m) (hl : l.length < 64) : amVictim m = ⟨l.length, hl⟩ :=
  amVictim_of_empty (by rw [h.get_empty le_rfl]) fun j hj => by rw [h.get_filled hj]

/-- When every entry is full, entry 0 alone has the counter zero. -/
theorem FilledInOrder.amVictim_of_full (h : FilledInOrder b l m) (hl : l.length = 64) : amVictim m = 0 := by
  have hget (j : Fin 64) := h.get_filled (j := j) (by omega)
  have hzero : (m.get 0).use = 0 := by simp [hget, hl]
  have hvictim := amVictim_use_of_full (fun j => by rw [hget]) hzero
  rw [hget] at hvictim
  bv_omega

/-- The counter of an entry that is not the victim falls by one where the victim's is zero. -/
theorem amFill_other_of_zero {n : Nat} {k : Fin 64} (hk : k ≠ amVictim m) (hv : (m.get (amVictim m)).use = 0)
    (hu : (m.get k).use = BitVec.ofNat 6 n) (hpos : 0 < n) (hlt : n < 64) (b : α) :
    (amFill m b).2.get k = { m.get k with use := BitVec.ofNat 6 (n - 1) } := by
  have habove : 0 < BitVec.ofNat 6 n := by bv_omega
  have hn : (BitVec.ofNat 6 n).toNat = n := by rw [BitVec.toNat_ofNat]; omega
  rw [amFill_other b hk, amPromote_other hk, hv, hu, if_pos habove, counter_sub_one habove, hn]

/-- The next fill takes the first empty entry, whose counter is zero, and every other counter falls by one. -/
theorem FilledInOrder.fill (h : FilledInOrder b l m) (hl : l.length < 64) (x : α) :
    FilledInOrder b (l ++ [x]) (amFill m x).2 := by
  have hvictim := h.amVictim_of_lt hl
  have hzero : (m.get (amVictim m)).use = 0 := by
    rw [hvictim, h.get_empty le_rfl]
    simp
  intro j
  simp only [List.length_append, List.length_singleton]
  rcases lt_trichotomy j.val l.length with hj | hj | hj
  · have hne : j ≠ amVictim m := by rw [hvictim]; exact Fin.ne_of_val_ne hj.ne
    have hfilled := h.get_filled hj
    rw [amFill_other_of_zero hne hzero (by rw [hfilled]) (by omega) (by omega), hfilled, dif_pos (by omega),
      List.getElem_append_left hj, show 64 - (l.length + 1) + j.val = 64 - l.length + j.val - 1 by omega]
  · have heq : j = amVictim m := by rw [hvictim]; exact Fin.ext hj
    have hfill : (amFill m x).2.get j = ⟨true, useMax, x⟩ := by rw [heq, amFill_same]
    have hmax : useMax = BitVec.ofNat 6 (64 - (l.length + 1) + j.val) := by
      rw [show 64 - (l.length + 1) + j.val = 63 by omega]; rfl
    rw [dif_pos (by omega), ← hmax, hfill]
    simp [hj]
  · have hne : j ≠ amVictim m := by rw [hvictim]; exact Fin.ne_of_val_ne hj.ne'
    have hempty := h.get_empty hj.le
    rw [amFill_other_of_zero hne hzero (by rw [hempty]) (by omega) (by omega), hempty, dif_neg (by omega), Nat.sub_add_eq]

/-- The fills after a reset, up to as many as there are entries. -/
theorem filledInOrder_foldl (b : α) (l : List α) (hl : l.length ≤ 64) :
    FilledInOrder b l (l.foldl (fun m b => (amFill m b).2) (amReset b)) := by
  induction l using List.reverseRecOn with
  | nil => exact .reset b
  | append_singleton l x ih =>
    rw [List.length_append, List.length_singleton] at hl
    rw [List.foldl_append]
    exact (ih (by omega)).fill (by omega) x

end

/-- Settles O22: a promotion entry by entry, what it keeps of the counters, and 64 different six-bit counters taking the value 0. -/
theorem countersAgeAndStayPermutation : Obligations.CountersAgeAndStayPermutation := by
  refine fun α b => ⟨usePermutation_amReset b, fun m => ⟨fun i k => ?_, fun h =>
    ⟨usePermutation_amPromote h, usePermutation_amFill h, usePermutation_amInvalidate h, h.existsUnique_use 0⟩⟩⟩
  by_cases hk : k = i
  · subst k; rw [amPromote_same, if_pos rfl, useMax]; rfl
  · rw [amPromote_other hk, if_neg hk]
    split
    next hlt => rw [counter_sub_one hlt]
    next => rfl

/-- Settles O23: what the victim is where an entry is empty, and where a full memory has a counter at zero, as every permutation
has. -/
theorem victimChoice : Obligations.VictimChoice :=
  fun _ _ => ⟨fun _ => amVictim_of_empty, fun h hfull =>
    have ⟨_, hi⟩ := h.exists_use 0
    amVictim_use_of_full hfull hi⟩

/-- Settles O24, by induction on the fills: the entries and their counters after each, and the victim that they give. -/
theorem fillOrderAfterReset : Obligations.FillOrderAfterReset := by
  intro α b l hl m
  have h : FilledInOrder b l m := filledInOrder_foldl b l hl
  refine ⟨h, ?_⟩
  split
  next hfull => rw [h.amVictim_of_full hfull]; rfl
  next hne => rw [h.amVictim_of_lt (by omega)]

end Sys2Proof.Machine
end

section
/-! SUPPORT. Reset, the core between requests (O8, O9, O58), and the indirect word that points to itself (O60). -/

namespace Sys2Proof.Machine

/-! ### Between requests (R402) -/

/-- Settles O8, by `step_idle`. -/
theorem idleCoreWaits : Obligations.IdleCoreWaits := fun _ hp hr => step_idle hp hr

/-! ### Reset (R400, R401) -/

/-- An associative memory after reset: every entry is empty, its counter its index (R45, R46, R400). -/
theorem amReset_empty {α : Type} (b : α) (i : Fin 64) :
    ((amReset b).get i).full = false ∧ ((amReset b).get i).use = BitVec.ofNat 6 i.val := by
  rw [amReset_get]
  exact ⟨rfl, rfl⟩

/-- The step that takes a reset event off the queue runs it on the state with the later requests (R400, log entry 17). -/
theorem step_reset {s : State} {rs : List Request} (hp : s.phase = .idle) (hr : s.requests = .reset :: rs) :
    step s = .next (resetCore (withRequests rs s)) :=
  (step_served hp hr rfl).trans (complete_of_ok (update_apply _ _))

/-- Settles O9: the reset state field by field, and the event by what `resetCore` sets and keeps. -/
theorem resetAndResetEvent : Obligations.ResetAndResetEvent := by
  refine ⟨⟨rfl, rfl, rfl, amReset_empty sdwZero, amReset_empty ptwZero, fun _ => rfl⟩, fun s rs hp hr => ?_⟩
  exact ⟨_, step_reset hp hr, resetCore_addrMode _, resetCore_escSaved _, resetCore_depth _, resetCore_sdwam _, resetCore_ptwam _,
    resetCore_mem _, resetCore_config _, resetCore_phase _, resetCore_requests _⟩

/-- The reset state is at rest: no memory word holds a value, and both associative memories are empty (R400, R401). -/
theorem atRest_reset : AtRest State.reset :=
  ⟨⟨by decide, .nil, (fun _ _ h => nomatch h), .reset sdwZero, .reset ptwZero⟩, rfl, rfl⟩

/-- Settles O58: a state at rest meets the invariant. -/
theorem resetMeetsInvariant : Obligations.ResetMeetsInvariant := atRest_reset.inv

/-! ### The indirect word that points to itself (R415) -/

/-- In ABSOLUTE mode a read goes through where the word at the computed address exists and holds a value (R83, R88). -/
theorem readsAt_absolute {s : State} {ca : Word18} {w : Word36} (acc : Access) (hmode : s.addrMode = .absolute)
    (hexists : ca.toNat < s.config.memSize) (hword : memLookup s.mem ca.toNat = some w) :
    ReadsAt s ca acc w none (withEvent (.read (ca.setWidth 24) w (.logical acc)) s) := by
  have hca : (ca.setWidth 24).toNat = ca.toNat := BitVec.toNat_setWidth_of_le (by decide)
  exact ⟨_, s, formAddress_absolute hmode ca acc, by rwa [hca], by rwa [hca], rfl⟩

/-- In ABSOLUTE mode and with no chain limit the tag `n*` is about to be dispatched at the address of an existing word `w`, which
holds that address and that tag. -/
structure SelfIndirection (w : Word36) (s : State) : Prop where
  noLimit : s.config.maxIndirectDepth = none
  dispatched : s.phase = .dispatch 0o20
  absolute : s.addrMode = .absolute
  inMemory : s.tpr.ca.toNat < s.config.memSize
  holds : memLookup s.mem s.tpr.ca.toNat = some w
  address : wordY w = s.tpr.ca
  tag : wordTag w = 0o20

/-- The state with one more fetch of the indirect word at TPR.CA counted and recorded. -/
def refetched (w : Word36) (s : State) : State :=
  withEvent (.read (s.tpr.ca.setWidth 24) w (.logical .indirectRead)) (counted s)

namespace SelfIndirection

variable {w : Word36} {s : State}

/-- Such a fetch leaves what it was made from, but for the count and the record. -/
theorem after_fetch (h : SelfIndirection w s) : SelfIndirection w (refetched w s) :=
  ⟨h.noLimit, h.dispatched, h.absolute, h.inMemory, h.holds, h.address, h.tag⟩

/-- The word read is no pointer pair, and its address and tag are those that fetched it. -/
theorem indirectEnd (h : SelfIndirection w s) : IndirectEnd s (refetched w s) := by
  have hdepth : WithinDepth s := fun m hm => by simp [h.noLimit] at hm
  have hread := readsAt_absolute (s := counted s) .indirectRead h.absolute h.inMemory h.holds
  refine ⟨hdepth, w, none, _, hread, ?_⟩
  rw [h.tag, if_neg (by decide), h.address, ← h.dispatched]
  rfl

/-- The step fetches the word once more (R175, R415). -/
theorem step_eq (h : SelfIndirection w s) : step s = .next (refetched w s) := by
  have hrow : (.n, .nStar, .starN, 0, fun _ => 0) ∈ registerRows := List.mem_cons_self
  have hend : IndirectEnd (withCa (s.tpr.ca + 0) s) (refetched w s) := by
    rw [add_zero]
    exact h.indirectEnd
  exact (step_dispatch h.dispatched).trans (registerIndirectCompletes _ _ _ _ _ hrow s _ hend)

/-- After `k` steps the word is about to be fetched again, and it has been read `k` times. -/
theorem run (h : SelfIndirection w s) (k : Nat) :
    ∃ t : State, Host.Core.run Sys2Proof.core k s = .next t ∧ SelfIndirection w t ∧ t.tpr.ca = s.tpr.ca ∧ t.mem = s.mem ∧
      t.events = s.events ++ List.replicate k (.read (s.tpr.ca.setWidth 24) w (.logical .indirectRead)) := by
  induction k generalizing s with
  | zero => exact ⟨s, rfl, h, rfl, rfl, (List.append_nil _).symm⟩
  | succ k ih =>
    obtain ⟨t, hrun, ht, hca, hmem, hevents⟩ := ih h.after_fetch
    refine ⟨t, (run_of_next h.step_eq k).trans hrun, ht, hca, hmem, ?_⟩
    rw [hevents, List.replicate_succ, List.append_cons]
    rfl

end SelfIndirection

/-- Settles O60: the self-indirection is kept by every step of the run. -/
theorem selfIndirectionNeverEnds : Obligations.SelfIndirectionNeverEnds := by
  intro s w hlimit hphase hmode hexists hword haddress htag k
  obtain ⟨t, hrun, ht, hca, hmem, hevents⟩ :=
    SelfIndirection.run ⟨hlimit, hphase, hmode, hexists, hword, haddress, htag⟩ k
  exact ⟨t, hrun, ht.dispatched, hca, hmem, hevents⟩

end Sys2Proof.Machine
end
